-- ==== Sys2Proof/Word.lean ====
section
/-! DEFINITION. The plain values of the engine: bytes, line levels, and the operand buffers a command carries
(spec 00 R13, R14; 20 R45, R46). The operations on buffers stand in Machine/Ops.lean. -/

namespace Sys2Proof

/-- An unsigned 8-bit value (R13). Bit 7 is the most significant bit (R14). -/
abbrev Byte := BitVec 8

/-- A bit as a line level: `true` is the bit 1, logic high, `false` is the bit 0, logic low (R13). -/
abbrev Level := Bool

/-- The bytes of one operand buffer that are not zero, by index, indices strictly rising.
DESIGN CHOICE (log 8), safe: an index with no cell holds the byte 0, so equal contents are equal lists. -/
abbrev Memory := List Host.Cell

/-- The canonical form from index `lo` on: indices strictly rising, no cell equal to what an unlisted index reads as. -/
def Memory.wfFrom : Nat → Memory → Bool
  | _, [] => true
  | lo, c :: rest => decide (lo ≤ c.1) && (c.2 != 0) && Memory.wfFrom (c.1 + 1) rest

/-- The canonical form of a memory. -/
def Memory.wf (m : Memory) : Bool := Memory.wfFrom 0 m

/-- An operand buffer B: B[0], ..., B[len-1], `len` any natural number (R46). -/
structure Buffer where
  /-- `len(B)`. -/
  len : Nat
  /-- The bytes, in canonical form. -/
  cells : Memory
deriving DecidableEq, Repr

/-- The buffer of length 0. -/
def Buffer.empty : Buffer := ⟨0, []⟩

/-- A buffer's cells are in canonical form and lie within its length. -/
def Buffer.wf (b : Buffer) : Bool := Memory.wf b.cells && b.cells.all (fun c => decide (c.1 < b.len))

end Sys2Proof
end

