-- ==== Sys2Proof/Config.lean ====
section
/-! DEFINITION. The parameters of the block (spec 00 R9, R11, R12; 10 R37) and the free values: what the spec leaves
open has no body here, so no proof can see a value of it. -/

namespace Sys2Proof

/-- The configuration of one engine: fixed for its lifetime, never written by any step (R37).
T_ITER and T_PIN (R10) are arguments of the timing view, Machine/Timing.lean. -/
structure Config where
  /-- DELAY_ITERS, the spins of one DELAY (R9). -/
  delayIters : Nat
  /-- MAX_LEN, the greatest buffer length a command may carry; `none` is unbounded (R11). -/
  maxLen : Option Nat
  /-- DRIVER_MAY_PANIC: whether a pin micro-operation may panic (R12). -/
  driverMayPanic : Bool
deriving DecidableEq, Repr

/-- DELAY_ITERS as the platform chose it: OPEN, no default (R9). Log 9. -/
opaque Config.delayItersOpen : Nat

/-- The level on DATA at the n-th draw of `DataIn()` that no script of the environment gives (R15, R92). A free value:
log 2. -/
opaque Config.freeLevel : Nat → Level

/-- Whether the pin driver panics at the n-th pin micro-operation that no script gives, when the configuration admits
panics (R81, R134). A free value: log 10. -/
opaque Config.freePanic : Nat → Bool

end Sys2Proof
end

