-- ==== Sys2Proof/Syntax.lean ====
section
/-! DEFINITION. The instructions: one constructor per row of spec/opcode_table.json, with the operands the spec passes
alongside the word (spec 30 R63-R69, R74). -/

namespace Sys2Proof

/-- The two 8-bit formats (R63): CMD words go on the command port, PIN words name micro-operations. -/
inductive Format where
  | cmd
  | pin
deriving DecidableEq, Repr

/-- The operands that go alongside a CMD word; no operand is a field of the word (R66, R74). -/
structure Operands where
  /-- R, the buffer to fill. -/
  r : Buffer
  /-- W, the buffer of bytes to write. -/
  w : Buffer
  /-- X, the buffer of TRANSFER_IN_PLACE. -/
  x : Buffer
  /-- b, the byte of WRITE_BYTE. -/
  b : Byte
deriving DecidableEq, Repr

/-- No operands: empty buffers and the byte 0. -/
def Operands.none : Operands := ⟨Buffer.empty, Buffer.empty, Buffer.empty, 0⟩

/-- The sixteen rows of the opcode table. -/
inductive Instr where
  /-- READ R (CMD 0x01, R111). -/
  | read (r : Buffer)
  /-- WRITE W (CMD 0x02, R112). -/
  | write (w : Buffer)
  /-- TRANSFER R, W (CMD 0x03, R113). -/
  | transfer (r : Buffer) (w : Buffer)
  /-- TRANSFER_IN_PLACE X (CMD 0x04, R114). -/
  | transferInPlace (x : Buffer)
  /-- FLUSH (CMD 0x05, R115). -/
  | flush
  /-- WRITE_BYTE b (CMD 0x08, internal, R97). -/
  | writeByte (b : Byte)
  /-- READ_BYTE (CMD 0x09, internal, R101). -/
  | readByte
  /-- CLK.SET_HIGH (PIN 0x02, R88). -/
  | clkSetHigh
  /-- CLK.SET_LOW (PIN 0x03, R89). -/
  | clkSetLow
  /-- DELAY (PIN 0x06, R93). -/
  | delay
  /-- DATA.SET_AS_OUTPUT (PIN 0x08, R82). -/
  | dataSetAsOutput
  /-- DATA.SET_AS_INPUT (PIN 0x09, R83). -/
  | dataSetAsInput
  /-- DATA.SET_HIGH (PIN 0x0A, R84). -/
  | dataSetHigh
  /-- DATA.SET_LOW (PIN 0x0B, R85). -/
  | dataSetLow
  /-- DATA.IS_HIGH (PIN 0x0C, R86). -/
  | dataIsHigh
  /-- DATA.IS_LOW (PIN 0x0D, R87). -/
  | dataIsLow
deriving DecidableEq, Repr

/-- The format of an instruction's word. -/
def Instr.format : Instr → Format
  | .read _ | .write _ | .transfer _ _ | .transferInPlace _ | .flush | .writeByte _ | .readByte => .cmd
  | .clkSetHigh | .clkSetLow | .delay | .dataSetAsOutput | .dataSetAsInput => .pin
  | .dataSetHigh | .dataSetLow | .dataIsHigh | .dataIsLow => .pin

/-- The operands of an instruction, laid out as they go alongside its word (R65, R66). -/
def Instr.operands : Instr → Operands
  | .read r => { Operands.none with r := r }
  | .write w => { Operands.none with w := w }
  | .transfer r w => { Operands.none with r := r, w := w }
  | .transferInPlace x => { Operands.none with x := x }
  | .writeByte b => { Operands.none with b := b }
  | .flush | .readByte | .clkSetHigh | .clkSetLow | .delay | .dataSetAsOutput | .dataSetAsInput => Operands.none
  | .dataSetHigh | .dataSetLow | .dataIsHigh | .dataIsLow => Operands.none

end Sys2Proof
end

