-- ==== Sys2Proof/WellFormed.lean ====
section
/-! DEFINITION. When an instruction's operands are operands of this block: every buffer in canonical form (20 R46) and
no buffer of a bus command longer than MAX_LEN (30 R72). -/

namespace Sys2Proof

/-- A buffer's length is within MAX_LEN; every length is, when MAX_LEN is unbounded (R11, R72). -/
def Config.allows (cfg : Config) (b : Buffer) : Bool :=
  match cfg.maxLen with
  | none => true
  | some m => decide (b.len ≤ m)

/-- A buffer that a command may carry. -/
def Buffer.fit (cfg : Config) (b : Buffer) : Bool := b.wf && cfg.allows b

/-- Every operand of the instruction is well formed. -/
def Instr.wf (cfg : Config) : Instr → Bool
  | .read r => r.fit cfg
  | .write w => w.fit cfg
  | .transfer r w => r.fit cfg && w.fit cfg
  | .transferInPlace x => x.fit cfg
  | .flush | .writeByte _ | .readByte | .clkSetHigh | .clkSetLow | .delay => true
  | .dataSetAsOutput | .dataSetAsInput | .dataSetHigh | .dataSetLow | .dataIsHigh | .dataIsLow => true

end Sys2Proof
end

