-- ==== Sys2Proof/Decode.lean ====
section
/-! DEFINITION. Decoding and encoding of the two 8-bit formats (spec 30 R63-R76). Each format is a table of rows with a
mask and a match, as spec/opcode_table.json gives them; the decoder is total on all 256 words of each format. -/

namespace Sys2Proof

/-- A word that names no instruction, by name (R70, R71, R73). -/
inductive DecodeError where
  /-- A reserved CMD word: RSV not 0000, or OP 0x0, 0x6, 0x7, 0xA to 0xF (R71). -/
  | reservedCmd (w : Byte)
  /-- A PIN word for a clock function outside the clock line's output-only capability (R70). -/
  | illegalPin (w : Byte)
  /-- A reserved PIN word: 0x07, 0x0E, 0x0F, or RSV not 0000 (R73). -/
  | reservedPin (w : Byte)
deriving DecidableEq, Repr

/-- One row of the opcode table: the word matches when `word &&& mask = pattern` (R76). -/
structure Row where
  /-- The row's mask, 0xFF in every row. -/
  mask : Byte
  /-- The row's match. -/
  pattern : Byte
  /-- The row's instruction, from the operands that go alongside the word. -/
  build : Operands → Instr

/-- The CMD rows (R65). -/
def cmdRows : List Row :=
  [ ⟨0xFF, 0x01, fun o => .read o.r⟩,
    ⟨0xFF, 0x02, fun o => .write o.w⟩,
    ⟨0xFF, 0x03, fun o => .transfer o.r o.w⟩,
    ⟨0xFF, 0x04, fun o => .transferInPlace o.x⟩,
    ⟨0xFF, 0x05, fun _ => .flush⟩,
    ⟨0xFF, 0x08, fun o => .writeByte o.b⟩,
    ⟨0xFF, 0x09, fun _ => .readByte⟩ ]

/-- The PIN rows (R69). -/
def pinRows : List Row :=
  [ ⟨0xFF, 0x02, fun _ => .clkSetHigh⟩,
    ⟨0xFF, 0x03, fun _ => .clkSetLow⟩,
    ⟨0xFF, 0x06, fun _ => .delay⟩,
    ⟨0xFF, 0x08, fun _ => .dataSetAsOutput⟩,
    ⟨0xFF, 0x09, fun _ => .dataSetAsInput⟩,
    ⟨0xFF, 0x0A, fun _ => .dataSetHigh⟩,
    ⟨0xFF, 0x0B, fun _ => .dataSetLow⟩,
    ⟨0xFF, 0x0C, fun _ => .dataIsHigh⟩,
    ⟨0xFF, 0x0D, fun _ => .dataIsLow⟩ ]

/-- The first row that a word matches; the masks are all 0xFF, so at most one does (R76). -/
def findRow (rows : List Row) (w : Byte) : Option Row :=
  rows.find? (fun r => w &&& r.mask == r.pattern)

/-- The RSV field, bits 7:4 (R64, R68). -/
def fieldRsv (w : Byte) : BitVec 4 := w.extractLsb' 4 4

/-- The pin-select field P of a PIN word, bit 3: `true` is DATA (R68). -/
def fieldP (w : Byte) : Bool := w.getLsbD 3

/-- The function field F of a PIN word, bits 2:0 (R68). -/
def fieldF (w : Byte) : BitVec 3 := w.extractLsb' 0 3

/-- The functions outside the clock line's output-only capability: SET_AS_OUTPUT 0, SET_AS_INPUT 1, IS_HIGH 4, IS_LOW 5
(10 R38, 30 R70). -/
def clkLacks (f : BitVec 3) : Bool := f == 0 || f == 1 || f == 4 || f == 5

/-- The CMD decoder (R76). A buffer presented beside the word that its operation does not have is dropped unread.
DESIGN CHOICE (log 27). -/
def decodeCmd (w : Byte) (o : Operands) : Except DecodeError Instr :=
  match findRow cmdRows w with
  | some r => .ok (r.build o)
  | none => .error (.reservedCmd w)

/-- The PIN decoder (R76), which tells an illegal clock function from a reserved word (R70, R73). -/
def decodePin (w : Byte) : Except DecodeError Instr :=
  match findRow pinRows w with
  | some r => .ok (r.build Operands.none)
  | none =>
    if fieldRsv w == 0 && !fieldP w && clkLacks (fieldF w) then .error (.illegalPin w) else .error (.reservedPin w)

/-- The decoder of either format. -/
def decode (f : Format) (w : Byte) (o : Operands) : Except DecodeError Instr :=
  match f with
  | .cmd => decodeCmd w o
  | .pin => decodePin w

/-- The word of an instruction, in its own format (R65, R69). -/
def encode : Instr → Byte
  | .read _ => 0x01
  | .write _ => 0x02
  | .transfer _ _ => 0x03
  | .transferInPlace _ => 0x04
  | .flush => 0x05
  | .writeByte _ => 0x08
  | .readByte => 0x09
  | .clkSetHigh => 0x02
  | .clkSetLow => 0x03
  | .delay => 0x06
  | .dataSetAsOutput => 0x08
  | .dataSetAsInput => 0x09
  | .dataSetHigh => 0x0A
  | .dataSetLow => 0x0B
  | .dataIsHigh => 0x0C
  | .dataIsLow => 0x0D

/-- The instruction that a word of the opcode table stands for when nothing says its format. A word that is not of 8 bits is
no word (R75) and stands for none. The words 0x02, 0x03, 0x08 and 0x09 name a row in each format. DESIGN CHOICE (log 4),
safe: the CMD format is read first, the PIN format where CMD has no row; the operands alongside are empty. -/
def decodeTableWord (nbits w : Nat) : Option Instr :=
  if nbits == 8 && decide (w < 256) then
    match decodeCmd (BitVec.ofNat 8 w) Operands.none with
    | .ok i => some i
    | .error _ =>
      match decodePin (BitVec.ofNat 8 w) with
      | .ok i => some i
      | .error _ => none
  else none

end Sys2Proof
end

