-- ==== Sys2Proof/Machine/State.lean ====
section
/-! DEFINITION. The state of the engine as plain data, every piece of state the spec names (spec 10 R20-R41), with the
configuration it runs under and what stands outside the block: the consumer's requests and the environment's levels. -/

namespace Sys2Proof.Machine

/-- The electrical direction of DATA (R26). UNSET: the platform's choice, unknown to the block. -/
inductive Dir where
  | unset
  | out
  | inp
deriving DecidableEq, Repr

/-- The output latch of DATA: 0, 1 or UNKNOWN (R27). -/
inductive Latch where
  | low
  | high
  | unknown
deriving DecidableEq, Repr

/-- The latch that holds a level. -/
def Latch.ofLevel : Level → Latch
  | true => .high
  | false => .low

/-- A pin event: the PIN word of the micro-operation, and the level drawn if it samples (R34). -/
structure PinEvent where
  /-- The PIN word (R69). -/
  w : Byte
  /-- The drawn level of a sampling micro-operation, `none` for every other. -/
  lv : Option Level
deriving DecidableEq, Repr

/-- The reasons of the fault state S.fault (R36, R132), each with the PIN word it records. -/
inductive FaultReason where
  /-- A DATA level operation in the wrong mode (R91). Raised by DATA.SET_HIGH, SET_LOW, IS_HIGH and IS_LOW. Safe: the
  source calls the act undefined. -/
  | pinModeViolation (w : Byte)
  /-- A lower-level panic of the pin driver (R81, R134). Raised by any pin micro-operation, not by DELAY, only when
  DRIVER_MAY_PANIC is true. Safe: it allows more behaviours. -/
  | driverPanic (w : Byte)
deriving DecidableEq, Repr

/-- The operation in progress: a bus operation, or a byte primitive run by itself (R31, R65). -/
inductive Op where
  | read
  | write
  | transfer
  | transferInPlace
  | flush
  | writeByte
  | readByte
deriving DecidableEq, Repr

/-- The phases of WRITE_BYTE and READ_BYTE, each naming exactly one micro-operation (R31). -/
inductive Phase where
  | wbDir
  | wbDrive
  | wbSettle
  | wbClkLo
  | wbHoldLo
  | wbClkHi
  | wbHoldHi
  | rbDir
  | rbClkLo
  | rbHoldLo
  | rbClkHi
  | rbHoldHi
  | rbSample
deriving DecidableEq, Repr

/-- A sequencer position within the operation of State.job. R31's tuple (op, stage, i, prim, k, phase) is this with the
job's op and the stage and prim that the phase determines: Machine/Flags.lean. Log 14. -/
structure Pos where
  /-- The index of the byte being moved. -/
  i : Nat
  /-- The bit position. -/
  k : Fin 8
  /-- The phase, whose micro-operation is the next one. -/
  phase : Phase
deriving DecidableEq, Repr

/-- S.seq: IDLE or a position (R31). -/
inductive Seq where
  | idle
  | pos (p : Pos)
deriving DecidableEq, Repr

/-- The operation in progress and the buffers lent to the engine for it (R45, R46, R58). -/
structure Job where
  /-- The operation. -/
  op : Op
  /-- R, filled by the engine. -/
  r : Buffer
  /-- W, read by the engine. -/
  w : Buffer
  /-- X, read and then written at each index. -/
  x : Buffer
deriving DecidableEq, Repr

/-- Nothing in progress and nothing lent. -/
def Job.idle : Job := ⟨.flush, Buffer.empty, Buffer.empty, Buffer.empty⟩

/-- The result of a bus operation (R110). -/
inductive Result where
  | ok
  | errBusFault
deriving DecidableEq, Repr

/-- What the consumer gets back on the completion port (R23, R117). -/
inductive Reply where
  /-- DONE with the Result and, for commands that read, the filled buffer R or X. -/
  | done (res : Result) (r : Option Buffer) (x : Option Buffer)
  /-- The command word was refused (R71, R72): a refusal, not a Result. -/
  | refused (w : Byte)
deriving DecidableEq, Repr

/-- A source of single bits from outside the block: a script, oldest first, and then a free stream, of which `used` bits
are used up. The model's own form of a draw (log 2, log 10). -/
structure Feed where
  /-- The bits given in advance. -/
  script : List Bool
  /-- How many bits of the free stream have been drawn. -/
  used : Nat
deriving DecidableEq, Repr

/-- What is presented to the block, one line at a time (R77, R117): the consumer's commands, its two other moves, and the
lines of a hand-written micro-program (R70, R77; log 5). -/
inductive Request where
  /-- A command word with its operand buffers on the command port (R23). -/
  | command (w : Byte) (o : Operands)
  /-- Drop of the engine (R153). -/
  | drop
  /-- Construction of an engine on the pins (R150). -/
  | construct
  /-- A PIN word of a micro-program. -/
  | micro (w : Byte)
  /-- `write_byte b` of a micro-program. -/
  | writeByte (b : Byte)
  /-- `read_byte` of a micro-program. -/
  | readByte
deriving DecidableEq, Repr

/-- The state of the block. -/
structure State where
  /-- S.clk, the level driven on CLK (R25). -/
  clk : Level
  /-- S.ddir, the direction of DATA (R26). -/
  ddir : Dir
  /-- S.dout, the output latch of DATA (R27). -/
  dout : Latch
  /-- S.busy (R35). -/
  busy : Bool
  /-- S.seq, the sequencer position (R31). -/
  seq : Seq
  /-- S.tx, the byte being written (R32). -/
  tx : Byte
  /-- S.rx, the accumulator of the byte being read (R32). -/
  rx : Byte
  /-- S.k, the current bit position (R32). -/
  k : Fin 8
  /-- S.dcnt, the iterations left of the delay in progress (R33). -/
  dcnt : Nat
  /-- S.trace, the pin events, oldest first (R34). -/
  trace : List PinEvent
  /-- S.fault (R36). -/
  fault : Option FaultReason
  /-- The operation in progress with the buffers lent for it (R31, R45, R58). -/
  job : Job
  /-- The Boolean the last DATA.IS_HIGH or DATA.IS_LOW returned (R86, R87). Log 7. -/
  ret : Bool
  /-- Whether the engine exists: from construction to drop (R43, R153). -/
  live : Bool
  /-- The configuration, written by no step (R37). -/
  cfg : Config
  /-- The environment: the levels of the coming draws of `DataIn()` (R15, R17, R92). Log 2. -/
  samples : Feed
  /-- The pin driver: whether the coming pin micro-operations panic (R81, R134). Log 10. -/
  panics : Feed
  /-- The consumer: what it presents next, in order (R17, R56). Log 3. -/
  program : List Request
  /-- The completion port: what the consumer was given back, oldest first (R23, R117). -/
  replies : List Reply
deriving DecidableEq, Repr

/-- Why a step stops with no next state. -/
inductive Fault where
  /-- The engine is in its fault state and takes no step (R36, R80). Raised by every step and meaning of a faulted
  engine. Safe: the spec's own stuck state. -/
  | engineFaulted (r : FaultReason)
  /-- A CMD instruction while a command or a primitive is in progress: no such move exists (R117, 93 U17). Raised by the
  meanings of the CMD instructions; no step reaches it. Safe: log 19. -/
  | commandWhileBusy
  /-- A request to an engine that was dropped: no such move exists (R43, R153). Raised by every instruction and request
  but construction. Safe: log 18. -/
  | noEngine
  /-- A construction while an engine owns the pins: no such move exists (R44, R156). Raised by construction. Safe:
  log 18. -/
  | pinsOwned
deriving DecidableEq, Repr

/-- What a step refuses to give a meaning to. -/
inductive Refusal where
  /-- An instruction with no meaning yet. Raised by no arm of exec. Safe. -/
  | notModelled (mnemonic : String)
  /-- A PIN word of a micro-program outside the clock line's capability (R70). Raised by the micro-program lines. Safe. -/
  | illegalPinWord (w : Byte)
  /-- A reserved PIN word of a micro-program (R73). Raised by the micro-program lines. Safe. -/
  | reservedPinWord (w : Byte)
  /-- An access to a buffer index that the operation never generates (R47). Raised by the sequencer in states that no
  operation reaches. Safe: log 21. -/
  | bufferIndex (i : Nat)
deriving DecidableEq, Repr

/-- The machine right after construction (R40, R150), with nothing presented to it yet. tx, rx and k: DESIGN CHOICE zero
(log 6); ret: DESIGN CHOICE false (log 7); the configuration: log 9. -/
def State.reset : State where
  clk := true
  ddir := .unset
  dout := .unknown
  busy := false
  seq := .idle
  tx := 0
  rx := 0
  k := 0
  dcnt := 0
  trace := [⟨0x02, none⟩]
  fault := none
  job := Job.idle
  ret := false
  live := true
  cfg := ⟨Config.delayItersOpen, none, false⟩
  samples := ⟨[], 0⟩
  panics := ⟨[], 0⟩
  program := []
  replies := []

end Sys2Proof.Machine
end

