-- ==== Sys2Proof/Machine/Ops.lean ====
section
/-! DEFINITION. The named operations over buffers, draws, the trace and the fault state. -/

namespace Sys2Proof

/-- The byte at an index; an unlisted index holds 0 (log 8). -/
def Memory.read : Memory → Nat → Byte
  | [], _ => 0
  | c :: rest, a => if c.1 = a then c.2 else Memory.read rest a

/-- A byte stored at an index, in canonical form: a 0 is unlisted. -/
def Memory.write : Memory → Nat → Byte → Memory
  | [], a, v => if v = 0 then [] else [(a, v)]
  | c :: rest, a, v =>
    if a < c.1 then (if v = 0 then c :: rest else (a, v) :: c :: rest)
    else if c.1 = a then (if v = 0 then rest else (a, v) :: rest)
    else c :: Memory.write rest a v

/-- `MemRead(B, i, 1)`; no value outside the buffer (R47). -/
def Buffer.read (b : Buffer) (i : Nat) : Option Byte :=
  if i < b.len then some (b.cells.read i) else none

/-- `MemWrite(B, i, 1, v)`; no buffer outside the length (R47). -/
def Buffer.write (b : Buffer) (i : Nat) (v : Byte) : Option Buffer :=
  if i < b.len then some { b with cells := b.cells.write i v } else none

/-- The cells of a sequence of bytes whose first byte has index `i`. -/
def Memory.ofBytes : Nat → List Byte → Memory
  | _, [] => []
  | i, v :: rest => if v = 0 then Memory.ofBytes (i + 1) rest else (i, v) :: Memory.ofBytes (i + 1) rest

/-- The buffer of a sequence of bytes (R46). -/
def Buffer.ofBytes (l : List Byte) : Buffer := ⟨l.length, Memory.ofBytes 0 l⟩

/-- The sequence of bytes of a buffer (R46). -/
def Buffer.toBytes (b : Buffer) : List Byte := (List.range b.len).map b.cells.read

/-- A buffer of `n` bytes to be filled, as `read n` lends it (R66, R77). -/
def Buffer.blank (n : Nat) : Buffer := ⟨n, []⟩

end Sys2Proof

namespace Sys2Proof.Machine

/-- The outcome of a step of this machine. -/
abbrev Out := Host.Outcome State Fault Refusal

/-- The j-th coming bit of a feed, counted from 0. -/
def Feed.bit (free : Nat → Bool) (f : Feed) (j : Nat) : Bool :=
  if h : j < f.script.length then f.script[j] else free (f.used + (j - f.script.length))

/-- A feed with `n` more bits drawn. -/
def Feed.skip (f : Feed) (n : Nat) : Feed := ⟨f.script.drop n, f.used + (n - f.script.length)⟩

/-- `v <- DataIn()`: the level of this draw (R15, R92). -/
def State.dataIn (s : State) : Level := s.samples.bit Config.freeLevel 0

/-- The state after one draw of `DataIn()`. -/
def State.drawn (s : State) : State := { s with samples := s.samples.skip 1 }

/-- Whether the pin driver panics at this pin micro-operation, when panics are admitted (R81). -/
def State.panicNow (s : State) : Bool := s.panics.bit Config.freePanic 0

/-- The state after the driver's choice. -/
def State.panicDrawn (s : State) : State := { s with panics := s.panics.skip 1 }

/-- `Emit(e)`: append a pin event to the trace (R15, R34). -/
def State.emit (s : State) (w : Byte) (lv : Option Level) : State := { s with trace := s.trace ++ [⟨w, lv⟩] }

/-- `raise`: enter the fault state. Nothing else is written, no event appended, the sequencer stays where it is (R132,
R138). This is the machine's whole taking of an exception; there is no return from one (R139). -/
def State.raise (s : State) (r : FaultReason) : State := { s with fault := some r }

/-- What an engine that exists and has no fault does; a faulted or dropped engine takes no step (R36, R80, R153). -/
def whenRunning (s : State) (act : State → Out) : Out :=
  match s.fault with
  | some r => .fault (.engineFaulted r)
  | none => if s.live then act s else .fault .noEngine

/-- A pin micro-operation with PIN word `w`: where panics are admitted the driver may panic first, before any state change
of the micro-operation (R81, R134, R137). -/
def pinOp (w : Byte) (s : State) (act : State → Out) : Out :=
  whenRunning s fun s =>
    if s.cfg.driverMayPanic then
      (if s.panicNow then .next (s.panicDrawn.raise (.driverPanic w)) else act s.panicDrawn)
    else act s

/-- A DATA level operation, which the mode must allow: in another mode, UNSET included, it raises PinModeViolation (R91). -/
def inMode (d : Dir) (w : Byte) (s : State) (act : State → Out) : Out :=
  if s.ddir = d then act s else .next (s.raise (.pinModeViolation w))

/-- One micro-operation after another: nothing more happens once a fault is set (R80, R132). -/
def andThen (o : Out) (act : State → Out) : Out :=
  match o with
  | .next s => if s.fault.isSome then .next s else act s
  | .fault r => .fault r
  | .refused r => .refused r

end Sys2Proof.Machine
end

