-- ==== Sys2Proof/Machine/Operands.lean ====
section
/-! DEFINITION. The operands of the instructions: the bits of a byte (spec 00 R14, 41 R108), which buffer a byte comes from
or goes to (20 R45, 42 R111-R114), and the length limit of the command port (30 R72). -/

namespace Sys2Proof.Machine

/-- `b[k] = (b >> k) & 1` (R14). -/
def byteBit (b : Byte) (k : Fin 8) : Level := b.getLsbD k.val

/-- `b | (1 << k)` (R108). -/
def orBit (b : Byte) (k : Fin 8) : Byte := b ||| ((1 : Byte) <<< k.val)

/-- A sampled level goes into a byte: OR of `1 << k` when it is high, the byte as it was when it is low (R101, R108). -/
def orLevel (b : Byte) (k : Fin 8) (v : Level) : Byte := if v then orBit b k else b

/-- The operation and the lent buffers of a CMD instruction; no micro-operation is one (R65, R67). WRITE_BYTE by itself
takes its byte from a W of one byte, as within WRITE (R74, R96). -/
def jobOf : Instr → Option Job
  | .read r => some { Job.idle with op := .read, r := r }
  | .write w => some { Job.idle with op := .write, w := w }
  | .transfer r w => some { Job.idle with op := .transfer, r := r, w := w }
  | .transferInPlace x => some { Job.idle with op := .transferInPlace, x := x }
  | .flush => some { Job.idle with op := .flush }
  | .writeByte b => some { Job.idle with op := .writeByte, w := Buffer.ofBytes [b] }
  | .readByte => some { Job.idle with op := .readByte }
  | .clkSetHigh | .clkSetLow | .delay | .dataSetAsOutput | .dataSetAsInput => none
  | .dataSetHigh | .dataSetLow | .dataIsHigh | .dataIsLow => none

/-- The internal primitives, which the command port refuses (R67, R71). -/
def Op.internal : Op → Bool
  | .writeByte | .readByte => true
  | .read | .write | .transfer | .transferInPlace | .flush => false

/-- An operation is in progress: a command, which S.busy marks (R35), or a primitive that a micro-program runs by itself,
which S.busy does not mark. Log 5. -/
def State.active (s : State) : Bool := s.busy || s.job.op.internal

/-- The command port takes the operation: no buffer of it is longer than MAX_LEN (R72). -/
def Job.fits (cfg : Config) (j : Job) : Bool := cfg.allows j.r && cfg.allows j.w && cfg.allows j.x

/-- The byte that the WRITE_BYTE of index `i` sends: `MemRead` of W or X (R97, R112-R114). -/
def Job.source (j : Job) (i : Nat) : Option Byte :=
  match j.op with
  | .write | .transfer | .writeByte => j.w.read i
  | .transferInPlace => j.x.read i
  | .read | .flush | .readByte => none

/-- The job after the READ_BYTE of index `i` gave the byte `v`: `MemWrite` to R or X (R111, R113, R114). A READ_BYTE by
itself returns its byte in S.rx and stores nothing (R100, R101). -/
def Job.store (j : Job) (i : Nat) (v : Byte) : Option Job :=
  match j.op with
  | .read | .transfer => (j.r.write i v).map fun r => { j with r := r }
  | .transferInPlace => (j.x.write i v).map fun x => { j with x := x }
  | .readByte => some j
  | .write | .flush | .writeByte => none

/-- What the completion port gives: DONE with `Ok` and the buffer R or X; a primitive has no completion port (R23, R110,
R117). -/
def Job.reply (j : Job) : Option Reply :=
  match j.op with
  | .read | .transfer => some (.done .ok (some j.r) none)
  | .transferInPlace => some (.done .ok none (some j.x))
  | .write | .flush => some (.done .ok none none)
  | .writeByte | .readByte => none

/-- How many micro-operations the operation performs (R107, R119). -/
def Job.microCount (j : Job) : Nat :=
  match j.op with
  | .read => 41 * j.r.len
  | .write => 49 * j.w.len
  | .transfer => 49 * j.w.len + 41 * j.r.len
  | .transferInPlace => 90 * j.x.len
  | .flush => 0
  | .writeByte => 49
  | .readByte => 41

end Sys2Proof.Machine
end

