-- ==== Sys2Proof/Machine/Flags.lean ====
section
/-! DEFINITION. The block has no condition flags (spec 10 R30); this file holds its only status: the ports (R21, R22), the
level on the wire (R28), the PINS view (R29), the full tuple of the sequencer (R31) and the codes of results and faults
(42 R110, 60 R132). All are views: no instruction reads or writes one. -/

namespace Sys2Proof.Machine

/-- CLK_O carries S.clk (R21). -/
def State.clkO (s : State) : Level := s.clk

/-- DATA_OE: 1 when the direction is OUT, 0 when it is IN, unknown when it is UNSET (R22). -/
def State.dataOE (s : State) : Option Level :=
  match s.ddir with
  | .out => some true
  | .inp => some false
  | .unset => none

/-- DATA_O carries S.dout (R22). -/
def State.dataO (s : State) : Latch := s.dout

/-- What decides the level on the DATA wire (R28). -/
inductive Wire where
  /-- The block drives this level. -/
  | driven (v : Level)
  /-- The block drives its UNKNOWN latch. -/
  | drivenUnknown
  /-- The environment drives the wire, or it floats: no pull resistor is engaged (R22, R83). -/
  | environment
  /-- The direction is UNSET: the level is unknown. -/
  | unknown
deriving DecidableEq, Repr

/-- The DATA wire (R28). -/
def State.wire (s : State) : Wire :=
  match s.ddir, s.dout with
  | .out, .high => .driven true
  | .out, .low => .driven false
  | .out, .unknown => .drivenUnknown
  | .inp, _ => .environment
  | .unset, _ => .unknown

/-- The PINS status view (R29): bit 0 CLK, 1 DATA_OE, 2 DATA_O, 3 DDIR_KNOWN, 4 DOUT_KNOWN, 5 BUSY, 6 FAULT, 7 reads 0. -/
def State.pins (s : State) : BitVec 8 :=
  BitVec.ofBool false ++ BitVec.ofBool s.fault.isSome ++ BitVec.ofBool s.busy ++
    BitVec.ofBool (s.dout != .unknown) ++ BitVec.ofBool (s.ddir != .unset) ++
    BitVec.ofBool (s.dout == .high) ++ BitVec.ofBool (s.ddir == .out) ++ BitVec.ofBool s.clk

/-- The byte primitive a phase belongs to: WB or RB (R31). -/
inductive Prim where
  | wb
  | rb
deriving DecidableEq, Repr

/-- The primitive of a phase (R31). -/
def Phase.prim : Phase → Prim
  | .wbDir | .wbDrive | .wbSettle | .wbClkLo | .wbHoldLo | .wbClkHi | .wbHoldHi => .wb
  | .rbDir | .rbClkLo | .rbHoldLo | .rbClkHi | .rbHoldHi | .rbSample => .rb

/-- The stage of a TRANSFER, W or R (R31). -/
inductive Stage where
  | w
  | r
deriving DecidableEq, Repr

/-- R31's tuple (op, stage, i, prim, k, phase), or nothing when S.seq is IDLE. The stage is unused outside TRANSFER. -/
def State.seqTuple (s : State) : Option (Op × Option Stage × Nat × Prim × Fin 8 × Phase) :=
  match s.seq with
  | .idle => none
  | .pos p =>
    let stage := if s.job.op = .transfer then some (match p.phase.prim with | .wb => Stage.w | .rb => Stage.r) else none
    some (s.job.op, stage, p.i, p.phase.prim, p.k, p.phase)

/-- The code of a Result: `Ok` 0, `Err(BusFault)` 1 (R110). -/
def Result.code : Result → Nat
  | .ok => 0
  | .errBusFault => 1

/-- The code of a fault reason: PinModeViolation 1, DriverPanic 2 (R132). -/
def FaultReason.code : FaultReason → Nat
  | .pinModeViolation _ => 1
  | .driverPanic _ => 2

end Sys2Proof.Machine
end

