-- ==== Sys2Proof/Machine/Pin.lean ====
section
/-! DEFINITION. The pin micro-operations and the delay (spec 40 R80-R93): one atomic step each, one event each. -/

namespace Sys2Proof.Machine

/-- CLK.SET_HIGH (R88). -/
def execClkSetHigh (s : State) : Out :=
  pinOp (encode .clkSetHigh) s fun s => .next ({ s with clk := true }.emit (encode .clkSetHigh) none)

/-- CLK.SET_LOW (R89). -/
def execClkSetLow (s : State) : Out :=
  pinOp (encode .clkSetLow) s fun s => .next ({ s with clk := false }.emit (encode .clkSetLow) none)

/-- The loop of DELAY: the counter goes from `n` down by one a spin and ends at its last value, 0 (R93). -/
def spin : Nat → Nat
  | 0 => 0
  | n + 1 => spin n

/-- The values that the delay counter takes in a DELAY of `n` iterations, in order (R93). -/
def spinValues : Nat → List Nat
  | 0 => [0]
  | n + 1 => (n + 1) :: spinValues n

/-- DELAY (R93): one atomic step (R16) that touches no pin and cannot panic. Log 16. -/
def execDelay (s : State) : Out :=
  whenRunning s fun s => .next ({ s with dcnt := spin s.cfg.delayIters }.emit (encode .delay) none)

/-- DATA.SET_AS_OUTPUT (R82): from another direction the latch becomes UNKNOWN. -/
def execDataSetAsOutput (s : State) : Out :=
  pinOp (encode .dataSetAsOutput) s fun s =>
    .next ({ s with ddir := .out, dout := if s.ddir = Dir.out then s.dout else .unknown }.emit
      (encode .dataSetAsOutput) none)

/-- DATA.SET_AS_INPUT (R83): the latch is kept. -/
def execDataSetAsInput (s : State) : Out :=
  pinOp (encode .dataSetAsInput) s fun s => .next ({ s with ddir := .inp }.emit (encode .dataSetAsInput) none)

/-- DATA.SET_HIGH (R84), in output mode only. -/
def execDataSetHigh (s : State) : Out :=
  pinOp (encode .dataSetHigh) s fun s => inMode .out (encode .dataSetHigh) s fun s =>
    .next ({ s with dout := .high }.emit (encode .dataSetHigh) none)

/-- DATA.SET_LOW (R85), in output mode only. -/
def execDataSetLow (s : State) : Out :=
  pinOp (encode .dataSetLow) s fun s => inMode .out (encode .dataSetLow) s fun s =>
    .next ({ s with dout := .low }.emit (encode .dataSetLow) none)

/-- DATA.IS_HIGH (R86), in input mode only: one draw, and the Boolean `lv == 1` in State.ret (log 7). -/
def execDataIsHigh (s : State) : Out :=
  pinOp (encode .dataIsHigh) s fun s => inMode .inp (encode .dataIsHigh) s fun s =>
    .next ({ s.drawn with ret := s.dataIn }.emit (encode .dataIsHigh) (some s.dataIn))

/-- DATA.IS_LOW (R87), in input mode only: one draw, negated. -/
def execDataIsLow (s : State) : Out :=
  pinOp (encode .dataIsLow) s fun s => inMode .inp (encode .dataIsLow) s fun s =>
    .next ({ s.drawn with ret := !s.dataIn }.emit (encode .dataIsLow) (some s.dataIn))

end Sys2Proof.Machine
end

