-- ==== Sys2Proof/Machine/Sequencer.lean ====
section
/-! DEFINITION. The sequencer: the order in which the byte primitives and bus operations perform their micro-operations
(spec 10 R31; 41 R97, R101; 42 R111-R117). One `tick` is one micro-operation, or the completion of the operation. -/

namespace Sys2Proof.Machine

/-- The first position of the WRITE_BYTE of index `i` (R97). -/
def startWrite (i : Nat) : Seq := .pos ⟨i, 7, .wbDir⟩

/-- The first position of the READ_BYTE of index `i` (R101). -/
def startRead (i : Nat) : Seq := .pos ⟨i, 7, .rbDir⟩

/-- The WRITE_BYTE of index `i` in a loop over `n` bytes, and what follows the loop (R112-R114). -/
def writeFrom (n i : Nat) (after : Seq) : Seq := if i < n then startWrite i else after

/-- The READ_BYTE of index `i` in a loop over `n` bytes; the operation ends with the loop (R111, R113). -/
def readFrom (n i : Nat) : Seq := if i < n then startRead i else .idle

/-- Where an operation starts; IDLE when it has no micro-operation (R116, R117). -/
def Job.start (j : Job) : Seq :=
  match j.op with
  | .read => readFrom j.r.len 0
  | .write => writeFrom j.w.len 0 .idle
  | .transfer => writeFrom j.w.len 0 (readFrom j.r.len 0)
  | .transferInPlace => writeFrom j.x.len 0 .idle
  | .flush => .idle
  | .writeByte => startWrite 0
  | .readByte => startRead 0

/-- Where an operation goes on after the WRITE_BYTE of index `i` (R112-R114). -/
def Job.afterWrite (j : Job) (i : Nat) : Seq :=
  match j.op with
  | .write => writeFrom j.w.len (i + 1) .idle
  | .transfer => writeFrom j.w.len (i + 1) (readFrom j.r.len 0)
  | .transferInPlace => startRead i
  | .read | .flush | .writeByte | .readByte => .idle

/-- Where an operation goes on after the READ_BYTE of index `i` (R111, R113, R114). -/
def Job.afterRead (j : Job) (i : Nat) : Seq :=
  match j.op with
  | .read | .transfer => readFrom j.r.len (i + 1)
  | .transferInPlace => writeFrom j.x.len (i + 1) .idle
  | .write | .flush | .writeByte | .readByte => .idle

/-- The position after a phase's micro-operation: the order of R97 and R101, bit 7 down to bit 0. -/
def Job.nextSeq (j : Job) (p : Pos) : Seq :=
  match p.phase with
  | .wbDir => .pos { p with k := 7, phase := .wbDrive }
  | .wbDrive => .pos { p with phase := .wbSettle }
  | .wbSettle => .pos { p with phase := .wbClkLo }
  | .wbClkLo => .pos { p with phase := .wbHoldLo }
  | .wbHoldLo => .pos { p with phase := .wbClkHi }
  | .wbClkHi => .pos { p with phase := .wbHoldHi }
  | .wbHoldHi => if p.k = 0 then j.afterWrite p.i else .pos { p with k := p.k - 1, phase := .wbDrive }
  | .rbDir => .pos { p with k := 7, phase := .rbClkLo }
  | .rbClkLo => .pos { p with phase := .rbHoldLo }
  | .rbHoldLo => .pos { p with phase := .rbClkHi }
  | .rbClkHi => .pos { p with phase := .rbHoldHi }
  | .rbHoldHi => .pos { p with phase := .rbSample }
  | .rbSample => if p.k = 0 then j.afterRead p.i else .pos { p with k := p.k - 1, phase := .rbClkLo }

/-- The micro-operation that a phase names (R31). -/
def phaseInstr (p : Pos) (s : State) : Instr :=
  match p.phase with
  | .wbDir => .dataSetAsOutput
  | .wbDrive => if byteBit s.tx p.k then .dataSetHigh else .dataSetLow
  | .wbSettle | .wbHoldLo | .wbHoldHi | .rbHoldLo | .rbHoldHi => .delay
  | .wbClkLo | .rbClkLo => .clkSetLow
  | .wbClkHi | .rbClkHi => .clkSetHigh
  | .rbDir => .dataSetAsInput
  | .rbSample => .dataIsHigh

/-- The sequencer moves on from a position. -/
def State.advance (s : State) (p : Pos) : State := { s with seq := s.job.nextSeq p }

/-- DATA is driven to a bit: DATA.SET_HIGH or DATA.SET_LOW (R97). -/
def driveBit (v : Level) (s : State) : Out := if v then execDataSetHigh s else execDataSetLow s

/-- `if DATA.IS_HIGH: S.rx <- S.rx | (1 << k)`, after the sample (R101). -/
def State.accumulate (s : State) (k : Fin 8) : State := { s with rx := orLevel s.rx k s.ret }

/-- After a sample's bit is in S.rx: the eighth one stores the byte at R[i] or X[i] (R51, R111, R113, R114). -/
def finishSample (p : Pos) (s : State) : Out :=
  if p.k = 0 then
    match s.job.store p.i s.rx with
    | some j => .next ({ s with job := j }.advance p)
    | none => .refused (.bufferIndex p.i)
  else .next (s.advance p)

/-- The start of a WRITE_BYTE: `S.tx <- b`, then DATA.SET_AS_OUTPUT (R97). -/
def beginWrite (p : Pos) (s : State) : Out :=
  match s.job.source p.i with
  | some b => andThen (execDataSetAsOutput { s with tx := b }) fun s => .next (s.advance p)
  | none => .refused (.bufferIndex p.i)

/-- The micro-operation of a position, with the register transfers of R97 and R101 around it. -/
def runPhase (p : Pos) (s : State) : Out :=
  match p.phase with
  | .wbDir => beginWrite p s
  | .wbDrive => andThen (driveBit (byteBit s.tx p.k) { s with k := p.k }) fun s => .next (s.advance p)
  | .wbSettle => andThen (execDelay s) fun s => .next (s.advance p)
  | .wbClkLo => andThen (execClkSetLow s) fun s => .next (s.advance p)
  | .wbHoldLo => andThen (execDelay s) fun s => .next (s.advance p)
  | .wbClkHi => andThen (execClkSetHigh s) fun s => .next (s.advance p)
  | .wbHoldHi => andThen (execDelay s) fun s => .next (s.advance p)
  | .rbDir => andThen (execDataSetAsInput s) fun s => .next ({ s with rx := 0 }.advance p)
  | .rbClkLo => andThen (execClkSetLow { s with k := p.k }) fun s => .next (s.advance p)
  | .rbHoldLo => andThen (execDelay s) fun s => .next (s.advance p)
  | .rbClkHi => andThen (execClkSetHigh s) fun s => .next (s.advance p)
  | .rbHoldHi => andThen (execDelay s) fun s => .next (s.advance p)
  | .rbSample => andThen (execDataIsHigh s) fun s => finishSample p (s.accumulate p.k)

/-- Issue of an operation (R117): at its first phase, its buffers lent, and busy when it is a command (R35); a primitive by
itself is none. Log 5. -/
def State.issue (s : State) (j : Job) : State := { s with busy := !j.op.internal, seq := j.start, job := j }

/-- Completion of the operation (R117): DONE with the Result and the buffer R or X, which go back to the consumer; a
primitive by itself ends with no reply. -/
def State.complete (s : State) : State :=
  { s with busy := false, seq := .idle, job := Job.idle, replies := s.replies ++ s.job.reply.toList }

/-- Refusal of a command word (R71, R72, R117): no state change, a refusal recorded. -/
def State.refuse (s : State) (w : Byte) : State := { s with replies := s.replies ++ [.refused w] }

/-- One step of an engine with an operation in progress (R117): the next micro-operation, or completion when the last one is
done. -/
def tick (s : State) : Out :=
  match s.seq with
  | .idle => .next s.complete
  | .pos p => runPhase p s

/-- At most `n` steps of an operation in progress, to completion or to a fault (R16, R95, R118). -/
def runJob : Nat → State → Out
  | 0, s => .next s
  | n + 1, s =>
    match tick s with
    | .next s' => if s'.active && s'.fault.isNone then runJob n s' else .next s'
    | .fault r => .fault r
    | .refused r => .refused r

/-- An operation as one transition (R16): issue, every micro-operation, completion. An engine in use has no such move
(93 U17). -/
def runOp (j : Job) (s : State) : Out :=
  whenRunning s fun s => if s.active then .fault .commandWhileBusy else runJob (j.microCount + 1) (s.issue j)

/-- A bus operation presented with the command word `w`: refused if a buffer is longer than MAX_LEN (R72). -/
def runCommand (w : Byte) (j : Job) (s : State) : Out :=
  whenRunning s fun s =>
    if s.active then .fault .commandWhileBusy
    else if j.fits s.cfg then runOp j s else .next (s.refuse w)

end Sys2Proof.Machine
end

