-- ==== Sys2Proof/Machine/Bus.lean ====
section
/-! DEFINITION. The five bus operations as the consumer sees them: one indivisible transition each (spec 00 R16; 42
R110-R125). -/

namespace Sys2Proof.Machine

/-- READ R (R111). -/
def execRead (r : Buffer) (s : State) : Out :=
  runCommand (encode (.read r)) { Job.idle with op := .read, r := r } s

/-- WRITE W (R112). -/
def execWrite (w : Buffer) (s : State) : Out :=
  runCommand (encode (.write w)) { Job.idle with op := .write, w := w } s

/-- TRANSFER R, W (R113). -/
def execTransfer (r w : Buffer) (s : State) : Out :=
  runCommand (encode (.transfer r w)) { Job.idle with op := .transfer, r := r, w := w } s

/-- TRANSFER_IN_PLACE X (R114). -/
def execTransferInPlace (x : Buffer) (s : State) : Out :=
  runCommand (encode (.transferInPlace x)) { Job.idle with op := .transferInPlace, x := x } s

/-- FLUSH (R115). -/
def execFlush (s : State) : Out := runCommand (encode .flush) { Job.idle with op := .flush } s

end Sys2Proof.Machine
end

