-- ==== Sys2Proof/Machine/Primitive.lean ====
section
/-! DEFINITION. The byte primitives run by themselves (spec 41 R95-R109): internal, used by the bus operations through the
sequencer and by hand-written micro-programs. -/

namespace Sys2Proof.Machine

/-- WRITE_BYTE b (R97). -/
def execWriteByte (b : Byte) (s : State) : Out :=
  runOp { Job.idle with op := .writeByte, w := Buffer.ofBytes [b] } s

/-- READ_BYTE (R101): the byte it returns stands in S.rx. -/
def execReadByte (s : State) : Out := runOp { Job.idle with op := .readByte } s

end Sys2Proof.Machine
end

