-- ==== Sys2Proof/Machine/Dispatch.lean ====
section
/-! DEFINITION. One arm per instruction. -/

namespace Sys2Proof.Machine

def exec (i : Instr) (s : State) : Host.Outcome State Fault Refusal :=
  match i with
  | .read r => Sys2Proof.Machine.execRead r s
  | .write w => Sys2Proof.Machine.execWrite w s
  | .transfer r w => Sys2Proof.Machine.execTransfer r w s
  | .transferInPlace x => Sys2Proof.Machine.execTransferInPlace x s
  | .flush => Sys2Proof.Machine.execFlush s
  | .writeByte b => Sys2Proof.Machine.execWriteByte b s
  | .readByte => Sys2Proof.Machine.execReadByte s
  | .clkSetHigh => Sys2Proof.Machine.execClkSetHigh s
  | .clkSetLow => Sys2Proof.Machine.execClkSetLow s
  | .delay => Sys2Proof.Machine.execDelay s
  | .dataSetAsOutput => Sys2Proof.Machine.execDataSetAsOutput s
  | .dataSetAsInput => Sys2Proof.Machine.execDataSetAsInput s
  | .dataSetHigh => Sys2Proof.Machine.execDataSetHigh s
  | .dataSetLow => Sys2Proof.Machine.execDataSetLow s
  | .dataIsHigh => Sys2Proof.Machine.execDataIsHigh s
  | .dataIsLow => Sys2Proof.Machine.execDataIsLow s

end Sys2Proof.Machine
end

