-- ==== Sys2Proof/Machine/Consumer.lean ====
section
/-! DEFINITION. What an idle engine does with the next request (spec 42 R117; 70 R150, R153): the command port, drop,
construction, and the lines of a hand-written micro-program. -/

namespace Sys2Proof.Machine

/-- The blank engine that construction starts from: every field of the engine at its reset value but S.clk, which is as
the platform left it, and nothing in the trace (R150, R40). The outside of the block stays. -/
def State.blank (s : State) : State :=
  { State.reset with
    clk := s.clk
    trace := []
    cfg := s.cfg
    samples := s.samples
    panics := s.panics
    program := s.program
    replies := s.replies }

/-- Construction (R150): a blank engine performs CLK.SET_HIGH. An engine that owns the pins leaves none to construct on
(R44, R156). -/
def construct (s : State) : Out := if s.live then .fault .pinsOwned else execClkSetHigh s.blank

/-- Drop of an idle engine (R153): no micro-operation, the pins stay as they are. Log 18. -/
def State.dropped (s : State) : State := { s with live := false }

/-- Issue at the command port (R117): reserved and internal words and over-long buffers are refused (R71, R72). -/
def issueCommand (w : Byte) (o : Operands) (s : State) : Out :=
  match decodeCmd w o with
  | .error _ => .next (s.refuse w)
  | .ok i =>
    match jobOf i with
    | none => .next (s.refuse w)
    | some j => if j.op.internal || !j.fits s.cfg then .next (s.refuse w) else .next (s.issue j)

/-- A PIN word of a micro-program: its micro-operation, or a refusal by name (R70, R73). -/
def runMicro (w : Byte) (s : State) : Out :=
  match decodePin w with
  | .ok i => exec i s
  | .error (.illegalPin v) => .refused (.illegalPinWord v)
  | .error (.reservedPin v) => .refused (.reservedPinWord v)
  | .error (.reservedCmd v) => .refused (.reservedPinWord v)

/-- One request to an idle engine. A primitive of a micro-program is issued like an operation, with S.busy 0
(R35; log 5). -/
def serveRequest (q : Request) (s : State) : Out :=
  match q with
  | .construct => construct s
  | .drop => whenRunning s fun s => .next s.dropped
  | .command w o => whenRunning s (issueCommand w o)
  | .micro w => whenRunning s (runMicro w)
  | .writeByte b =>
    whenRunning s fun s => .next (s.issue { Job.idle with op := .writeByte, w := Buffer.ofBytes [b] })
  | .readByte => whenRunning s fun s => .next (s.issue { Job.idle with op := .readByte })

/-- An idle engine takes the consumer's next request; with none presented it waits (R151). -/
def serve (s : State) : Out :=
  match s.program with
  | [] => .next s
  | q :: rest => serveRequest q { s with program := rest }

/-- One step of the machine: nothing for a faulted engine (R80), the next micro-operation or completion for one with an
operation in progress, the next request for an idle one (R117). -/
def stepOnce (s : State) : Out :=
  match s.fault with
  | some r => .fault (.engineFaulted r)
  | none => if s.active then tick s else serve s

/-- The request that makes an idle engine run the instruction a table word stands for: CMD operations go on the command
port, primitives and micro-operations are lines of a micro-program (log 4, log 5). An 8-bit word that stands for none goes on
the command port, which refuses it (R71). A word of another length does not exist (R75): DESIGN CHOICE (log 26), the reserved
word 0x00 stands for it on the command port, and is refused. -/
def fetchRequest (nbits w : Nat) : Request :=
  match decodeTableWord nbits w with
  | none => .command (if nbits == 8 && decide (w < 256) then BitVec.ofNat 8 w else 0x00) Operands.none
  | some i =>
    match i with
    | .writeByte b => .writeByte b
    | .readByte => .readByte
    | i => match i.format with
      | .cmd => .command (encode i) i.operands
      | .pin => .micro (encode i)

/-- An engine that exists, is idle and has no fault, about to take the request `q` (log 3). -/
def State.presenting (s : State) (q : Request) : State :=
  { s with live := true, fault := none, busy := false, seq := .idle, job := Job.idle, program := q :: s.program }

end Sys2Proof.Machine
end

