-- ==== Sys2Proof/Machine/Step.lean ====
section
/-! DEFINITION. One step of the machine (spec 00 R16; 42 R117), and an instruction placed where the step takes its next
one. -/

namespace Sys2Proof.Machine

/-- One step. -/
def step (s : State) : Host.Outcome State Fault Refusal := stepOnce s

/-- `s` with the instruction of a table word presented to the idle engine as its next request (log 3, log 4). -/
def State.withFetchWord (s : State) (nbits w : Nat) : State := s.presenting (fetchRequest nbits w)

end Sys2Proof.Machine
end

