-- ==== Sys2Proof/Machine/Assembler.lean ====
section
/-! DEFINITION. The command syntax and the pseudo-instructions of the spec (30 R77, R78): a program's text as the requests
it presents. Text is a list of characters. -/

namespace Sys2Proof.Machine

/-- One line of a program (R77, R78). -/
inductive Line where
  | reset
  | read (n : Nat)
  | write (l : List Byte)
  | transfer (n : Nat) (l : List Byte)
  | transferInPlace (l : List Byte)
  | flush
  | pin (w : Byte)
  | writeByte (b : Byte)
  | readByte
  | nop
  | wr8 (b : Byte)
  | rd8
  | xfer8 (b : Byte)
deriving DecidableEq, Repr

/-- A pseudo-instruction's expansion; every other line is its own (R78). -/
def Line.expand : Line → Line
  | .nop => .flush
  | .wr8 b => .write [b]
  | .rd8 => .read 1
  | .xfer8 b => .transferInPlace [b]
  | l => l

/-- The request of a line that is no pseudo-instruction (R77). -/
def Line.basicRequest : Line → Request
  | .reset => .construct
  | .read n => .command 0x01 { Operands.none with r := Buffer.blank n }
  | .write l => .command 0x02 { Operands.none with w := Buffer.ofBytes l }
  | .transfer n l => .command 0x03 { Operands.none with r := Buffer.blank n, w := Buffer.ofBytes l }
  | .transferInPlace l => .command 0x04 { Operands.none with x := Buffer.ofBytes l }
  | .pin w => .micro w
  | .writeByte b => .writeByte b
  | .readByte => .readByte
  | .flush | .nop | .wr8 _ | .rd8 | .xfer8 _ => .command 0x05 Operands.none

/-- The request of a line (R77, R78). -/
def Line.request (l : Line) : Request := l.expand.basicRequest

/-- A token of a line. -/
inductive Token where
  | word (cs : List Char)
  | decimal (n : Nat)
  | hexByte (n : Nat)
  | open
  | close
  | comma
deriving DecidableEq, Repr

/-- The value of a hex digit. -/
def hexDigit (c : Char) : Option Nat :=
  if '0' ≤ c ∧ c ≤ '9' then some (c.toNat - '0'.toNat)
  else if 'a' ≤ c ∧ c ≤ 'f' then some (c.toNat - 'a'.toNat + 10)
  else if 'A' ≤ c ∧ c ≤ 'F' then some (c.toNat - 'A'.toNat + 10)
  else none

/-- The value of a run of decimal digits, on top of the digits before it. -/
def decimalFrom (acc : Nat) : List Char → Option Nat
  | [] => some acc
  | c :: cs => if '0' ≤ c ∧ c ≤ '9' then decimalFrom (10 * acc + (c.toNat - '0'.toNat)) cs else none

/-- A run of characters as a token: `0x` and two hex digits, a decimal number, or a word (R77). -/
def tokenOf (cs : List Char) : Token :=
  match cs with
  | ['0', 'x', a, b] =>
    match hexDigit a, hexDigit b with
    | some x, some y => .hexByte (16 * x + y)
    | _, _ => .word cs
  | cs =>
    match decimalFrom 0 cs with
    | some n => .decimal n
    | none => .word cs

/-- The token of the characters gathered so far, if any. -/
def pendingToken (acc : List Char) : List Token := if acc.isEmpty then [] else [tokenOf acc]

/-- The tokens of a line; `;` starts a comment (R77). -/
def tokens (acc : List Char) : List Char → List Token
  | [] => pendingToken acc
  | c :: cs =>
    if c = ';' then pendingToken acc
    else if c = ' ' ∨ c = '\t' ∨ c = '\r' then pendingToken acc ++ tokens [] cs
    else if c = '[' then pendingToken acc ++ .open :: tokens [] cs
    else if c = ']' then pendingToken acc ++ .close :: tokens [] cs
    else if c = ',' then pendingToken acc ++ .comma :: tokens [] cs
    else tokens (acc ++ [c]) cs

/-- A byte literal: two hex digits, or a decimal number in 0..255 (R77). -/
def byteToken : Token → Option Byte
  | .hexByte n => some (BitVec.ofNat 8 n)
  | .decimal n => if n < 256 then some (BitVec.ofNat 8 n) else none
  | .word _ | .open | .close | .comma => none

/-- The bytes of a list after its first one, up to the closing bracket at the line's end. -/
def moreBytes : List Token → Option (List Byte)
  | [.close] => some []
  | .comma :: t :: rest =>
    match byteToken t, moreBytes rest with
    | some b, some l => some (b :: l)
    | _, _ => none
  | _ => none

/-- A byte list `[b0, b1, ...]` at the line's end; `[]` is empty (R77). -/
def byteList : List Token → Option (List Byte)
  | [.open, .close] => some []
  | .open :: t :: rest =>
    match byteToken t, moreBytes rest with
    | some b, some l => some (b :: l)
    | _, _ => none
  | _ => none

/-- The names of the pin micro-operations with their PIN words (R77). -/
def pinNames : List (List Char × Byte) :=
  [ ("clk.high".toList, 0x02), ("clk.low".toList, 0x03), ("delay".toList, 0x06),
    ("data.out".toList, 0x08), ("data.in".toList, 0x09), ("data.high".toList, 0x0A), ("data.low".toList, 0x0B),
    ("data.is_high".toList, 0x0C), ("data.is_low".toList, 0x0D) ]

/-- A line that is one word. -/
def wordLine (w : List Char) : Option Line :=
  if w = "reset".toList then some .reset
  else if w = "flush".toList then some .flush
  else if w = "nop".toList then some .nop
  else if w = "rd8".toList then some .rd8
  else if w = "read_byte".toList then some .readByte
  else (pinNames.find? fun e => e.1 == w).map fun e => .pin e.2

/-- A line that is a word and a byte. -/
def byteLine (w : List Char) (b : Byte) : Option Line :=
  if w = "wr8".toList then some (.wr8 b)
  else if w = "xfer8".toList then some (.xfer8 b)
  else if w = "write_byte".toList then some (.writeByte b)
  else none

/-- A line that is a word and a byte list. -/
def listLine (w : List Char) (l : List Byte) : Option Line :=
  if w = "write".toList then some (.write l)
  else if w = "transfer_in_place".toList then some (.transferInPlace l)
  else none

/-- The line of a non-empty list of tokens (R77, R78). -/
def lineOf : List Token → Option Line
  | [.word w] => wordLine w
  | [.word w, t] =>
    match t with
    | .decimal n => if w = "read".toList then some (.read n) else (byteToken t).bind (byteLine w)
    | t => (byteToken t).bind (byteLine w)
  | .word w :: .decimal n :: .comma :: rest =>
    if w = "transfer".toList then (byteList rest).map (.transfer n) else none
  | .word w :: rest => (byteList rest).bind (listLine w)
  | _ => none

/-- The lines of a text, by its line ends. -/
def splitLines (acc : List Char) : List Char → List (List Char)
  | [] => [acc]
  | c :: cs => if c = '\n' then acc :: splitLines [] cs else splitLines (acc ++ [c]) cs

/-- The lines of a program text, one command a line, lines with no token left out. -/
def parseLines : List (List Char) → Option (List Line)
  | [] => some []
  | l :: rest =>
    match tokens [] l with
    | [] => parseLines rest
    | ts =>
      match lineOf ts, parseLines rest with
      | some x, some xs => some (x :: xs)
      | _, _ => none

/-- The requests of a program text; `reset` may stand as the first line only (R77). -/
def assemble (text : List Char) : Option (List Request) :=
  match parseLines (splitLines [] text) with
  | none => none
  | some ls => if (ls.drop 1).contains .reset then none else some (ls.map Line.request)

end Sys2Proof.Machine
end

