-- ==== Sys2Proof/Machine/Observe.lean ====
section
/-! DEFINITION. What the environment observes (spec 10 R34): the named pin events, the event sequences of the byte
primitives (41 R97, R101), counts over a trace (41 R105-R107; 42 R119, R120), and the lines as a trace determines them. -/

namespace Sys2Proof.Machine

/-- ClkSet(v) (R34). -/
def evClk (v : Level) : PinEvent := ⟨if v then 0x02 else 0x03, none⟩

/-- DDir(OUT) (R34). -/
def evOut : PinEvent := ⟨0x08, none⟩

/-- DDir(IN) (R34). -/
def evIn : PinEvent := ⟨0x09, none⟩

/-- DSet(v) (R34). -/
def evSet (v : Level) : PinEvent := ⟨if v then 0x0A else 0x0B, none⟩

/-- DSample(lv) as DATA.IS_HIGH emits it (R34, R86). -/
def evSample (lv : Level) : PinEvent := ⟨0x0C, some lv⟩

/-- Delay (R34). -/
def evDelay : PinEvent := ⟨0x06, none⟩

/-- The bit positions in wire order, bit 7 first (R48). -/
def bitsDown : List (Fin 8) := [7, 6, 5, 4, 3, 2, 1, 0]

/-- The events of one written bit (R97). -/
def writeBitEvents (v : Level) : List PinEvent := [evSet v, evDelay, evClk false, evDelay, evClk true, evDelay]

/-- The trace of WRITE_BYTE(b) (R97). -/
def writeEvents (b : Byte) : List PinEvent := evOut :: bitsDown.flatMap fun k => writeBitEvents (byteBit b k)

/-- The events of one read bit (R101). -/
def readBitEvents (lv : Level) : List PinEvent := [evClk false, evDelay, evClk true, evDelay, evSample lv]

/-- The trace of READ_BYTE with the samples `lvs`, first sample first (R101). -/
def readEvents (lvs : List Level) : List PinEvent := evIn :: lvs.flatMap readBitEvents

/-- The byte {lv_0, ..., lv_7}: the first sample in bit 7 (R108). -/
def byteOfLevels (lvs : List Level) : Byte := lvs.foldl (fun b v => b <<< 1 ||| (if v then 1 else 0)) 0

/-- The levels of the `n` draws that begin with the j-th one from now. -/
def State.levels (s : State) (j n : Nat) : List Level := (List.range n).map fun t => s.samples.bit Config.freeLevel (j + t)

/-- The eight samples of the i-th READ_BYTE from now. -/
def State.byteLevels (s : State) (i : Nat) : List Level := s.levels (8 * i) 8

/-- The lines as the block drives them: CLK, the direction and the latch of DATA (R20). -/
structure Lines where
  /-- CLK. -/
  clk : Level
  /-- The direction of DATA. -/
  ddir : Dir
  /-- The latch of DATA. -/
  dout : Latch
deriving DecidableEq, Repr

/-- The line state of the engine (R20). -/
def State.lines (s : State) : Lines := ⟨s.clk, s.ddir, s.dout⟩

/-- The first word of a trace that names no micro-operation: a reader of the trace refuses it by name (R70, R73). -/
def traceError : List PinEvent → Option DecodeError
  | [] => none
  | e :: rest => match decodePin e.w with
    | .ok _ => traceError rest
    | .error d => some d

/-- The lines after one pin event whose word names a micro-operation (R82-R89, R93); every reader of a trace refuses other
words first. -/
def Lines.after (l : Lines) (e : PinEvent) : Lines :=
  if e.w = encode .clkSetHigh then { l with clk := true }
  else if e.w = encode .clkSetLow then { l with clk := false }
  else if e.w = encode .dataSetAsOutput then
    { l with ddir := .out, dout := if l.ddir = Dir.out then l.dout else .unknown }
  else if e.w = encode .dataSetAsInput then { l with ddir := .inp }
  else if e.w = encode .dataSetHigh then { l with dout := .high }
  else if e.w = encode .dataSetLow then { l with dout := .low }
  else l

/-- The lines after a trace that holds no refused word. -/
def Lines.replay (l : Lines) (tr : List PinEvent) : Lines := tr.foldl Lines.after l

/-- The lines that a trace shows, or the refusal of its first word that names no micro-operation (R70, R73). -/
def Lines.ofTrace (l : Lines) (tr : List PinEvent) : Except DecodeError Lines :=
  match traceError tr with
  | none => .ok (l.replay tr)
  | some d => .error d

/-- The lines before construction: the platform's level on CLK, DATA unknown (R25, R26, R27). -/
def Lines.before (c : Level) : Lines := ⟨c, .unset, .unknown⟩

/-- The latch at each rising edge of a trace, in order (R104). -/
def risingLatches : Lines → List PinEvent → List Latch
  | _, [] => []
  | l, e :: rest =>
    if !l.clk && (l.after e).clk then l.dout :: risingLatches (l.after e) rest else risingLatches (l.after e) rest

/-- The low-to-high transitions of CLK in a trace (R105). -/
def risingEdges : Lines → List PinEvent → Nat
  | _, [] => 0
  | l, e :: rest => (if !l.clk && (l.after e).clk then 1 else 0) + risingEdges (l.after e) rest

/-- The high-to-low transitions of CLK in a trace (R105). -/
def fallingEdges : Lines → List PinEvent → Nat
  | _, [] => 0
  | l, e :: rest => (if l.clk && !(l.after e).clk then 1 else 0) + fallingEdges (l.after e) rest

/-- The changes of direction in a trace, as against the direction micro-operations (R120). -/
def directionChanges : Lines → List PinEvent → Nat
  | _, [] => 0
  | l, e :: rest => (if l.ddir = (l.after e).ddir then 0 else 1) + directionChanges (l.after e) rest

/-- The DELAYs of a trace (R107). -/
def countDelays (tr : List PinEvent) : Nat := tr.countP fun e => e.w == encode .delay

/-- The direction micro-operations of a trace (R106). -/
def countDirections (tr : List PinEvent) : Nat :=
  tr.countP fun e => e.w == encode .dataSetAsOutput || e.w == encode .dataSetAsInput

end Sys2Proof.Machine
end

