-- ==== Sys2Proof/Machine/Timing.lean ====
section
/-! DEFINITION. The timing view of a trace (spec 70 R164-R166): lower bounds only, read by no instruction. T_ITER and T_PIN
(00 R10) are its arguments. -/

namespace Sys2Proof.Machine

/-- T_ITER, the time of one delay iteration, and T_PIN, the time of one pin operation (R10), in any unit. Both are positive:
there are no other durations, so the whole timing view is over positive ones. -/
structure Durations where
  /-- T_ITER. -/
  tIter : ℚ
  /-- T_PIN. -/
  tPin : ℚ
  /-- T_ITER is a positive duration (R10). -/
  tIter_pos : 0 < tIter
  /-- T_PIN is a positive duration (R10). -/
  tPin_pos : 0 < tPin

/-- t_D = DELAY_ITERS × T_ITER (R164). -/
def Durations.tDelay (cfg : Config) (d : Durations) : ℚ := cfg.delayIters * d.tIter

/-- The least time that an event's micro-operation takes (R164). -/
def Durations.least (cfg : Config) (d : Durations) (e : PinEvent) : ℚ :=
  if e.w = encode .delay then d.tDelay cfg else d.tPin

/-- The least time of a run of events (R166). -/
def Durations.total (cfg : Config) (d : Durations) (tr : List PinEvent) : ℚ := (tr.map (d.least cfg)).sum

/-- A timed trace (R164): `ts` gives each event of `tr` the time at which its micro-operation completes; the first one
starts at `start` or later. No step has an upper bound. A trace with a word that names no micro-operation is none (R70,
R73). -/
def TimedFrom (cfg : Config) (d : Durations) : ℚ → List PinEvent → List ℚ → Prop
  | _, [], [] => True
  | start, e :: tr, t :: ts => traceError [e] = none ∧ start + d.least cfg e ≤ t ∧ TimedFrom cfg d t tr ts
  | _, [], _ :: _ => False
  | _, _ :: _, [] => False

end Sys2Proof.Machine
end

