-- ==== Sys2Proof/Safety.lean ====
section
/-! DEFINITION. The terms claims use: when the engine can run, what a byte primitive leaves, the discipline the sequencer
keeps at every position, and the canonical form of the buffers a state holds. -/

namespace Sys2Proof

/-- How many choices of the driver `n` pin micro-operations draw: none, where panics are not admitted (R81; log 10). -/
def Config.choices (cfg : Config) (n : Nat) : Nat := if cfg.driverMayPanic then n else 0

end Sys2Proof

namespace Sys2Proof.Machine

/-- The engine exists, has no fault, and its driver does not panic at the next `n` pin micro-operations: it never does, or it
may and does not. -/
abbrev State.CalmFor (s : State) (n : Nat) : Prop :=
  s.live = true ∧ s.fault = none ∧
    (s.cfg.driverMayPanic = true → ∀ t : Nat, t < n → s.panics.bit Config.freePanic t = false)

/-- An engine with no operation in progress that can take any instruction of at most `n` pin micro-operations. -/
abbrev State.ReadyFor (s : State) (n : Nat) : Prop := s.CalmFor n ∧ s.active = false

/-- An engine with no operation in progress that can take any instruction of no pin micro-operation. -/
abbrev State.Ready (s : State) : Prop := s.ReadyFor 0

/-- An engine that can perform a pin micro-operation: it exists, has no fault, and its driver does not panic this time. -/
abbrev State.CanAct (s : State) : Prop :=
  s.live = true ∧ s.fault = none ∧ (s.cfg.driverMayPanic = true → s.panicNow = false)

/-- The state once the driver's `n` choices not to panic are drawn, where there are any to draw (R81). -/
def State.chosen (s : State) (n : Nat) : State := { s with panics := s.panics.skip (s.cfg.choices n) }

/-- The state once the driver's one choice not to panic is drawn, where there is one to draw (R81). -/
def State.settled (s : State) : State := s.chosen 1

/-- How many pin micro-operations, DELAY not counted, an operation performs (R166). -/
def Job.pinCount (j : Job) : Nat :=
  match j.op with
  | .read => 25 * j.r.len
  | .write => 25 * j.w.len
  | .transfer => 25 * (j.w.len + j.r.len)
  | .transferInPlace => 50 * j.x.len
  | .flush => 0
  | .writeByte | .readByte => 25

/-- The level of CLK before a phase's micro-operation (R97, R101, R152). -/
def Phase.clkBefore : Phase → Level
  | .wbHoldLo | .wbClkHi | .rbHoldLo | .rbClkHi => false
  | .wbDir | .wbDrive | .wbSettle | .wbClkLo | .wbHoldHi | .rbDir | .rbClkLo | .rbHoldHi | .rbSample => true

/-- The direction of DATA that a phase's micro-operation finds: after the first one of its primitive, OUT in WRITE_BYTE and
IN in READ_BYTE (R97, R101, R133). -/
def Phase.dirBefore : Phase → Option Dir
  | .wbDir | .rbDir => none
  | .wbDrive | .wbSettle | .wbClkLo | .wbHoldLo | .wbClkHi | .wbHoldHi => some .out
  | .rbClkLo | .rbHoldLo | .rbClkHi | .rbHoldHi | .rbSample => some .inp

/-- After DRIVE, a WRITE_BYTE's latch holds the bit being written (R97, R104). -/
def Phase.driven : Phase → Bool
  | .wbSettle | .wbClkLo | .wbHoldLo | .wbClkHi | .wbHoldHi => true
  | .wbDir | .wbDrive | .rbDir | .rbClkLo | .rbHoldLo | .rbClkHi | .rbHoldHi | .rbSample => false

/-- The operation has a WRITE_BYTE, or a READ_BYTE, of index `i` (R111-R114). -/
def Job.has (j : Job) (i : Nat) : Prim → Bool
  | .wb => (j.source i).isSome
  | .rb => (j.store i 0).isSome

/-- The state is as the sequences of R97 and R101 have it at the position `p`. -/
def State.AtPos (s : State) (p : Pos) : Prop :=
  s.clk = p.phase.clkBefore ∧ (∀ d, p.phase.dirBefore = some d → s.ddir = d) ∧ s.job.has p.i p.phase.prim = true ∧
    (p.phase.driven = true → s.dout = Latch.ofLevel (byteBit s.tx p.k))

/-- The request is a move of the consumer, not a line of a micro-program (R117). -/
def Request.byConsumer : Request → Bool
  | .command _ _ | .drop | .construct => true
  | .micro _ | .writeByte _ | .readByte => false

/-- The discipline of an engine whose consumer presents no micro-program: no fault but an admitted panic of the driver, CLK
high whenever the engine is idle, and at every position of the sequencer the lines as that position needs them (R133,
R152). -/
structure State.Disciplined (s : State) : Prop where
  /-- A fault is a panic of a driver that may panic, never a mode violation (R133, R134). -/
  onlyPanics : ∀ r, s.fault = some r → s.cfg.driverMayPanic = true ∧ ∃ w, r = .driverPanic w
  /-- S.busy marks commands only (R35). -/
  busyCommand : s.busy = true → s.job.op.internal = false
  /-- An idle engine's sequencer is IDLE (R31, R35). -/
  idle : s.active = false → s.seq = .idle
  /-- The idle invariant (R152). -/
  clkHigh : s.live = true → s.fault = none → s.seq = .idle → s.clk = true
  /-- The lines fit the position (R97, R101). -/
  atPos : ∀ p, s.seq = .pos p → s.AtPos p
  /-- No micro-program is presented. -/
  consumer : ∀ q ∈ s.program, q.byConsumer = true

/-- The line state is the one that the trace shows from some level of CLK before construction, and the trace holds no illegal
or reserved word (R34, R39, R70). -/
def State.TraceShowsLines (s : State) : Prop := ∃ c, (Lines.before c).ofTrace s.trace = .ok s.lines

/-- The buffers of a job are in canonical form. -/
def Job.memWf (j : Job) : Bool := j.r.wf && j.w.wf && j.x.wf

/-- The buffers that go alongside a request are in canonical form. -/
def Request.memWf : Request → Bool
  | .command _ o => o.r.wf && o.w.wf && o.x.wf
  | .drop | .construct | .micro _ | .writeByte _ | .readByte => true

/-- The buffers given back are in canonical form. -/
def Reply.memWf : Reply → Bool
  | .done _ r x => r.all Buffer.wf && x.all Buffer.wf
  | .refused _ => true

/-- Every buffer the state holds is in canonical form. -/
def State.memWf (s : State) : Bool := s.job.memWf && s.program.all Request.memWf && s.replies.all Reply.memWf

/-- What a whole WRITE_BYTE of the byte `b` leaves (R97, R98, R107). -/
def State.wroteByte (s : State) (b : Byte) : State :=
  { s with
    clk := true
    ddir := .out
    dout := Latch.ofLevel (byteBit b 0)
    tx := b
    k := 0
    dcnt := 0
    panics := s.panics.skip (s.cfg.choices 25)
    trace := s.trace ++ writeEvents b }

/-- What a whole READ_BYTE leaves (R101, R102, R107, R108). -/
def State.readByte (s : State) : State :=
  { s with
    clk := true
    ddir := .inp
    rx := byteOfLevels (s.byteLevels 0)
    k := 0
    dcnt := 0
    ret := s.samples.bit Config.freeLevel 7
    samples := s.samples.skip 8
    panics := s.panics.skip (s.cfg.choices 25)
    trace := s.trace ++ readEvents (s.byteLevels 0) }

/-- What WRITE_BYTEs of the bytes `l`, in order, leave (R112). -/
def State.wroteBytes (s : State) (l : List Byte) : State := l.foldl State.wroteByte s

/-- What `n` READ_BYTEs leave (R111). -/
def State.readBytes (s : State) : Nat → State
  | 0 => s
  | n + 1 => s.readByte.readBytes n

/-- What a WRITE_BYTE and then a READ_BYTE for each byte of `l` leave (R114). -/
def State.exchanged (s : State) (l : List Byte) : State := l.foldl (fun s b => (s.wroteByte b).readByte) s

/-- The byte that the i-th READ_BYTE from now gives (R108). -/
def State.byteAt (s : State) (i : Nat) : Byte := byteOfLevels (s.byteLevels i)

/-- The bytes that the next `n` READ_BYTEs give, in order (R111). -/
def State.bytesAt (s : State) (n : Nat) : List Byte := (List.range n).map s.byteAt

/-- The events of the next `n` READ_BYTEs (R101, R111). -/
def State.readsEvents (s : State) (n : Nat) : List PinEvent := (List.range n).flatMap fun i => readEvents (s.byteLevels i)

/-- The events of a WRITE_BYTE and a READ_BYTE for each byte of `l`, the READ_BYTEs counted from the i-th from now
(R114). -/
def State.exchangeEvents (s : State) : Nat → List Byte → List PinEvent
  | _, [] => []
  | i, b :: l => writeEvents b ++ readEvents (s.byteLevels i) ++ s.exchangeEvents (i + 1) l

/-- The counts of R119 over the events `ev` that follow the lines `l`: events, clock pulses as falling and as rising edges,
DELAYs, direction micro-operations. No word of them is illegal or reserved (R70). -/
def Tally (l : Lines) (ev : List PinEvent) (events pulses delays directions : Nat) : Prop :=
  traceError ev = none ∧ ev.length = events ∧ fallingEdges l ev = pulses ∧ risingEdges l ev = pulses ∧
    countDelays ev = delays ∧ countDirections ev = directions

/-- The instruction is one of the five bus operations (R65). -/
def busInstr : Instr → Bool
  | .read _ | .write _ | .transfer _ _ | .transferInPlace _ | .flush => true
  | .writeByte _ | .readByte | .clkSetHigh | .clkSetLow | .delay | .dataSetAsOutput | .dataSetAsInput => false
  | .dataSetHigh | .dataSetLow | .dataIsHigh | .dataIsLow => false

/-- The same state with another DELAY_ITERS (R94). -/
def State.withDelay (s : State) (n : Nat) : State := { s with cfg := { s.cfg with delayIters := n } }

/-- An outcome with its next state, if it has one, changed. -/
def mapNext (f : State → State) : Out → Out
  | .next s => .next (f s)
  | .fault r => .fault r
  | .refused r => .refused r

end Sys2Proof.Machine

namespace Sys2Proof

/-- A buffer with the bytes `l` stored from index `i` on (R111). -/
def Buffer.fill : Buffer → Nat → List Byte → Buffer
  | b, _, [] => b
  | b, i, v :: l => Buffer.fill { b with cells := b.cells.write i v } (i + 1) l

end Sys2Proof
end

