-- ==== Sys2Proof/Certificates/Slice0/Obligations.lean ====
section
/-! DEFINITION. The statements for the provers, by family: encoding, pin micro-operations, byte primitives, bus operations,
command port and steps, reset and lifetime, invariants, timing. -/

open Sys2Proof Sys2Proof.Machine

/-! ## Encoding -/

/-- R65, R69: the words of the opcode table, written out, decode to their rows; a sanity statement. That a buffer alongside
which the row does not name is dropped unread is the model's choice (log 27). -/
def Obligations.TableWordsDecode : Prop :=
  (∀ o, decodeCmd 0x01 o = .ok (.read o.r) ∧ decodeCmd 0x02 o = .ok (.write o.w) ∧
    decodeCmd 0x03 o = .ok (.transfer o.r o.w) ∧ decodeCmd 0x04 o = .ok (.transferInPlace o.x) ∧
    decodeCmd 0x05 o = .ok .flush ∧ decodeCmd 0x08 o = .ok (.writeByte o.b) ∧ decodeCmd 0x09 o = .ok .readByte) ∧
  decodePin 0x02 = .ok .clkSetHigh ∧ decodePin 0x03 = .ok .clkSetLow ∧ decodePin 0x06 = .ok .delay ∧
  decodePin 0x08 = .ok .dataSetAsOutput ∧ decodePin 0x09 = .ok .dataSetAsInput ∧
  decodePin 0x0A = .ok .dataSetHigh ∧ decodePin 0x0B = .ok .dataSetLow ∧
  decodePin 0x0C = .ok .dataIsHigh ∧ decodePin 0x0D = .ok .dataIsLow

/-- R63-R69: decoding is the inverse of encoding, in both directions and with every operand. -/
def Obligations.DecodeInvertsEncode : Prop :=
  (∀ i : Instr, decode i.format (encode i) i.operands = .ok i) ∧
    ∀ (f : Format) (w : Byte) (o : Operands) (i : Instr), decode f w o = .ok i → i.format = f ∧ encode i = w

/-- R76: on every word, each format's decoder gives the one row that the word matches, or an error when none matches; every
mask is 0xFF, no two rows of a table have one word, and no other row matches. -/
def Obligations.DecoderFollowsTable : Prop :=
  (∀ row ∈ cmdRows ++ pinRows, row.mask = 0xFF) ∧
  (cmdRows.map Row.pattern).Nodup ∧ (pinRows.map Row.pattern).Nodup ∧
  (∀ (w : Byte) (o : Operands),
    (∃ row ∈ cmdRows, w &&& row.mask = row.pattern ∧ decodeCmd w o = .ok (row.build o) ∧
      ∀ row' ∈ cmdRows, w &&& row'.mask = row'.pattern → row' = row) ∨
    ((∀ row ∈ cmdRows, w &&& row.mask ≠ row.pattern) ∧ decodeCmd w o = .error (.reservedCmd w))) ∧
  ∀ w : Byte,
    (∃ row ∈ pinRows, w &&& row.mask = row.pattern ∧ decodePin w = .ok (row.build Operands.none) ∧
      ∀ row' ∈ pinRows, w &&& row'.mask = row'.pattern → row' = row) ∨
    ((∀ row ∈ pinRows, w &&& row.mask ≠ row.pattern) ∧
      (decodePin w = .error (.illegalPin w) ∨ decodePin w = .error (.reservedPin w)))

/-- R70, R71, R73: exactly which words are illegal or reserved in each format, and that a trace which holds such a PIN word
is refused by its first one. -/
def Obligations.ReservedWordsAreRejected : Prop :=
  (∀ (w : Byte) (o : Operands), decodeCmd w o = .error (.reservedCmd w) ↔
    (w.extractLsb' 4 4 ≠ 0 ∨ w ∈ [(0x00 : Byte), 0x06, 0x07, 0x0A, 0x0B, 0x0C, 0x0D, 0x0E, 0x0F])) ∧
  (∀ w : Byte, decodePin w = .error (.illegalPin w) ↔ w ∈ [(0x00 : Byte), 0x01, 0x04, 0x05]) ∧
  (∀ w : Byte, decodePin w = .error (.reservedPin w) ↔
    (w.extractLsb' 4 4 ≠ 0 ∨ w ∈ [(0x07 : Byte), 0x0E, 0x0F])) ∧
  ∀ (l : Lines) (tr : List PinEvent), (∀ e ∈ tr, ∃ i, decodePin e.w = .ok i) →
    l.ofTrace tr = .ok (l.replay tr) ∧
      ∀ (e : PinEvent) (d : DecodeError) (post : List PinEvent), decodePin e.w = .error d →
        l.ofTrace (tr ++ e :: post) = .error d

/-! ## Pin micro-operations -/

/-- R88, R89: the two clock micro-operations drive CLK and append their event; the driver that panics raises DriverPanic
instead. -/
def Obligations.ClockOpsDriveClk : Prop :=
  encode .clkSetHigh = 0x02 ∧ encode .clkSetLow = 0x03 ∧ ∀ s : State,
    (s.CanAct → exec .clkSetHigh s = .next ({ s.settled with clk := true }.emit 0x02 none) ∧
      exec .clkSetLow s = .next ({ s.settled with clk := false }.emit 0x03 none)) ∧
    (s.live = true → s.fault = none → s.cfg.driverMayPanic = true → s.panicNow = true →
      exec .clkSetHigh s = .next (s.panicDrawn.raise (.driverPanic 0x02)) ∧
        exec .clkSetLow s = .next (s.panicDrawn.raise (.driverPanic 0x03)))

/-- R93: DELAY counts DELAY_ITERS, ..., 1, 0, appends one event, touches no pin and cannot panic, whatever the driver does;
its least duration is DELAY_ITERS × T_ITER. That the values counted stand in a list beside the one atomic step is the model's
reading of R93 (log 16). -/
def Obligations.DelaySpinsToZero : Prop :=
  encode .delay = 0x06 ∧
  (∀ s : State, s.live = true → s.fault = none →
    (spinValues s.cfg.delayIters).head? = some s.cfg.delayIters ∧
    (spinValues s.cfg.delayIters).length = s.cfg.delayIters + 1 ∧
    (spinValues s.cfg.delayIters).Pairwise (fun a b => b < a) ∧
    (spinValues s.cfg.delayIters).getLast? = some 0 ∧
    exec .delay s = .next ({ s with dcnt := 0 }.emit 0x06 none)) ∧
  ∀ (cfg : Config) (d : Durations), d.least cfg evDelay = cfg.delayIters * d.tIter

/-- R82, R83: the direction micro-operations; SET_AS_OUTPUT makes the latch UNKNOWN unless DATA is an output already,
SET_AS_INPUT keeps it; both are idempotent but for their event. -/
def Obligations.DirectionOpsSetMode : Prop :=
  ∀ s : State, s.CanAct →
    (s.ddir ≠ .out → exec .dataSetAsOutput s =
      .next ({ s.settled with ddir := .out, dout := .unknown }.emit 0x08 none)) ∧
    (s.ddir = .out → exec .dataSetAsOutput s = .next (s.settled.emit 0x08 none)) ∧
    exec .dataSetAsInput s = .next ({ s.settled with ddir := .inp }.emit 0x09 none) ∧
    (s.ddir = .inp → exec .dataSetAsInput s = .next (s.settled.emit 0x09 none))

/-- R84, R85: in output mode the level micro-operations set the latch and append their event, also when the level does not
change. -/
def Obligations.LevelOpsSetLatch : Prop :=
  ∀ s : State, s.CanAct → s.ddir = .out →
    exec .dataSetHigh s = .next ({ s.settled with dout := .high }.emit 0x0A none) ∧
    exec .dataSetLow s = .next ({ s.settled with dout := .low }.emit 0x0B none)

/-- R86, R87: in input mode a sample is one draw of the level, which goes into the event; IS_HIGH returns whether it is high,
IS_LOW the negation of that. The level is whatever the environment gives. -/
def Obligations.SampleOpsReturnLevel : Prop :=
  ∀ s : State, s.CanAct → s.ddir = .inp →
    exec .dataIsHigh s = .next ({ s.settled with ret := s.dataIn, samples := s.samples.skip 1 }.emit 0x0C (some s.dataIn)) ∧
    exec .dataIsLow s = .next ({ s.settled with ret := !s.dataIn, samples := s.samples.skip 1 }.emit 0x0D (some s.dataIn))

/-- R92: a draw may give either level: with a script of the environment it gives the script's next level. -/
def Obligations.EveryLevelCanBeDrawn : Prop :=
  ∀ (s : State) (v : Level) (rest : List Level), s.CanAct → s.ddir = .inp → s.samples.script = v :: rest →
    ∃ t, exec .dataIsHigh s = .next t ∧ t.ret = v ∧ t.trace = s.trace ++ [⟨0x0C, some v⟩] ∧ t.samples.script = rest

/-- R91, R132: a DATA level operation in the wrong mode, UNSET included, raises PinModeViolation with its PIN word and leaves
the state and the trace otherwise unchanged. -/
def Obligations.WrongModeRaises : Prop :=
  ∀ s : State, s.CanAct →
    (s.ddir ≠ .out → exec .dataSetHigh s = .next { s.settled with fault := some (.pinModeViolation 0x0A) } ∧
      exec .dataSetLow s = .next { s.settled with fault := some (.pinModeViolation 0x0B) }) ∧
    (s.ddir ≠ .inp → exec .dataIsHigh s = .next { s.settled with fault := some (.pinModeViolation 0x0C) } ∧
      exec .dataIsLow s = .next { s.settled with fault := some (.pinModeViolation 0x0D) })

/-- R81, R134: where the driver may panic and does, every pin micro-operation raises DriverPanic with its PIN word before any
state change of its own, in any mode (R137). Which of the two outcomes happens is a free choice of the driver (log 10). -/
def Obligations.DriverPanicComesFirst : Prop :=
  ∀ (i : Instr) (s : State), i.format = .pin → i ≠ .delay → s.live = true → s.fault = none →
    s.cfg.driverMayPanic = true → s.panicNow = true →
      exec i s = .next { s with fault := some (.driverPanic (encode i)), panics := s.panics.skip 1 }

/-- R36, R80, R132: a faulted engine takes no step, and no instruction runs on it. -/
def Obligations.FaultedEngineTakesNoStep : Prop :=
  ∀ (s : State) (r : FaultReason), s.fault = some r →
    step s = .fault (.engineFaulted r) ∧ ∀ i, exec i s = .fault (.engineFaulted r)

/-- R39, R80: the frame of the pin micro-operations and DELAY in every state: what each may write, one event or one fault,
and nothing else; every byte of every buffer is as before. -/
def Obligations.PinOpsFrame : Prop :=
  ∀ (i : Instr) (s t : State), i.format = .pin → exec i s = .next t →
    (t.busy = s.busy ∧ t.seq = s.seq ∧ t.tx = s.tx ∧ t.rx = s.rx ∧ t.k = s.k ∧ t.live = s.live ∧ t.cfg = s.cfg ∧
      t.program = s.program ∧ t.replies = s.replies ∧ t.job.op = s.job.op) ∧
    (i ≠ .clkSetHigh → i ≠ .clkSetLow → t.clk = s.clk) ∧
    (i ≠ .dataSetAsOutput → i ≠ .dataSetAsInput → t.ddir = s.ddir) ∧
    (i ≠ .dataSetHigh → i ≠ .dataSetLow → (i = .dataSetAsOutput → s.ddir = .out) → t.dout = s.dout) ∧
    (i ≠ .delay → t.dcnt = s.dcnt) ∧
    (i ≠ .dataIsHigh → i ≠ .dataIsLow → t.ret = s.ret ∧ t.samples = s.samples) ∧
    ((i = .delay ∨ s.cfg.driverMayPanic = false) → t.panics = s.panics) ∧
    ((t.fault = none ∧ ∃ lv, t.trace = s.trace ++ [⟨encode i, lv⟩]) ∨
      (t.trace = s.trace ∧ t.lines = s.lines ∧ t.ret = s.ret ∧ t.samples = s.samples ∧
        (t.fault = some (.pinModeViolation (encode i)) ∨
          (s.cfg.driverMayPanic = true ∧ t.fault = some (.driverPanic (encode i)))))) ∧
    ∀ a, t.job.r.read a = s.job.r.read a ∧ t.job.w.read a = s.job.w.read a ∧ t.job.x.read a = s.job.x.read a

/-! ## Byte primitives -/

/-- R97, R98: WRITE_BYTE, with a driver that does not panic: its 49 events, CLK high, DATA an output that holds bit 0, and
nothing else but tx, k, the delay counter and the driver's choices, where it has any (log 10). -/
def Obligations.WriteByteSendsByte : Prop :=
  ∀ (s : State) (b : Byte), encode (.writeByte b) = 0x08 ∧ (s.ReadyFor 25 →
    exec (.writeByte b) s = .next { s with
      clk := true, ddir := .out, dout := Latch.ofLevel (b.getLsbD 0), tx := b, k := 0, dcnt := 0,
      panics := s.panics.skip (s.cfg.choices 25), trace := s.trace ++ writeEvents b, busy := false, seq := .idle,
      job := Job.idle })

/-- R101, R102: READ_BYTE, with a driver that does not panic: its 41 events with the eight levels drawn, the byte they make
in S.rx, CLK high, DATA an input, the latch kept. -/
def Obligations.ReadByteReceivesByte : Prop :=
  encode .readByte = 0x09 ∧ ∀ s : State, s.ReadyFor 25 → ∃ t, exec .readByte s = .next t ∧
    t = { s with
      clk := true, ddir := .inp, rx := byteOfLevels (s.levels 0 8), k := 0, dcnt := 0, ret := t.ret,
      samples := s.samples.skip 8, panics := s.panics.skip (s.cfg.choices 25), trace := s.trace ++ readEvents (s.levels 0 8),
      busy := false, seq := .idle, job := Job.idle } ∧
    some t.ret = (s.levels 0 8)[7]?

/-- R104: from any lines with CLK high, the latch at the j-th rising edge of WRITE_BYTE(b) is bit 7 - j of b, and there are
eight rising edges. -/
def Obligations.WriteByteIsMsbFirst : Prop :=
  ∀ (l : Lines) (b : Byte), l.clk = true →
    (risingLatches l (writeEvents b)).length = 8 ∧
      ∀ j : Nat, j < 8 → (risingLatches l (writeEvents b))[j]? = some (Latch.ofLevel (b.getLsbD (7 - j)))

/-- R108: eight samples make the byte whose bit 7 - j is the j-th sample, and whose value is the sum of lv_j × 2^(7-j). -/
def Obligations.SamplesMakeByteMsbFirst : Prop :=
  ∀ lvs : List Level, lvs.length = 8 →
    (∀ j : Nat, (h : j < lvs.length) → (byteOfLevels lvs).getLsbD (7 - j) = lvs[j]) ∧
      (byteOfLevels lvs).toNat = ((List.range 8).map fun j => if lvs[j]? = some true then 2 ^ (7 - j) else 0).sum

/-- R105, R107: each primitive makes eight clock pulses from CLK high and ends with it high, 49 events with 24 DELAYs or 41
with 16, and one direction micro-operation (R106). -/
def Obligations.PrimitivesAreEightPulses : Prop :=
  ∀ (l : Lines) (b : Byte) (lvs : List Level), l.clk = true → lvs.length = 8 →
    Tally l (writeEvents b) 49 8 24 1 ∧ (l.replay (writeEvents b)).clk = true ∧
      Tally l (readEvents lvs) 41 8 16 1 ∧ (l.replay (readEvents lvs)).clk = true

/-- R103 (a): every byte can be read: the environment that gives its bits makes READ_BYTE return it. -/
def Obligations.EveryByteCanBeRead : Prop :=
  ∀ (s : State) (b : Byte), s.ReadyFor 25 →
    ∃ (lvs : List Level) (t : State), lvs.length = 8 ∧
      exec .readByte { s with samples := ⟨lvs ++ s.samples.script, s.samples.used⟩ } = .next t ∧
      t.rx = b ∧ t.samples = s.samples

/-! ## Bus operations -/

/-- R111: READ fills R in order: byte i of the buffer given back is the i-th byte read, the events are those of one READ_BYTE
a byte, and the Result is Ok. -/
def Obligations.ReadFillsBuffer : Prop :=
  ∀ (s : State) (r : Buffer), s.ReadyFor (25 * r.len) → r.fit s.cfg = true → encode (.read r) = 0x01 ∧
    ∃ t r', exec (.read r) s = .next t ∧
      t = { s.readBytes r.len with
        busy := false, seq := .idle, job := Job.idle, replies := s.replies ++ [.done .ok (some r') none] } ∧
      t.trace = s.trace ++ s.readsEvents r.len ∧ t.samples = s.samples.skip (8 * r.len) ∧
      r'.len = r.len ∧ r'.wf = true ∧ ∀ i, i < r.len → r'.read i = some (byteOfLevels (s.byteLevels i))

/-- R112: WRITE sends the bytes of W in order, one WRITE_BYTE a byte, and the Result is Ok; no buffer is given back. -/
def Obligations.WriteSendsBuffer : Prop :=
  ∀ (s : State) (w : Buffer), s.ReadyFor (25 * w.len) → w.fit s.cfg = true → encode (.write w) = 0x02 ∧
    ∃ t, exec (.write w) s = .next t ∧
      t = { s.wroteBytes w.toBytes with
        busy := false, seq := .idle, job := Job.idle, replies := s.replies ++ [.done .ok none none] } ∧
      t.trace = s.trace ++ w.toBytes.flatMap writeEvents

/-- R113: TRANSFER sends all of W and then fills R, as WRITE and then READ do. -/
def Obligations.TransferWritesThenReads : Prop :=
  ∀ (s : State) (r w : Buffer), s.ReadyFor (25 * (w.len + r.len)) → r.fit s.cfg = true → w.fit s.cfg = true →
    encode (.transfer r w) = 0x03 ∧
    ∃ t r', exec (.transfer r w) s = .next t ∧
      t = { (s.wroteBytes w.toBytes).readBytes r.len with
        busy := false, seq := .idle, job := Job.idle, replies := s.replies ++ [.done .ok (some r') none] } ∧
      r'.len = r.len ∧ r'.wf = true ∧ ∀ i, i < r.len → r'.read i = some (byteOfLevels (s.byteLevels i))

/-- R57: in TRANSFER every event of the write phase comes before every event of the read phase. -/
def Obligations.TransferPhasesInOrder : Prop :=
  ∀ (s : State) (r w : Buffer), s.ReadyFor (25 * (w.len + r.len)) → r.fit s.cfg = true → w.fit s.cfg = true →
    ∃ t writing reading, exec (.transfer r w) s = .next t ∧ t.trace = s.trace ++ (writing ++ reading) ∧
      writing = w.toBytes.flatMap writeEvents ∧ reading = s.readsEvents r.len ∧
      (∀ e ∈ writing, e.w ≠ encode .dataSetAsInput ∧ e.w ≠ encode .dataIsHigh) ∧
      ∀ e ∈ reading, e.w ≠ encode .dataSetAsOutput ∧ e.w ≠ encode .dataSetHigh ∧ e.w ≠ encode .dataSetLow

/-- R114: TRANSFER_IN_PLACE writes byte i of X and then overwrites it with the i-th byte read, byte by byte. -/
def Obligations.TransferInPlaceExchanges : Prop :=
  ∀ (s : State) (x : Buffer), s.ReadyFor (50 * x.len) → x.fit s.cfg = true → encode (.transferInPlace x) = 0x04 ∧
    ∃ t x', exec (.transferInPlace x) s = .next t ∧
      t = { s.exchanged x.toBytes with
        busy := false, seq := .idle, job := Job.idle, replies := s.replies ++ [.done .ok none (some x')] } ∧
      t.trace = s.trace ++ s.exchangeEvents 0 x.toBytes ∧ t.samples = s.samples.skip (8 * x.len) ∧
      x'.len = x.len ∧ x'.wf = true ∧ ∀ i, i < x.len → x'.read i = some (byteOfLevels (s.byteLevels i))

/-- R115: FLUSH performs no micro-operation and returns Ok from every state that can take an instruction; from an idle engine
only the reply is new. -/
def Obligations.FlushDoesNothing : Prop :=
  encode .flush = 0x05 ∧ ∀ s : State, s.Ready →
    exec .flush s = .next { s with
      busy := false, seq := .idle, job := Job.idle, replies := s.replies ++ [.done .ok none none] } ∧
    (s.seq = .idle → s.job = Job.idle → exec .flush s = .next { s with replies := s.replies ++ [.done .ok none none] })

/-- R110: every bus operation returns Ok, in the absence of a driver panic. -/
def Obligations.EveryOperationReturnsOk : Prop :=
  (∀ (i : Instr) (j : Job) (s : State), busInstr i = true → jobOf i = some j → i.wf s.cfg = true → s.ReadyFor j.pinCount →
    ∃ t r x, exec i s = .next t ∧ t.replies = s.replies ++ [.done .ok r x] ∧ t.busy = false ∧ t.fault = none) ∧
  Result.ok.code = 0 ∧ Result.errBusFault.code = 1

/-- R119: what each operation appends, from CLK high: events, clock pulses, DELAYs and direction micro-operations. -/
def Obligations.OperationTallies : Prop :=
  ∀ s : State, s.clk = true →
    (∀ r : Buffer, s.ReadyFor (25 * r.len) → r.fit s.cfg = true →
      ∃ t ev, exec (.read r) s = .next t ∧ t.trace = s.trace ++ ev ∧
      Tally s.lines ev (41 * r.len) (8 * r.len) (16 * r.len) r.len) ∧
    (∀ w : Buffer, s.ReadyFor (25 * w.len) → w.fit s.cfg = true →
      ∃ t ev, exec (.write w) s = .next t ∧ t.trace = s.trace ++ ev ∧
      Tally s.lines ev (49 * w.len) (8 * w.len) (24 * w.len) w.len) ∧
    (∀ r w : Buffer, s.ReadyFor (25 * (w.len + r.len)) → r.fit s.cfg = true → w.fit s.cfg = true →
      ∃ t ev, exec (.transfer r w) s = .next t ∧ t.trace = s.trace ++ ev ∧
        Tally s.lines ev (49 * w.len + 41 * r.len) (8 * (w.len + r.len)) (24 * w.len + 16 * r.len) (w.len + r.len)) ∧
    (∀ x : Buffer, s.ReadyFor (50 * x.len) → x.fit s.cfg = true →
      ∃ t ev, exec (.transferInPlace x) s = .next t ∧ t.trace = s.trace ++ ev ∧
      Tally s.lines ev (90 * x.len) (16 * x.len) (40 * x.len) (2 * x.len)) ∧
    (s.Ready → ∃ t ev, exec .flush s = .next t ∧ t.trace = s.trace ++ ev ∧ Tally s.lines ev 0 0 0 0)

/-- R121: how each operation leaves CLK, the direction and the latch. -/
def Obligations.OperationEndLines : Prop :=
  ∀ s : State, s.clk = true →
    (∀ r : Buffer, s.ReadyFor (25 * r.len) → r.fit s.cfg = true →
      ∃ t, exec (.read r) s = .next t ∧ t.busy = false ∧
      t.lines = if r.len = 0 then s.lines else ⟨true, .inp, s.dout⟩) ∧
    (∀ w : Buffer, s.ReadyFor (25 * w.len) → w.fit s.cfg = true →
      ∃ t, exec (.write w) s = .next t ∧ t.busy = false ∧
      t.lines = match w.toBytes.getLast? with
        | none => s.lines
        | some b => ⟨true, .out, Latch.ofLevel (b.getLsbD 0)⟩) ∧
    (∀ r w : Buffer, s.ReadyFor (25 * (w.len + r.len)) → r.fit s.cfg = true → w.fit s.cfg = true →
      ∃ t, exec (.transfer r w) s = .next t ∧ t.busy = false ∧
      t.lines = match w.toBytes.getLast? with
        | none => if r.len = 0 then s.lines else ⟨true, .inp, s.dout⟩
        | some b => ⟨true, if r.len = 0 then .out else .inp, Latch.ofLevel (b.getLsbD 0)⟩) ∧
    (∀ x : Buffer, s.ReadyFor (50 * x.len) → x.fit s.cfg = true →
      ∃ t, exec (.transferInPlace x) s = .next t ∧ t.busy = false ∧
      t.lines = match x.toBytes.getLast? with
        | none => s.lines
        | some b => ⟨true, .inp, Latch.ofLevel (b.getLsbD 0)⟩) ∧
    (s.Ready → ∃ t, exec .flush s = .next t ∧ t.busy = false ∧ t.lines = s.lines)

/-- R116: with zero-length buffers READ, WRITE, TRANSFER and TRANSFER_IN_PLACE append no event, change no line and return
Ok. -/
def Obligations.ZeroLengthDoesNothing : Prop :=
  ∀ (s : State) (i : Instr), s.Ready → s.seq = .idle → s.job = Job.idle →
    i ∈ [.read Buffer.empty, .write Buffer.empty, .transfer Buffer.empty Buffer.empty, .transferInPlace Buffer.empty] →
      ∃ r x, exec i s = .next { s with replies := s.replies ++ [.done .ok r x] } ∧
        (∀ b, r = some b → b = Buffer.empty) ∧ ∀ b, x = some b → b = Buffer.empty

/-- R120: READ and WRITE change the direction of DATA at most once, TRANSFER at most twice, TRANSFER_IN_PLACE at every
primitive (but the first when DATA is an output already). -/
def Obligations.DirectionChangesAreFew : Prop :=
  ∀ s : State,
    (∀ r : Buffer, s.ReadyFor (25 * r.len) → r.fit s.cfg = true →
      ∃ t ev, exec (.read r) s = .next t ∧ t.trace = s.trace ++ ev ∧
      directionChanges s.lines ev = if r.len = 0 ∨ s.ddir = .inp then 0 else 1) ∧
    (∀ w : Buffer, s.ReadyFor (25 * w.len) → w.fit s.cfg = true →
      ∃ t ev, exec (.write w) s = .next t ∧ t.trace = s.trace ++ ev ∧
      directionChanges s.lines ev = if w.len = 0 ∨ s.ddir = .out then 0 else 1) ∧
    (∀ r w : Buffer, s.ReadyFor (25 * (w.len + r.len)) → r.fit s.cfg = true → w.fit s.cfg = true →
      ∃ t ev, exec (.transfer r w) s = .next t ∧ t.trace = s.trace ++ ev ∧ directionChanges s.lines ev ≤ 2) ∧
    ∀ x : Buffer, s.ReadyFor (50 * x.len) → x.fit s.cfg = true →
      ∃ t ev, exec (.transferInPlace x) s = .next t ∧ t.trace = s.trace ++ ev ∧
      directionChanges s.lines ev = 2 * x.len - if x.len ≠ 0 ∧ s.ddir = .out then 1 else 0

/-- R122: under loopback, where the j-th sample of byte i is the level driven at the j-th rising edge of byte i,
TRANSFER_IN_PLACE gives back the sequence it was given. -/
def Obligations.LoopbackReturnsSequence : Prop :=
  ∀ (s : State) (x : Buffer), s.ReadyFor (50 * x.len) → x.fit s.cfg = true →
    (∀ i j b, j < 8 → x.read i = some b → s.samples.bit Config.freeLevel (8 * i + j) = b.getLsbD (7 - j)) →
      ∃ t x', exec (.transferInPlace x) s = .next t ∧ t.replies = s.replies ++ [.done .ok none (some x')] ∧
        x'.toBytes = x.toBytes

/-- The frame of the CMD instructions in every state, driver panics included (R39, R46, R51, R112, R115): what each may write,
that a trace and replies only grow, and which bytes of the lent buffers a fault that ended it may find changed: of R, and of X
in TRANSFER_IN_PLACE, those before the index `p.i` of the position it stopped at, whose READ_BYTEs were done, with `p.i` the
index that the meaning stores at (Job.store); of R none in the write phase of a TRANSFER; every length and every other byte is
as it was lent. That the buffers of an operation which a fault ended stay lent, in State.job, is the model's choice (log 23). -/
def Obligations.CommandsFrame : Prop :=
  ∀ (i : Instr) (j : Job) (s t : State), jobOf i = some j → exec i s = .next t →
    (t.live = s.live ∧ t.cfg = s.cfg ∧ t.program = s.program ∧ s.trace <+: t.trace ∧ s.replies <+: t.replies) ∧
    (s.cfg.driverMayPanic = false → t.panics = s.panics) ∧
    (j.op ∈ [.write, .flush, .writeByte] → t.rx = s.rx ∧ t.ret = s.ret ∧ t.samples = s.samples) ∧
    (j.op ∈ [.read, .flush, .readByte] → t.tx = s.tx ∧ t.dout = s.dout) ∧
    (j.op = .flush → t.lines = s.lines ∧ t.trace = s.trace ∧ t.k = s.k ∧ t.dcnt = s.dcnt) ∧
    (t.active = false → t.job = s.job ∨ t.job = Job.idle) ∧
    (t.fault.isSome = true → t.replies = s.replies ∧ t.job.op = j.op ∧
      t.job.r.len = j.r.len ∧ t.job.w.len = j.w.len ∧ t.job.x.len = j.x.len ∧ (∀ a, t.job.w.read a = j.w.read a) ∧
      ∃ p, t.seq = .pos p ∧
        (∀ a, (j.op ∉ [.read, .transfer] ∨ p.phase.prim = .wb ∨ p.i ≤ a) → t.job.r.read a = j.r.read a) ∧
        ∀ a, (j.op ≠ .transferInPlace ∨ p.i ≤ a) → t.job.x.read a = j.x.read a)

/-- R118: an operation comes to its completion or to a fault within the micro-operations its lengths fix, whatever the
environment and the driver do; no operation stops by a refusal. -/
def Obligations.OperationsEnd : Prop :=
  ∀ (i : Instr) (j : Job) (s : State), jobOf i = some j → s.live = true → s.fault = none → s.active = false →
    ∃ t, exec i s = .next t ∧ (t.active = false ∨ ∃ w, t.fault = some (.driverPanic w)) ∧
      t.trace.length ≤ s.trace.length + j.microCount

/-! ## Buffers -/

/-- R47: a read after a write of one byte gives the byte written, every other byte is as before, and an index outside the
buffer is never given a value. -/
def Obligations.BufferReadAfterWrite : Prop :=
  ∀ (b : Buffer) (i : Nat) (v : Byte), b.wf = true →
    (i < b.len → ∃ b', b.write i v = some b' ∧ b'.len = b.len ∧ b'.wf = true ∧ b'.read i = some v ∧
      ∀ a, a ≠ i → b'.read a = b.read a) ∧
    (b.len ≤ i → b.write i v = none ∧ b.read i = none)

/-! ## The command port and the steps -/

/-- R117: issue: an idle engine takes a legal command: busy, at the operation's first phase, its buffers lent, no pin event
yet. That the port takes a command presented with a buffer its operation does not have, of whatever length, and drops that
buffer unread is the model's choice and no rule of the spec (log 27). -/
def Obligations.StepIssuesCommand : Prop :=
  ∀ (s : State) (w : Byte) (o : Operands) (rest : List Request) (i : Instr) (j : Job),
    s.live = true → s.fault = none → s.active = false → s.program = .command w o :: rest →
    decodeCmd w o = .ok i → busInstr i = true → i.wf s.cfg = true → jobOf i = some j →
      step s = .next { s with busy := true, seq := j.start, job := j, program := rest }

/-- R117, R118: the steps that follow the issue, as many as the operation has micro-operations and one for completion, are
together the instruction's exec. For a command presented with a buffer its operation does not have this rests on the model's
choice to drop that buffer unread (log 27). -/
def Obligations.StepsRunTheCommand : Prop :=
  ∀ (s : State) (w : Byte) (o : Operands) (rest : List Request) (i : Instr) (j : Job),
    jobOf i = some j → s.ReadyFor j.pinCount → s.program = .command w o :: rest → decodeCmd w o = .ok i →
    busInstr i = true → i.wf s.cfg = true →
      Host.Core.run core (j.microCount + 2) s = exec i { s with program := rest }

/-- R16: the steps of the machine refine the instruction as the consumer sees it, also where the driver may panic: from an
idle engine some number of steps, within the operation's bound, end exactly where exec ends. Two things here are the model's
choice: that a primitive is presented (log 5), and that the port drops a buffer which a command's operation does not have
(log 27). -/
def Obligations.StepsRefineExec : Prop :=
  ∀ (s : State) (q : Request) (rest : List Request) (i : Instr) (j : Job),
    s.live = true → s.fault = none → s.active = false → s.program = q :: rest → jobOf i = some j →
    ((∃ w o, q = .command w o ∧ decodeCmd w o = .ok i ∧ busInstr i = true ∧ i.wf s.cfg = true) ∨
      (∃ b, q = .writeByte b ∧ i = .writeByte b) ∨ (q = .readByte ∧ i = .readByte)) →
      ∃ n, n ≤ j.microCount + 2 ∧ Host.Core.run core n s = exec i { s with program := rest }

/-- A line of a micro-program is exec of the micro-operation it names; an illegal or reserved PIN word is refused by name
(R70, R73). -/
def Obligations.MicroLinesRunTheirWord : Prop :=
  ∀ (s : State) (w : Byte) (rest : List Request),
    s.live = true → s.fault = none → s.active = false → s.program = .micro w :: rest →
      (∀ i, decodePin w = .ok i → step s = exec i { s with program := rest }) ∧
      (decodePin w = .error (.illegalPin w) → step s = .refused (.illegalPinWord w)) ∧
      (decodePin w = .error (.reservedPin w) → step s = .refused (.reservedPinWord w))

/-- The word presented by withFetchWord is the instruction the next step runs: a pin micro-operation at once, an operation or
a primitive by its issue. -/
def Obligations.FetchedWordRuns : Prop :=
  ∀ (s : State) (nbits w : Nat) (i : Instr), decodeTableWord nbits w = some i →
    (i.format = .pin → step (s.withFetchWord nbits w) = exec i { s.withFetchWord nbits w with program := s.program }) ∧
    (∀ j, jobOf i = some j →
      step (s.withFetchWord nbits w) = .next ({ s.withFetchWord nbits w with program := s.program }.issue j))

/-- R35, R117: while a command is in progress, or a primitive (log 5), a step leaves what the consumer presents next untouched,
and exec of a command has no effect; in particular while S.busy is 1. -/
def Obligations.BusyEngineTakesNoCommand : Prop :=
  (∀ s : State, s.busy = true → s.active = true) ∧
    (∀ s t : State, s.active = true → step s = .next t → t.program = s.program) ∧
    ∀ (i : Instr) (j : Job) (s : State), jobOf i = some j → s.live = true → s.fault = none → s.active = true →
      exec i s = .fault .commandWhileBusy

/-- R71: the command port refuses every word but the five bus operations': the engine stays idle, no pin event happens, and a
refusal is recorded. -/
def Obligations.PortRefusesOtherWords : Prop :=
  ∀ (s : State) (w : Byte) (o : Operands) (rest : List Request),
    s.live = true → s.fault = none → s.active = false → s.program = .command w o :: rest →
    w ∉ [(0x01 : Byte), 0x02, 0x03, 0x04, 0x05] →
      step s = .next { s with program := rest, replies := s.replies ++ [.refused w] }

/-- R72: a command with a buffer longer than MAX_LEN is refused, at the port and by exec; with MAX_LEN unbounded a command with
buffers of any length is issued at the port and completed by exec. The refusal's record is the model's form (log 12). -/
def Obligations.OverlongBufferIsRefused : Prop :=
  (∀ (s : State) (m : Nat) (i : Instr) (j : Job) (rest : List Request), s.live = true → s.fault = none → s.active = false →
    s.cfg.maxLen = some m → busInstr i = true → jobOf i = some j → (m < j.r.len ∨ m < j.w.len ∨ m < j.x.len) →
      exec i s = .next { s with replies := s.replies ++ [.refused (encode i)] } ∧
      (s.program = .command (encode i) i.operands :: rest →
        step s = .next { s with program := rest, replies := s.replies ++ [.refused (encode i)] })) ∧
  ∀ (s : State) (i : Instr) (j : Job), s.cfg.maxLen = none → busInstr i = true → jobOf i = some j → s.live = true →
    s.fault = none → s.active = false →
      (∀ rest, s.program = .command (encode i) i.operands :: rest →
        step s = .next (State.issue { s with program := rest } j)) ∧
      (i.wf s.cfg = true → s.ReadyFor j.pinCount →
        ∃ t r x, exec i s = .next t ∧ t.replies = s.replies ++ [.done .ok r x])

/-- R151: an idle engine to which nothing is presented waits. -/
def Obligations.IdleEngineWaits : Prop :=
  ∀ s : State, s.fault = none → s.active = false → s.program = [] → step s = .next s

/-! ## Reset, lifetime and views -/

/-- R40: the values the spec gives for reset. -/
def Obligations.ResetValues : Prop :=
  State.reset.clk = true ∧ State.reset.ddir = .unset ∧ State.reset.dout = .unknown ∧ State.reset.wire = .unknown ∧
    State.reset.busy = false ∧ State.reset.seq = .idle ∧ State.reset.dcnt = 0 ∧
    State.reset.trace = [⟨0x02, none⟩] ∧ State.reset.fault = none

/-- R150: construction, on pins in any state: with a driver that does not panic it drives CLK high as its one event and leaves
DATA UNSET and UNKNOWN, the engine idle and without a fault; with one that may panic and does (R81), DriverPanic(0x02) is
raised and CLK and the trace are as before the one micro-operation. -/
def Obligations.ConstructionEstablishesIdle : Prop :=
  ∀ (s : State) (rest : List Request), s.live = false → s.fault = none → s.active = false →
    s.program = .construct :: rest →
      ((s.cfg.driverMayPanic = true → s.panicNow = false) →
        ∃ t, step s = .next t ∧ t.live = true ∧ t.clk = true ∧ t.ddir = .unset ∧ t.dout = .unknown ∧ t.busy = false ∧
          t.seq = .idle ∧ t.dcnt = 0 ∧ t.trace = [⟨0x02, none⟩] ∧ t.fault = none ∧ t.cfg = s.cfg ∧ t.program = rest ∧
          t.replies = s.replies ∧ t.samples = s.samples) ∧
      (s.cfg.driverMayPanic = true → s.panicNow = true →
        ∃ t, step s = .next t ∧ t.fault = some (.driverPanic 0x02) ∧ t.clk = s.clk ∧ t.ddir = .unset ∧ t.dout = .unknown ∧
          t.busy = false ∧ t.seq = .idle ∧ t.dcnt = 0 ∧ t.trace = [] ∧ t.cfg = s.cfg ∧ t.program = rest ∧
          t.replies = s.replies ∧ t.samples = s.samples)

/-- R153: dropping an idle engine performs no micro-operation and leaves the pins as they are; after it the engine takes no
command. -/
def Obligations.DropLeavesPins : Prop :=
  ∀ (s : State) (rest : List Request), s.live = true → s.fault = none → s.active = false → s.program = .drop :: rest →
    ∃ t, step s = .next t ∧ t.live = false ∧ t.lines = s.lines ∧ t.trace = s.trace ∧ t.replies = s.replies ∧
      t.program = rest ∧ ∀ i, exec i t = .fault .noEngine

/-- R29: the PINS view, bit by bit, and its value after reset. -/
def Obligations.PinsViewBits : Prop :=
  (∀ s : State,
    s.pins.getLsbD 0 = s.clk ∧ s.pins.getLsbD 1 = decide (s.ddir = .out) ∧ s.pins.getLsbD 2 = decide (s.dout = .high) ∧
    s.pins.getLsbD 3 = decide (s.ddir ≠ .unset) ∧ s.pins.getLsbD 4 = decide (s.dout ≠ .unknown) ∧
    s.pins.getLsbD 5 = s.busy ∧ s.pins.getLsbD 6 = s.fault.isSome ∧ s.pins.getLsbD 7 = false) ∧
  State.reset.pins = 0x01

/-- R22, R28: the DATA ports and what decides the level on the wire. -/
def Obligations.DataWireFollowsDirection : Prop :=
  ∀ s : State,
    (s.ddir = .out → s.dataOE = some true ∧ (s.dout = .high → s.wire = .driven true) ∧
      (s.dout = .low → s.wire = .driven false) ∧ (s.dout = .unknown → s.wire = .drivenUnknown)) ∧
    (s.ddir = .inp → s.dataOE = some false ∧ s.wire = .environment) ∧
    (s.ddir = .unset → s.dataOE = none ∧ s.wire = .unknown) ∧ s.dataO = s.dout

/-! ## Invariants and whole-machine rules -/

/-- R133, R152, R35: every step keeps the discipline: no mode violation is ever raised by the engine's own sequences, S.busy
marks commands only, CLK is high whenever the engine is idle, and at every position of the sequencer the lines are as its
micro-operation needs them. -/
def Obligations.StepKeepsDiscipline : Prop :=
  ∀ s t : State, s.Disciplined → step s = .next t → t.Disciplined

/-- The reset state meets the three invariants: the discipline (R40, R152), the trace that shows the lines, and the buffers'
canonical form. -/
def Obligations.ResetMeetsInvariants : Prop :=
  State.reset.Disciplined ∧ State.reset.TraceShowsLines ∧ State.reset.memWf = true

/-- R133: a disciplined engine whose driver does not panic never stops while its consumer presents commands: every step
gives a next state of the same kind, without a fault. -/
def Obligations.CommandsNeverStop : Prop :=
  ∀ s : State, s.Disciplined → s.live = true → s.cfg.driverMayPanic = false → s.fault = none →
    (∀ q ∈ s.program, ∃ w o, q = .command w o) →
      ∃ t, step s = .next t ∧ t.fault = none ∧ t.live = true ∧ t.cfg.driverMayPanic = false ∧ t.Disciplined ∧
        ∀ q ∈ t.program, ∃ w o, q = .command w o

/-- R34, R39, R70: the trace shows the lines: whatever runs, micro-programs and faults included, the line state is the one the
trace determines, and the trace never holds an illegal or reserved word. -/
def Obligations.StepKeepsTraceShowsLines : Prop :=
  ∀ s t : State, s.TraceShowsLines → step s = .next t → t.TraceShowsLines

/-- The buffers of every state stay in canonical form: what is lent, what is presented, what is given back (log 8). -/
def Obligations.StepKeepsBuffersCanonical : Prop :=
  ∀ s t : State, s.memWf = true → step s = .next t → t.memWf = true

/-- R37: no step writes the configuration. -/
def Obligations.StepKeepsConfig : Prop := ∀ s t : State, step s = .next t → t.cfg = s.cfg

/-- R55, R80: a step of an operation in progress appends exactly one event, the word of the micro-operation that its phase
names with the level drawn if it samples, or raises a fault and appends none, or completes the operation and appends none; an
idle engine's step on a command appends none. -/
def Obligations.StepAppendsOneEvent : Prop :=
  ∀ s t : State, step s = .next t →
    (s.active = true → ∀ p, s.seq = .pos p →
      (t.fault = none ∧
        t.trace = s.trace ++ [⟨encode (phaseInstr p s), if p.phase = .rbSample then some s.dataIn else none⟩]) ∨
      (t.fault.isSome = true ∧ t.trace = s.trace ∧ t.seq = s.seq)) ∧
    (s.active = true → s.seq = .idle → t.trace = s.trace ∧ t.active = false) ∧
    (s.active = false → ∀ w o rest, s.program = .command w o :: rest → t.trace = s.trace ∧ t.lines = s.lines)

/-- R94: nothing but the configuration itself depends on DELAY_ITERS: with another value every instruction and every step has
the same outcome. -/
def Obligations.DelayItersIsInvisible : Prop :=
  ∀ (s : State) (n : Nat),
    (∀ i, exec i (s.withDelay n) = mapNext (·.withDelay n) (exec i s)) ∧
      step (s.withDelay n) = mapNext (·.withDelay n) (step s)

/-! ## Timing and syntax -/

/-- R165: the lower bounds between the clock edges, data changes and samples of one byte. -/
def Obligations.EdgeTimingBounds : Prop :=
  ∀ (cfg : Config) (d : Durations) (start : ℚ) (ts : List ℚ),
    (∀ b : Byte, TimedFrom cfg d start (writeEvents b) ts →
      (∀ j, j < 8 →
        ts.getD (6 * j + 3) 0 + (d.tDelay cfg + d.tPin) ≤ ts.getD (6 * j + 5) 0 ∧
        ts.getD (6 * j + 1) 0 + (d.tDelay cfg + d.tPin) ≤ ts.getD (6 * j + 3) 0 ∧
        ts.getD (6 * j + 1) 0 + (2 * d.tDelay cfg + 2 * d.tPin) ≤ ts.getD (6 * j + 5) 0) ∧
      ∀ j, j < 7 →
        ts.getD (6 * j + 5) 0 + (2 * d.tDelay cfg + 2 * d.tPin) ≤ ts.getD (6 * j + 9) 0 ∧
        ts.getD (6 * j + 5) 0 + (d.tDelay cfg + d.tPin) ≤ ts.getD (6 * j + 7) 0 ∧
        ts.getD (6 * j + 5) 0 + (3 * d.tDelay cfg + 3 * d.tPin) ≤ ts.getD (6 * j + 11) 0) ∧
    ∀ lvs : List Level, lvs.length = 8 → TimedFrom cfg d start (readEvents lvs) ts →
      (∀ j, j < 8 →
        ts.getD (5 * j + 1) 0 + (d.tDelay cfg + d.tPin) ≤ ts.getD (5 * j + 3) 0 ∧
        ts.getD (5 * j + 3) 0 + (d.tDelay cfg + d.tPin) ≤ ts.getD (5 * j + 5) 0) ∧
      ∀ j, j < 7 →
        ts.getD (5 * j + 3) 0 + (d.tDelay cfg + 2 * d.tPin) ≤ ts.getD (5 * j + 6) 0 ∧
        ts.getD (5 * j + 5) 0 + d.tPin ≤ ts.getD (5 * j + 6) 0 ∧
        ts.getD (5 * j + 3) 0 + (2 * d.tDelay cfg + 3 * d.tPin) ≤ ts.getD (5 * j + 8) 0

/-- R10, R164, R166: the lower bounds of the durations of the primitives, that a run of events takes the sum over its parts, and
that a timed trace gives each event one time, none before the start or before the time of an earlier event. -/
def Obligations.PrimitiveDurations : Prop :=
  ∀ (cfg : Config) (d : Durations) (start : ℚ) (ts : List ℚ) (last : ℚ),
    (∀ b : Byte, TimedFrom cfg d start (writeEvents b) ts → ts.getLast? = some last →
      start + (24 * d.tDelay cfg + 25 * d.tPin) ≤ last) ∧
    (∀ lvs : List Level, lvs.length = 8 → TimedFrom cfg d start (readEvents lvs) ts → ts.getLast? = some last →
      start + (16 * d.tDelay cfg + 25 * d.tPin) ≤ last) ∧
    (∀ ev ev' : List PinEvent, d.total cfg (ev ++ ev') = d.total cfg ev + d.total cfg ev') ∧
    (∀ ev : List PinEvent, TimedFrom cfg d start ev ts → ts.getLast? = some last → start + d.total cfg ev ≤ last) ∧
    ∀ ev : List PinEvent, TimedFrom cfg d start ev ts → ts.length = ev.length ∧ (start :: ts).Pairwise (· ≤ ·)

/-- R78: each pseudo-instruction presents exactly what its expansion presents. -/
def Obligations.PseudoInstructionsExpand : Prop :=
  Line.nop.request = Line.flush.request ∧ (∀ b, (Line.wr8 b).request = (Line.write [b]).request) ∧
    Line.rd8.request = (Line.read 1).request ∧ ∀ b, (Line.xfer8 b).request = (Line.transferInPlace [b]).request
end

