-- ==== Sys2Proof/Laws/Memory.lean ====
section
/-! SUPPORT. The buffers: a read after a write, and that every buffer operation keeps the canonical form. -/

namespace Sys2Proof

/-- The canonical form from an index on is one from every lower index on. -/
theorem Memory.wfFrom_weaken {m : Memory} {l l' : Nat} (hm : m.wfFrom l = true) (hl : l' ≤ l) : m.wfFrom l' = true := by
  cases m with
  | nil => rfl
  | cons d tail =>
    simp only [Memory.wfFrom, Bool.and_eq_true, decide_eq_true_eq] at hm ⊢
    exact ⟨⟨by omega, hm.1.2⟩, hm.2⟩

/-- Below its first index a memory reads 0. -/
theorem Memory.read_below {m : Memory} {l x : Nat} (hm : m.wfFrom l = true) (hx : x < l) : m.read x = 0 := by
  induction m generalizing l with
  | nil => rfl
  | cons d tail ih =>
    simp only [Memory.wfFrom, Bool.and_eq_true, decide_eq_true_eq] at hm
    have hne : d.1 ≠ x := by omega
    simp only [Memory.read, hne, if_false]
    exact ih hm.2 (by omega)

/-- A read after a write: the byte written at its index, every other byte as before. -/
theorem Memory.read_write (m : Memory) (a b : Nat) (v : Byte) (lo : Nat) (h : m.wfFrom lo = true) :
    (m.write a v).read b = if b = a then v else m.read b := by
  induction m generalizing lo with
  | nil =>
    by_cases hv : v = 0
    · simp [Memory.write, Memory.read, hv]
    · have hv' : ¬ v = 0#8 := hv
      by_cases hb : b = a
      · simp [Memory.write, Memory.read, hb, hv']
      · simp [Memory.write, Memory.read, hb, hv', Ne.symm hb]
  | cons c rest ih =>
    simp only [Memory.wfFrom, Bool.and_eq_true, decide_eq_true_eq] at h
    have tail : ∀ x, x ≤ c.1 → Memory.read rest x = 0 := fun x hx => Memory.read_below h.2 (by omega)
    unfold Memory.write
    split
    · next hlt =>
      split
      · by_cases hb : b = a
        · subst hb
          have hne : c.1 ≠ b := by omega
          simp_all [Memory.read, tail b (by omega)]
        · simp [hb]
      · by_cases hb : b = a
        · subst hb; simp [Memory.read]
        · simp [Memory.read, hb, Ne.symm hb]
    · split
      · next heq =>
        split
        · by_cases hb : b = a
          · subst hb; simp_all [tail b (by omega)]
          · simp [Memory.read, hb, heq, Ne.symm hb]
        · by_cases hb : b = a
          · subst hb; simp [Memory.read]
          · simp [Memory.read, hb, heq, Ne.symm hb]
      · by_cases hc : c.1 = b
        · have hb : b ≠ a := by omega
          simp [Memory.read, hc, hb]
        · simp [Memory.read, hc, ih _ h.2]

/-- A write leaves every other index as it was, whatever the cells. -/
theorem Memory.read_write_ne (m : Memory) {a b : Nat} (v : Byte) (h : b ≠ a) : (m.write a v).read b = m.read b := by
  induction m with
  | nil =>
    rw [Memory.write]
    split_ifs
    · rfl
    · simp [Memory.read, Ne.symm h]
  | cons c m ih =>
    simp only [Memory.write]
    split_ifs with h1 h2 h2 h3
    · rfl
    · simp [Memory.read, Ne.symm h]
    · simp [Memory.read, h2, Ne.symm h]
    · simp [Memory.read, h2, Ne.symm h]
    · simp [Memory.read, ih]

theorem Memory.write_wfFrom (m : Memory) (a : Nat) (v : Byte) (lo : Nat) (h : m.wfFrom lo = true) (ha : lo ≤ a) :
    (m.write a v).wfFrom lo = true := by
  induction m generalizing lo with
  | nil => by_cases hv : v = 0 <;> simp_all [Memory.write, Memory.wfFrom]
  | cons c rest ih =>
    have hc := h
    simp only [Memory.wfFrom, Bool.and_eq_true, decide_eq_true_eq] at h
    unfold Memory.write
    split
    · split
      · exact hc
      · next hlt hv => simp_all [Memory.wfFrom]
    · split
      · next heq =>
        split
        · exact Memory.wfFrom_weaken h.2 (by omega)
        · next hv => simp_all [Memory.wfFrom]
      · simp only [Memory.wfFrom, Bool.and_eq_true, decide_eq_true_eq]
        exact ⟨h.1, ih _ h.2 (by omega)⟩

theorem Memory.write_lt (m : Memory) (a : Nat) (v : Byte) (n : Nat) (h : ∀ c ∈ m, c.1 < n) (ha : a < n) :
    ∀ c ∈ m.write a v, c.1 < n := by
  induction m with
  | nil => by_cases hv : v = 0 <;> simp_all [Memory.write]
  | cons d rest ih =>
    have hd := h d (by simp)
    have hr : ∀ c ∈ rest, c.1 < n := fun c hc => h c (by simp [hc])
    unfold Memory.write
    split
    · split
      · exact h
      · intro c hc; rcases List.mem_cons.1 hc with rfl | hc
        · exact ha
        · exact h c hc
    · split
      · split
        · exact hr
        · intro c hc; rcases List.mem_cons.1 hc with rfl | hc
          · exact ha
          · exact hr c hc
      · intro c hc; rcases List.mem_cons.1 hc with rfl | hc
        · exact hd
        · exact ih hr c hc

/-- A write that answers stores one byte within the length and leaves the length and every other byte. -/
theorem Buffer.write_spec {b b' : Buffer} {i : Nat} {v : Byte} (hw : b.wf = true) (h : b.write i v = some b') :
    i < b.len ∧ b'.len = b.len ∧ b'.wf = true ∧ ∀ j, b'.read j = if j = i then some v else b.read j := by
  unfold Buffer.write at h
  split at h
  · next hi =>
    cases h
    simp only [Buffer.wf, Memory.wf, Bool.and_eq_true, List.all_eq_true, decide_eq_true_eq] at hw ⊢
    refine ⟨hi, trivial, ⟨Memory.write_wfFrom _ _ _ _ hw.1 (by omega), Memory.write_lt _ _ _ _ hw.2 hi⟩, fun j => ?_⟩
    by_cases hj : j = i
    · subst hj; simp [Buffer.read, hi, Memory.read_write _ _ _ _ _ hw.1]
    · simp [Buffer.read, hj, Memory.read_write _ _ _ _ _ hw.1]
  · cases h

/-- A write that happens keeps the length and every other index, whatever the buffer's cells. -/
theorem Buffer.write_keeps {b b' : Buffer} {i : Nat} {v : Byte} (h : b.write i v = some b') :
    b'.len = b.len ∧ ∀ a, a ≠ i → b'.read a = b.read a := by
  simp only [Buffer.write] at h
  split at h
  · cases h
    exact ⟨rfl, fun a ha => by simp [Buffer.read, Memory.read_write_ne _ _ ha]⟩
  · cases h

/-- A write within the length answers. -/
theorem Buffer.write_isSome {b : Buffer} {i : Nat} (v : Byte) (h : i < b.len) : (b.write i v).isSome = true := by
  simp [Buffer.write, h]

/-- A read answers within the length and nowhere else. -/
theorem Buffer.read_isSome (b : Buffer) (i : Nat) : (b.read i).isSome = true ↔ i < b.len := by
  unfold Buffer.read; split <;> simp_all

theorem Buffer.toBytes_length (b : Buffer) : b.toBytes.length = b.len := by simp [Buffer.toBytes]

/-- The i-th byte of the sequence is the one a read gives. -/
theorem Buffer.toBytes_getElem? (b : Buffer) (i : Nat) : b.toBytes[i]? = b.read i := by
  unfold Buffer.toBytes Buffer.read
  by_cases h : i < b.len <;> simp [h]

theorem Memory.ofBytes_low (l : List Byte) (i : Nat) : (Memory.ofBytes i l).wfFrom i = true := by
  induction l generalizing i with
  | nil => rfl
  | cons v rest ih =>
    unfold Memory.ofBytes
    split
    · exact Memory.wfFrom_weaken (ih (i + 1)) (by omega)
    · next hv =>
      have hv' : ¬ v = 0#8 := hv
      simp [Memory.wfFrom, ih (i + 1), hv']

theorem Memory.ofBytes_lt (l : List Byte) (i : Nat) : ∀ c ∈ Memory.ofBytes i l, c.1 < i + l.length := by
  induction l generalizing i with
  | nil => simp [Memory.ofBytes]
  | cons v rest ih =>
    have := ih (i + 1)
    unfold Memory.ofBytes
    split
    · intro c hc; have := this c hc; simp; omega
    · intro c hc; rcases List.mem_cons.1 hc with rfl | hc
      · simp
      · have := this c hc; simp; omega

theorem Memory.ofBytes_read (l : List Byte) (i j : Nat) (v : Byte) (h : l[j]? = some v) :
    (Memory.ofBytes i l).read (i + j) = v := by
  induction l generalizing i j with
  | nil => simp at h
  | cons u rest ih =>
    cases j with
    | zero =>
      simp at h; subst h
      unfold Memory.ofBytes
      split
      · next hu => subst hu; exact Memory.read_below (Memory.ofBytes_low rest (i + 1)) (by omega)
      · simp [Memory.read]
    | succ j =>
      simp at h
      have e : i + (j + 1) = (i + 1) + j := by omega
      unfold Memory.ofBytes
      split
      · rw [e]; exact ih _ _ h
      · have hne : i ≠ i + (j + 1) := by omega
        simp only [Memory.read, hne, if_false]
        rw [e]; exact ih _ _ h

/-- A buffer made from a sequence of bytes is in canonical form. -/
theorem Buffer.ofBytes_wf (l : List Byte) : (Buffer.ofBytes l).wf = true := by
  have h := Memory.ofBytes_lt l 0
  simp only [Nat.zero_add] at h
  simp only [Buffer.wf, Buffer.ofBytes, Memory.wf, Bool.and_eq_true, List.all_eq_true]
  exact ⟨Memory.ofBytes_low l 0, fun c hc => decide_eq_true (h c hc)⟩

/-- A buffer made from a sequence of bytes reads as that sequence. -/
theorem Buffer.ofBytes_read (l : List Byte) (i : Nat) : (Buffer.ofBytes l).read i = l[i]? := by
  unfold Buffer.ofBytes Buffer.read
  by_cases h : i < l.length
  · have := Memory.ofBytes_read l 0 i l[i] (by simp [h])
    simp [h] at this ⊢; exact this
  · simp [h]

end Sys2Proof
end

