-- ==== Sys2Proof/Laws/State.lean ====
section
/-! SUPPORT. What each named update of the state leaves in each field. -/

namespace Sys2Proof.Machine

variable (s : State)

/-! The update emit. -/

@[simp] theorem State.emit_clk (w : Byte) (lv : Option Level) : (s.emit w lv).clk = s.clk := rfl
@[simp] theorem State.emit_ddir (w : Byte) (lv : Option Level) : (s.emit w lv).ddir = s.ddir := rfl
@[simp] theorem State.emit_dout (w : Byte) (lv : Option Level) : (s.emit w lv).dout = s.dout := rfl
@[simp] theorem State.emit_busy (w : Byte) (lv : Option Level) : (s.emit w lv).busy = s.busy := rfl
@[simp] theorem State.emit_seq (w : Byte) (lv : Option Level) : (s.emit w lv).seq = s.seq := rfl
@[simp] theorem State.emit_tx (w : Byte) (lv : Option Level) : (s.emit w lv).tx = s.tx := rfl
@[simp] theorem State.emit_rx (w : Byte) (lv : Option Level) : (s.emit w lv).rx = s.rx := rfl
@[simp] theorem State.emit_k (w : Byte) (lv : Option Level) : (s.emit w lv).k = s.k := rfl
@[simp] theorem State.emit_dcnt (w : Byte) (lv : Option Level) : (s.emit w lv).dcnt = s.dcnt := rfl
@[simp] theorem State.emit_trace (w : Byte) (lv : Option Level) : (s.emit w lv).trace = s.trace ++ [⟨w, lv⟩] := rfl
@[simp] theorem State.emit_fault (w : Byte) (lv : Option Level) : (s.emit w lv).fault = s.fault := rfl
@[simp] theorem State.emit_job (w : Byte) (lv : Option Level) : (s.emit w lv).job = s.job := rfl
@[simp] theorem State.emit_ret (w : Byte) (lv : Option Level) : (s.emit w lv).ret = s.ret := rfl
@[simp] theorem State.emit_live (w : Byte) (lv : Option Level) : (s.emit w lv).live = s.live := rfl
@[simp] theorem State.emit_cfg (w : Byte) (lv : Option Level) : (s.emit w lv).cfg = s.cfg := rfl
@[simp] theorem State.emit_samples (w : Byte) (lv : Option Level) : (s.emit w lv).samples = s.samples := rfl
@[simp] theorem State.emit_panics (w : Byte) (lv : Option Level) : (s.emit w lv).panics = s.panics := rfl
@[simp] theorem State.emit_program (w : Byte) (lv : Option Level) : (s.emit w lv).program = s.program := rfl
@[simp] theorem State.emit_replies (w : Byte) (lv : Option Level) : (s.emit w lv).replies = s.replies := rfl

/-! The update raise. -/

@[simp] theorem State.raise_clk (r : FaultReason) : (s.raise r).clk = s.clk := rfl
@[simp] theorem State.raise_ddir (r : FaultReason) : (s.raise r).ddir = s.ddir := rfl
@[simp] theorem State.raise_dout (r : FaultReason) : (s.raise r).dout = s.dout := rfl
@[simp] theorem State.raise_busy (r : FaultReason) : (s.raise r).busy = s.busy := rfl
@[simp] theorem State.raise_seq (r : FaultReason) : (s.raise r).seq = s.seq := rfl
@[simp] theorem State.raise_tx (r : FaultReason) : (s.raise r).tx = s.tx := rfl
@[simp] theorem State.raise_rx (r : FaultReason) : (s.raise r).rx = s.rx := rfl
@[simp] theorem State.raise_k (r : FaultReason) : (s.raise r).k = s.k := rfl
@[simp] theorem State.raise_dcnt (r : FaultReason) : (s.raise r).dcnt = s.dcnt := rfl
@[simp] theorem State.raise_trace (r : FaultReason) : (s.raise r).trace = s.trace := rfl
@[simp] theorem State.raise_fault (r : FaultReason) : (s.raise r).fault = some r := rfl
@[simp] theorem State.raise_job (r : FaultReason) : (s.raise r).job = s.job := rfl
@[simp] theorem State.raise_ret (r : FaultReason) : (s.raise r).ret = s.ret := rfl
@[simp] theorem State.raise_live (r : FaultReason) : (s.raise r).live = s.live := rfl
@[simp] theorem State.raise_cfg (r : FaultReason) : (s.raise r).cfg = s.cfg := rfl
@[simp] theorem State.raise_samples (r : FaultReason) : (s.raise r).samples = s.samples := rfl
@[simp] theorem State.raise_panics (r : FaultReason) : (s.raise r).panics = s.panics := rfl
@[simp] theorem State.raise_program (r : FaultReason) : (s.raise r).program = s.program := rfl
@[simp] theorem State.raise_replies (r : FaultReason) : (s.raise r).replies = s.replies := rfl

/-! The update drawn. -/

@[simp] theorem State.drawn_clk : (s.drawn).clk = s.clk := rfl
@[simp] theorem State.drawn_ddir : (s.drawn).ddir = s.ddir := rfl
@[simp] theorem State.drawn_dout : (s.drawn).dout = s.dout := rfl
@[simp] theorem State.drawn_busy : (s.drawn).busy = s.busy := rfl
@[simp] theorem State.drawn_seq : (s.drawn).seq = s.seq := rfl
@[simp] theorem State.drawn_tx : (s.drawn).tx = s.tx := rfl
@[simp] theorem State.drawn_rx : (s.drawn).rx = s.rx := rfl
@[simp] theorem State.drawn_k : (s.drawn).k = s.k := rfl
@[simp] theorem State.drawn_dcnt : (s.drawn).dcnt = s.dcnt := rfl
@[simp] theorem State.drawn_trace : (s.drawn).trace = s.trace := rfl
@[simp] theorem State.drawn_fault : (s.drawn).fault = s.fault := rfl
@[simp] theorem State.drawn_job : (s.drawn).job = s.job := rfl
@[simp] theorem State.drawn_ret : (s.drawn).ret = s.ret := rfl
@[simp] theorem State.drawn_live : (s.drawn).live = s.live := rfl
@[simp] theorem State.drawn_cfg : (s.drawn).cfg = s.cfg := rfl
@[simp] theorem State.drawn_samples : (s.drawn).samples = s.samples.skip 1 := rfl
@[simp] theorem State.drawn_panics : (s.drawn).panics = s.panics := rfl
@[simp] theorem State.drawn_program : (s.drawn).program = s.program := rfl
@[simp] theorem State.drawn_replies : (s.drawn).replies = s.replies := rfl

/-! The update panicDrawn. -/

@[simp] theorem State.panicDrawn_clk : (s.panicDrawn).clk = s.clk := rfl
@[simp] theorem State.panicDrawn_ddir : (s.panicDrawn).ddir = s.ddir := rfl
@[simp] theorem State.panicDrawn_dout : (s.panicDrawn).dout = s.dout := rfl
@[simp] theorem State.panicDrawn_busy : (s.panicDrawn).busy = s.busy := rfl
@[simp] theorem State.panicDrawn_seq : (s.panicDrawn).seq = s.seq := rfl
@[simp] theorem State.panicDrawn_tx : (s.panicDrawn).tx = s.tx := rfl
@[simp] theorem State.panicDrawn_rx : (s.panicDrawn).rx = s.rx := rfl
@[simp] theorem State.panicDrawn_k : (s.panicDrawn).k = s.k := rfl
@[simp] theorem State.panicDrawn_dcnt : (s.panicDrawn).dcnt = s.dcnt := rfl
@[simp] theorem State.panicDrawn_trace : (s.panicDrawn).trace = s.trace := rfl
@[simp] theorem State.panicDrawn_fault : (s.panicDrawn).fault = s.fault := rfl
@[simp] theorem State.panicDrawn_job : (s.panicDrawn).job = s.job := rfl
@[simp] theorem State.panicDrawn_ret : (s.panicDrawn).ret = s.ret := rfl
@[simp] theorem State.panicDrawn_live : (s.panicDrawn).live = s.live := rfl
@[simp] theorem State.panicDrawn_cfg : (s.panicDrawn).cfg = s.cfg := rfl
@[simp] theorem State.panicDrawn_samples : (s.panicDrawn).samples = s.samples := rfl
@[simp] theorem State.panicDrawn_panics : (s.panicDrawn).panics = s.panics.skip 1 := rfl
@[simp] theorem State.panicDrawn_program : (s.panicDrawn).program = s.program := rfl
@[simp] theorem State.panicDrawn_replies : (s.panicDrawn).replies = s.replies := rfl

/-! The update advance. -/

@[simp] theorem State.advance_clk (p : Pos) : (s.advance p).clk = s.clk := rfl
@[simp] theorem State.advance_ddir (p : Pos) : (s.advance p).ddir = s.ddir := rfl
@[simp] theorem State.advance_dout (p : Pos) : (s.advance p).dout = s.dout := rfl
@[simp] theorem State.advance_busy (p : Pos) : (s.advance p).busy = s.busy := rfl
@[simp] theorem State.advance_seq (p : Pos) : (s.advance p).seq = s.job.nextSeq p := rfl
@[simp] theorem State.advance_tx (p : Pos) : (s.advance p).tx = s.tx := rfl
@[simp] theorem State.advance_rx (p : Pos) : (s.advance p).rx = s.rx := rfl
@[simp] theorem State.advance_k (p : Pos) : (s.advance p).k = s.k := rfl
@[simp] theorem State.advance_dcnt (p : Pos) : (s.advance p).dcnt = s.dcnt := rfl
@[simp] theorem State.advance_trace (p : Pos) : (s.advance p).trace = s.trace := rfl
@[simp] theorem State.advance_fault (p : Pos) : (s.advance p).fault = s.fault := rfl
@[simp] theorem State.advance_job (p : Pos) : (s.advance p).job = s.job := rfl
@[simp] theorem State.advance_ret (p : Pos) : (s.advance p).ret = s.ret := rfl
@[simp] theorem State.advance_live (p : Pos) : (s.advance p).live = s.live := rfl
@[simp] theorem State.advance_cfg (p : Pos) : (s.advance p).cfg = s.cfg := rfl
@[simp] theorem State.advance_samples (p : Pos) : (s.advance p).samples = s.samples := rfl
@[simp] theorem State.advance_panics (p : Pos) : (s.advance p).panics = s.panics := rfl
@[simp] theorem State.advance_program (p : Pos) : (s.advance p).program = s.program := rfl
@[simp] theorem State.advance_replies (p : Pos) : (s.advance p).replies = s.replies := rfl

/-! The update issue. -/

@[simp] theorem State.issue_clk (j : Job) : (s.issue j).clk = s.clk := rfl
@[simp] theorem State.issue_ddir (j : Job) : (s.issue j).ddir = s.ddir := rfl
@[simp] theorem State.issue_dout (j : Job) : (s.issue j).dout = s.dout := rfl
@[simp] theorem State.issue_busy (j : Job) : (s.issue j).busy = !j.op.internal := rfl
@[simp] theorem State.issue_seq (j : Job) : (s.issue j).seq = j.start := rfl
@[simp] theorem State.issue_tx (j : Job) : (s.issue j).tx = s.tx := rfl
@[simp] theorem State.issue_rx (j : Job) : (s.issue j).rx = s.rx := rfl
@[simp] theorem State.issue_k (j : Job) : (s.issue j).k = s.k := rfl
@[simp] theorem State.issue_dcnt (j : Job) : (s.issue j).dcnt = s.dcnt := rfl
@[simp] theorem State.issue_trace (j : Job) : (s.issue j).trace = s.trace := rfl
@[simp] theorem State.issue_fault (j : Job) : (s.issue j).fault = s.fault := rfl
@[simp] theorem State.issue_job (j : Job) : (s.issue j).job = j := rfl
@[simp] theorem State.issue_ret (j : Job) : (s.issue j).ret = s.ret := rfl
@[simp] theorem State.issue_live (j : Job) : (s.issue j).live = s.live := rfl
@[simp] theorem State.issue_cfg (j : Job) : (s.issue j).cfg = s.cfg := rfl
@[simp] theorem State.issue_samples (j : Job) : (s.issue j).samples = s.samples := rfl
@[simp] theorem State.issue_panics (j : Job) : (s.issue j).panics = s.panics := rfl
@[simp] theorem State.issue_program (j : Job) : (s.issue j).program = s.program := rfl
@[simp] theorem State.issue_replies (j : Job) : (s.issue j).replies = s.replies := rfl

/-! The update complete. -/

@[simp] theorem State.complete_clk : (s.complete).clk = s.clk := rfl
@[simp] theorem State.complete_ddir : (s.complete).ddir = s.ddir := rfl
@[simp] theorem State.complete_dout : (s.complete).dout = s.dout := rfl
@[simp] theorem State.complete_busy : (s.complete).busy = false := rfl
@[simp] theorem State.complete_seq : (s.complete).seq = .idle := rfl
@[simp] theorem State.complete_tx : (s.complete).tx = s.tx := rfl
@[simp] theorem State.complete_rx : (s.complete).rx = s.rx := rfl
@[simp] theorem State.complete_k : (s.complete).k = s.k := rfl
@[simp] theorem State.complete_dcnt : (s.complete).dcnt = s.dcnt := rfl
@[simp] theorem State.complete_trace : (s.complete).trace = s.trace := rfl
@[simp] theorem State.complete_fault : (s.complete).fault = s.fault := rfl
@[simp] theorem State.complete_job : (s.complete).job = Job.idle := rfl
@[simp] theorem State.complete_ret : (s.complete).ret = s.ret := rfl
@[simp] theorem State.complete_live : (s.complete).live = s.live := rfl
@[simp] theorem State.complete_cfg : (s.complete).cfg = s.cfg := rfl
@[simp] theorem State.complete_samples : (s.complete).samples = s.samples := rfl
@[simp] theorem State.complete_panics : (s.complete).panics = s.panics := rfl
@[simp] theorem State.complete_program : (s.complete).program = s.program := rfl
@[simp] theorem State.complete_replies : (s.complete).replies = s.replies ++ s.job.reply.toList := rfl

/-! The update refuse. -/

@[simp] theorem State.refuse_clk (w : Byte) : (s.refuse w).clk = s.clk := rfl
@[simp] theorem State.refuse_ddir (w : Byte) : (s.refuse w).ddir = s.ddir := rfl
@[simp] theorem State.refuse_dout (w : Byte) : (s.refuse w).dout = s.dout := rfl
@[simp] theorem State.refuse_busy (w : Byte) : (s.refuse w).busy = s.busy := rfl
@[simp] theorem State.refuse_seq (w : Byte) : (s.refuse w).seq = s.seq := rfl
@[simp] theorem State.refuse_tx (w : Byte) : (s.refuse w).tx = s.tx := rfl
@[simp] theorem State.refuse_rx (w : Byte) : (s.refuse w).rx = s.rx := rfl
@[simp] theorem State.refuse_k (w : Byte) : (s.refuse w).k = s.k := rfl
@[simp] theorem State.refuse_dcnt (w : Byte) : (s.refuse w).dcnt = s.dcnt := rfl
@[simp] theorem State.refuse_trace (w : Byte) : (s.refuse w).trace = s.trace := rfl
@[simp] theorem State.refuse_fault (w : Byte) : (s.refuse w).fault = s.fault := rfl
@[simp] theorem State.refuse_job (w : Byte) : (s.refuse w).job = s.job := rfl
@[simp] theorem State.refuse_ret (w : Byte) : (s.refuse w).ret = s.ret := rfl
@[simp] theorem State.refuse_live (w : Byte) : (s.refuse w).live = s.live := rfl
@[simp] theorem State.refuse_cfg (w : Byte) : (s.refuse w).cfg = s.cfg := rfl
@[simp] theorem State.refuse_samples (w : Byte) : (s.refuse w).samples = s.samples := rfl
@[simp] theorem State.refuse_panics (w : Byte) : (s.refuse w).panics = s.panics := rfl
@[simp] theorem State.refuse_program (w : Byte) : (s.refuse w).program = s.program := rfl
@[simp] theorem State.refuse_replies (w : Byte) : (s.refuse w).replies = s.replies ++ [.refused w] := rfl

/-! The update blank. -/

@[simp] theorem State.blank_clk : (s.blank).clk = s.clk := rfl
@[simp] theorem State.blank_ddir : (s.blank).ddir = .unset := rfl
@[simp] theorem State.blank_dout : (s.blank).dout = .unknown := rfl
@[simp] theorem State.blank_busy : (s.blank).busy = false := rfl
@[simp] theorem State.blank_seq : (s.blank).seq = .idle := rfl
@[simp] theorem State.blank_tx : (s.blank).tx = 0 := rfl
@[simp] theorem State.blank_rx : (s.blank).rx = 0 := rfl
@[simp] theorem State.blank_k : (s.blank).k = 0 := rfl
@[simp] theorem State.blank_dcnt : (s.blank).dcnt = 0 := rfl
@[simp] theorem State.blank_trace : (s.blank).trace = [] := rfl
@[simp] theorem State.blank_fault : (s.blank).fault = none := rfl
@[simp] theorem State.blank_job : (s.blank).job = Job.idle := rfl
@[simp] theorem State.blank_ret : (s.blank).ret = false := rfl
@[simp] theorem State.blank_live : (s.blank).live = true := rfl
@[simp] theorem State.blank_cfg : (s.blank).cfg = s.cfg := rfl
@[simp] theorem State.blank_samples : (s.blank).samples = s.samples := rfl
@[simp] theorem State.blank_panics : (s.blank).panics = s.panics := rfl
@[simp] theorem State.blank_program : (s.blank).program = s.program := rfl
@[simp] theorem State.blank_replies : (s.blank).replies = s.replies := rfl

/-! The update dropped. -/

@[simp] theorem State.dropped_clk : (s.dropped).clk = s.clk := rfl
@[simp] theorem State.dropped_ddir : (s.dropped).ddir = s.ddir := rfl
@[simp] theorem State.dropped_dout : (s.dropped).dout = s.dout := rfl
@[simp] theorem State.dropped_busy : (s.dropped).busy = s.busy := rfl
@[simp] theorem State.dropped_seq : (s.dropped).seq = s.seq := rfl
@[simp] theorem State.dropped_tx : (s.dropped).tx = s.tx := rfl
@[simp] theorem State.dropped_rx : (s.dropped).rx = s.rx := rfl
@[simp] theorem State.dropped_k : (s.dropped).k = s.k := rfl
@[simp] theorem State.dropped_dcnt : (s.dropped).dcnt = s.dcnt := rfl
@[simp] theorem State.dropped_trace : (s.dropped).trace = s.trace := rfl
@[simp] theorem State.dropped_fault : (s.dropped).fault = s.fault := rfl
@[simp] theorem State.dropped_job : (s.dropped).job = s.job := rfl
@[simp] theorem State.dropped_ret : (s.dropped).ret = s.ret := rfl
@[simp] theorem State.dropped_live : (s.dropped).live = false := rfl
@[simp] theorem State.dropped_cfg : (s.dropped).cfg = s.cfg := rfl
@[simp] theorem State.dropped_samples : (s.dropped).samples = s.samples := rfl
@[simp] theorem State.dropped_panics : (s.dropped).panics = s.panics := rfl
@[simp] theorem State.dropped_program : (s.dropped).program = s.program := rfl
@[simp] theorem State.dropped_replies : (s.dropped).replies = s.replies := rfl

/-! The update presenting. -/

@[simp] theorem State.presenting_clk (q : Request) : (s.presenting q).clk = s.clk := rfl
@[simp] theorem State.presenting_ddir (q : Request) : (s.presenting q).ddir = s.ddir := rfl
@[simp] theorem State.presenting_dout (q : Request) : (s.presenting q).dout = s.dout := rfl
@[simp] theorem State.presenting_busy (q : Request) : (s.presenting q).busy = false := rfl
@[simp] theorem State.presenting_seq (q : Request) : (s.presenting q).seq = .idle := rfl
@[simp] theorem State.presenting_tx (q : Request) : (s.presenting q).tx = s.tx := rfl
@[simp] theorem State.presenting_rx (q : Request) : (s.presenting q).rx = s.rx := rfl
@[simp] theorem State.presenting_k (q : Request) : (s.presenting q).k = s.k := rfl
@[simp] theorem State.presenting_dcnt (q : Request) : (s.presenting q).dcnt = s.dcnt := rfl
@[simp] theorem State.presenting_trace (q : Request) : (s.presenting q).trace = s.trace := rfl
@[simp] theorem State.presenting_fault (q : Request) : (s.presenting q).fault = none := rfl
@[simp] theorem State.presenting_job (q : Request) : (s.presenting q).job = Job.idle := rfl
@[simp] theorem State.presenting_ret (q : Request) : (s.presenting q).ret = s.ret := rfl
@[simp] theorem State.presenting_live (q : Request) : (s.presenting q).live = true := rfl
@[simp] theorem State.presenting_cfg (q : Request) : (s.presenting q).cfg = s.cfg := rfl
@[simp] theorem State.presenting_samples (q : Request) : (s.presenting q).samples = s.samples := rfl
@[simp] theorem State.presenting_panics (q : Request) : (s.presenting q).panics = s.panics := rfl
@[simp] theorem State.presenting_program (q : Request) : (s.presenting q).program = q :: s.program := rfl
@[simp] theorem State.presenting_replies (q : Request) : (s.presenting q).replies = s.replies := rfl

/-! The update wroteByte. -/

@[simp] theorem State.wroteByte_clk (b : Byte) : (s.wroteByte b).clk = true := rfl
@[simp] theorem State.wroteByte_ddir (b : Byte) : (s.wroteByte b).ddir = .out := rfl
@[simp] theorem State.wroteByte_dout (b : Byte) : (s.wroteByte b).dout = Latch.ofLevel (byteBit b 0) := rfl
@[simp] theorem State.wroteByte_busy (b : Byte) : (s.wroteByte b).busy = s.busy := rfl
@[simp] theorem State.wroteByte_seq (b : Byte) : (s.wroteByte b).seq = s.seq := rfl
@[simp] theorem State.wroteByte_tx (b : Byte) : (s.wroteByte b).tx = b := rfl
@[simp] theorem State.wroteByte_rx (b : Byte) : (s.wroteByte b).rx = s.rx := rfl
@[simp] theorem State.wroteByte_k (b : Byte) : (s.wroteByte b).k = 0 := rfl
@[simp] theorem State.wroteByte_dcnt (b : Byte) : (s.wroteByte b).dcnt = 0 := rfl
@[simp] theorem State.wroteByte_trace (b : Byte) : (s.wroteByte b).trace = s.trace ++ writeEvents b := rfl
@[simp] theorem State.wroteByte_fault (b : Byte) : (s.wroteByte b).fault = s.fault := rfl
@[simp] theorem State.wroteByte_job (b : Byte) : (s.wroteByte b).job = s.job := rfl
@[simp] theorem State.wroteByte_ret (b : Byte) : (s.wroteByte b).ret = s.ret := rfl
@[simp] theorem State.wroteByte_live (b : Byte) : (s.wroteByte b).live = s.live := rfl
@[simp] theorem State.wroteByte_cfg (b : Byte) : (s.wroteByte b).cfg = s.cfg := rfl
@[simp] theorem State.wroteByte_samples (b : Byte) : (s.wroteByte b).samples = s.samples := rfl
@[simp] theorem State.wroteByte_panics (b : Byte) : (s.wroteByte b).panics = s.panics.skip (s.cfg.choices 25) := rfl
@[simp] theorem State.wroteByte_program (b : Byte) : (s.wroteByte b).program = s.program := rfl
@[simp] theorem State.wroteByte_replies (b : Byte) : (s.wroteByte b).replies = s.replies := rfl

/-! The update readByte. -/

@[simp] theorem State.readByte_clk : (s.readByte).clk = true := rfl
@[simp] theorem State.readByte_ddir : (s.readByte).ddir = .inp := rfl
@[simp] theorem State.readByte_dout : (s.readByte).dout = s.dout := rfl
@[simp] theorem State.readByte_busy : (s.readByte).busy = s.busy := rfl
@[simp] theorem State.readByte_seq : (s.readByte).seq = s.seq := rfl
@[simp] theorem State.readByte_tx : (s.readByte).tx = s.tx := rfl
@[simp] theorem State.readByte_rx : (s.readByte).rx = byteOfLevels (s.byteLevels 0) := rfl
@[simp] theorem State.readByte_k : (s.readByte).k = 0 := rfl
@[simp] theorem State.readByte_dcnt : (s.readByte).dcnt = 0 := rfl
@[simp] theorem State.readByte_trace : (s.readByte).trace = s.trace ++ readEvents (s.byteLevels 0) := rfl
@[simp] theorem State.readByte_fault : (s.readByte).fault = s.fault := rfl
@[simp] theorem State.readByte_job : (s.readByte).job = s.job := rfl
@[simp] theorem State.readByte_ret : (s.readByte).ret = s.samples.bit Config.freeLevel 7 := rfl
@[simp] theorem State.readByte_live : (s.readByte).live = s.live := rfl
@[simp] theorem State.readByte_cfg : (s.readByte).cfg = s.cfg := rfl
@[simp] theorem State.readByte_samples : (s.readByte).samples = s.samples.skip 8 := rfl
@[simp] theorem State.readByte_panics : (s.readByte).panics = s.panics.skip (s.cfg.choices 25) := rfl
@[simp] theorem State.readByte_program : (s.readByte).program = s.program := rfl
@[simp] theorem State.readByte_replies : (s.readByte).replies = s.replies := rfl

/-! The update accumulate. -/

@[simp] theorem State.accumulate_clk (k : Fin 8) : (s.accumulate k).clk = s.clk := rfl
@[simp] theorem State.accumulate_ddir (k : Fin 8) : (s.accumulate k).ddir = s.ddir := rfl
@[simp] theorem State.accumulate_dout (k : Fin 8) : (s.accumulate k).dout = s.dout := rfl
@[simp] theorem State.accumulate_busy (k : Fin 8) : (s.accumulate k).busy = s.busy := rfl
@[simp] theorem State.accumulate_seq (k : Fin 8) : (s.accumulate k).seq = s.seq := rfl
@[simp] theorem State.accumulate_tx (k : Fin 8) : (s.accumulate k).tx = s.tx := rfl
@[simp] theorem State.accumulate_rx (k : Fin 8) : (s.accumulate k).rx = orLevel s.rx k s.ret := rfl
@[simp] theorem State.accumulate_k (k : Fin 8) : (s.accumulate k).k = s.k := rfl
@[simp] theorem State.accumulate_dcnt (k : Fin 8) : (s.accumulate k).dcnt = s.dcnt := rfl
@[simp] theorem State.accumulate_trace (k : Fin 8) : (s.accumulate k).trace = s.trace := rfl
@[simp] theorem State.accumulate_fault (k : Fin 8) : (s.accumulate k).fault = s.fault := rfl
@[simp] theorem State.accumulate_job (k : Fin 8) : (s.accumulate k).job = s.job := rfl
@[simp] theorem State.accumulate_ret (k : Fin 8) : (s.accumulate k).ret = s.ret := rfl
@[simp] theorem State.accumulate_live (k : Fin 8) : (s.accumulate k).live = s.live := rfl
@[simp] theorem State.accumulate_cfg (k : Fin 8) : (s.accumulate k).cfg = s.cfg := rfl
@[simp] theorem State.accumulate_samples (k : Fin 8) : (s.accumulate k).samples = s.samples := rfl
@[simp] theorem State.accumulate_panics (k : Fin 8) : (s.accumulate k).panics = s.panics := rfl
@[simp] theorem State.accumulate_program (k : Fin 8) : (s.accumulate k).program = s.program := rfl
@[simp] theorem State.accumulate_replies (k : Fin 8) : (s.accumulate k).replies = s.replies := rfl

end Sys2Proof.Machine
end

