-- ==== Sys2Proof/Laws/Ops.lean ====
section
/-! SUPPORT. The shared operations: draws, and what a micro-operation's frame (running, panic, mode) can answer. -/

/-- Choices of the driver add up. -/
@[simp] theorem Sys2Proof.Config.choices_add (cfg : Sys2Proof.Config) (m n : Nat) :
    cfg.choices m + cfg.choices n = cfg.choices (m + n) := by
  unfold Config.choices; split <;> rfl

@[simp] theorem Sys2Proof.Config.choices_zero (cfg : Sys2Proof.Config) : cfg.choices 0 = 0 := by
  unfold Config.choices; split <;> rfl

namespace Sys2Proof.Machine

/-- Drawing from a feed after `n` draws is drawing further on. -/
@[simp] theorem Feed.bit_skip (free : Nat → Bool) (f : Feed) (n j : Nat) :
    (f.skip n).bit free j = f.bit free (n + j) := by
  unfold Feed.bit Feed.skip
  simp only [List.length_drop, List.getElem_drop]
  by_cases h : n + j < f.script.length
  · have h' : j < f.script.length - n := by omega
    simp [h, h']
  · have h' : ¬ j < f.script.length - n := by omega
    simp only [h, h', dite_false]
    congr 1
    omega

@[simp] theorem Feed.skip_skip (f : Feed) (m n : Nat) : (f.skip m).skip n = f.skip (m + n) := by
  unfold Feed.skip
  simp only [List.drop_drop, List.length_drop, Feed.mk.injEq, true_and]
  omega

@[simp] theorem Feed.skip_zero (f : Feed) : f.skip 0 = f := by simp [Feed.skip]

/-- The first of the levels drawn is the level now. -/
theorem State.levels_bit (s : State) (j n t : Nat) (h : t < n) :
    (s.levels j n)[t]? = some (s.samples.bit Config.freeLevel (j + t)) := by
  simp [State.levels, h]

/-- A faulted engine takes no step. -/
theorem whenRunning_fault {s : State} {r : FaultReason} (h : s.fault = some r) (act : State → Out) :
    whenRunning s act = .fault (.engineFaulted r) := by simp [whenRunning, h]

/-- A dropped engine takes no step. -/
theorem whenRunning_dead {s : State} (h : s.fault = none) (hl : s.live = false) (act : State → Out) :
    whenRunning s act = .fault .noEngine := by simp [whenRunning, h, hl]

/-- An engine that exists and has no fault acts. -/
theorem whenRunning_run {s : State} (hl : s.live = true) (h : s.fault = none) (act : State → Out) :
    whenRunning s act = act s := by simp [whenRunning, h, hl]

/-- A next state comes from an engine that exists and has no fault. -/
theorem whenRunning_next {s t : State} {act : State → Out} (h : whenRunning s act = .next t) :
    s.live = true ∧ s.fault = none ∧ act s = .next t := by
  unfold whenRunning at h
  split at h
  · cases h
  · next hf =>
    split at h
    · next hl => exact ⟨hl, hf, h⟩
    · cases h

/-- A pin micro-operation whose driver does not panic. -/
theorem pinOp_act {s : State} (h : s.CanAct) (w : Byte) (act : State → Out) : pinOp w s act = act s.settled := by
  obtain ⟨hl, hf, hp⟩ := h
  rw [pinOp, whenRunning_run hl hf]
  cases hc : s.cfg.driverMayPanic
  · simp [State.settled, State.chosen, Config.choices, hc]
  · simp [hp hc, State.settled, State.chosen, State.panicDrawn, Config.choices, hc]

/-- A pin micro-operation whose driver panics: the fault, and nothing else of the micro-operation. -/
theorem pinOp_panic {s : State} (hl : s.live = true) (hf : s.fault = none) (hc : s.cfg.driverMayPanic = true)
    (hp : s.panicNow = true) (w : Byte) (act : State → Out) :
    pinOp w s act = .next (s.panicDrawn.raise (.driverPanic w)) := by
  rw [pinOp, whenRunning_run hl hf]; simp [hc, hp]

/-- Everything a pin micro-operation can answer: a panic that is admitted, or what it does. -/
theorem pinOp_next {w : Byte} {s t : State} {act : State → Out} (h : pinOp w s act = .next t) :
    s.live = true ∧ s.fault = none ∧
      ((s.cfg.driverMayPanic = true ∧ t = s.panicDrawn.raise (.driverPanic w)) ∨ act s.settled = .next t) := by
  obtain ⟨hl, hf, h⟩ := whenRunning_next h
  refine ⟨hl, hf, ?_⟩
  cases hc : s.cfg.driverMayPanic
  · simp [hc] at h; exact .inr (by simpa [State.settled, State.chosen, Config.choices, hc] using h)
  · have e : s.settled = s.panicDrawn := by simp [State.settled, State.chosen, State.panicDrawn, Config.choices, hc]
    simp only [hc, if_true] at h ⊢
    rw [e]
    split at h
    · cases h; exact .inl ⟨trivial, rfl⟩
    · exact .inr h

theorem inMode_act {d : Dir} {s : State} (w : Byte) (act : State → Out) (h : s.ddir = d) : inMode d w s act = act s := by
  simp [inMode, h]

/-- Everything a DATA level operation can answer: a mode violation, or what it does. -/
theorem inMode_next {d : Dir} {w : Byte} {s t : State} {act : State → Out} (h : inMode d w s act = .next t) :
    (s.ddir = d ∧ act s = .next t) ∨ (s.ddir ≠ d ∧ t = s.raise (.pinModeViolation w)) := by
  unfold inMode at h
  split at h
  · next hd => exact .inl ⟨hd, h⟩
  · next hd => cases h; exact .inr ⟨hd, rfl⟩

/-- Everything a sequence of two can answer: the first one's fault state, or what the second does. -/
theorem andThen_next {o : Out} {t : State} {act : State → Out} (h : andThen o act = .next t) :
    ∃ s, o = .next s ∧ ((s.fault.isSome = true ∧ t = s) ∨ (s.fault = none ∧ act s = .next t)) := by
  cases o with
  | next s =>
    simp only [andThen] at h
    split at h
    · next hf => cases h; exact ⟨_, rfl, .inl ⟨hf, rfl⟩⟩
    · next hf => exact ⟨s, rfl, .inr ⟨by simpa using hf, h⟩⟩
  | fault r => cases h
  | refused r => cases h

/-- The second operation follows when the first one leaves no fault. -/
theorem andThen_act {o : Out} {s : State} {act : State → Out} (ho : o = .next s) (hf : s.fault = none) :
    andThen o act = act s := by simp [andThen, ho, hf]

@[simp] theorem State.settled_fault (s : State) : s.settled.fault = s.fault := rfl
@[simp] theorem State.settled_ddir (s : State) : s.settled.ddir = s.ddir := rfl
@[simp] theorem State.settled_live (s : State) : s.settled.live = s.live := rfl
@[simp] theorem State.settled_cfg (s : State) : s.settled.cfg = s.cfg := rfl
@[simp] theorem State.settled_clk (s : State) : s.settled.clk = s.clk := rfl
@[simp] theorem State.settled_dout (s : State) : s.settled.dout = s.dout := rfl
@[simp] theorem State.settled_busy (s : State) : s.settled.busy = s.busy := rfl
@[simp] theorem State.settled_seq (s : State) : s.settled.seq = s.seq := rfl
@[simp] theorem State.settled_job (s : State) : s.settled.job = s.job := rfl
@[simp] theorem State.settled_tx (s : State) : s.settled.tx = s.tx := rfl
@[simp] theorem State.settled_rx (s : State) : s.settled.rx = s.rx := rfl
@[simp] theorem State.settled_k (s : State) : s.settled.k = s.k := rfl
@[simp] theorem State.settled_dcnt (s : State) : s.settled.dcnt = s.dcnt := rfl
@[simp] theorem State.settled_trace (s : State) : s.settled.trace = s.trace := rfl
@[simp] theorem State.settled_ret (s : State) : s.settled.ret = s.ret := rfl
@[simp] theorem State.settled_samples (s : State) : s.settled.samples = s.samples := rfl
@[simp] theorem State.settled_program (s : State) : s.settled.program = s.program := rfl
@[simp] theorem State.settled_replies (s : State) : s.settled.replies = s.replies := rfl

/-- The driver's choice is drawn only where panics are admitted. -/
@[simp] theorem State.settled_panics (s : State) : s.settled.panics = s.panics.skip (s.cfg.choices 1) := rfl

@[simp] theorem State.chosen_fault (s : State) (n : Nat) : (s.chosen n).fault = s.fault := rfl
@[simp] theorem State.chosen_live (s : State) (n : Nat) : (s.chosen n).live = s.live := rfl
@[simp] theorem State.chosen_cfg (s : State) (n : Nat) : (s.chosen n).cfg = s.cfg := rfl
@[simp] theorem State.chosen_panics (s : State) (n : Nat) :
    (s.chosen n).panics = s.panics.skip (s.cfg.choices n) := rfl

/-- An operation in progress is a command or a primitive by itself (R35; log 5). -/
theorem State.active_issue (s : State) (j : Job) : (s.issue j).active = true := by
  simp [State.active, State.issue]

theorem State.active_complete (s : State) : s.complete.active = false := rfl

/-- A driver that does not panic at the next pin micro-operation lets the engine act. -/
theorem State.CalmFor.canAct {s : State} {n : Nat} (h : s.CalmFor (n + 1)) : s.CanAct :=
  ⟨h.1, h.2.1, fun hc => h.2.2 hc 0 (by omega)⟩

/-- After `m` of the driver's choices, `n` more are known of the `k` that were. -/
theorem State.CalmFor.later {s : State} {k : Nat} (h : s.CalmFor k) (m n : Nat) (hk : m + n ≤ k) :
    (s.chosen m).CalmFor n := by
  refine ⟨h.1, h.2.1, fun hc t ht => ?_⟩
  have hc : s.cfg.driverMayPanic = true := hc
  rw [State.chosen_panics, Feed.bit_skip]
  exact h.2.2 hc _ (by simp only [Config.choices, hc, if_true]; omega)

/-- Fewer choices are known too. -/
theorem State.CalmFor.mono {s : State} {k n : Nat} (h : s.CalmFor k) (hk : n ≤ k) : s.CalmFor n :=
  ⟨h.1, h.2.1, fun hc t ht => h.2.2 hc t (by omega)⟩

/-- After one choice of the driver, one fewer is left of which it is known that it does not panic. -/
theorem State.CalmFor.next {s : State} {n : Nat} (h : s.CalmFor (n + 1)) : s.settled.CalmFor n := h.later 1 n (by omega)

end Sys2Proof.Machine
end

