-- ==== Sys2Proof/Laws/Sequencer.lean ====
section
/-! SUPPORT. The sequencer run to the end: whole bits, whole primitives, and how steps of an operation in progress compose. -/

namespace Sys2Proof.Machine

/-- `n` steps of an operation in progress with no fault, from the first state to the second. -/
inductive Ticks : Nat → State → State → Prop where
  | refl (s : State) : Ticks 0 s s
  | cons {n : Nat} {s t u : State} (hb : s.active = true) (hf : s.fault = none) (ht : tick s = .next t)
      (rest : Ticks n t u) : Ticks (n + 1) s u

theorem Ticks.trans {m n : Nat} {s t u : State} (h : Ticks m s t) (g : Ticks n t u) : Ticks (m + n) s u := by
  induction h with
  | refl => simpa using g
  | cons hb hf ht _ ih => rw [Nat.add_right_comm]; exact .cons hb hf ht (ih g)

theorem spin_zero (n : Nat) : spin n = 0 := by
  induction n with
  | zero => rfl
  | succ n ih => exact ih

/-- Steps of an operation in progress are steps of the machine. -/
theorem Ticks.run {n : Nat} {s t : State} (h : Ticks n s t) : Host.Core.run core n s = .next t := by
  induction h with
  | refl => rfl
  | @cons n s t u hb hf ht _ ih =>
    have e : core.step s = .next t := by
      show stepOnce s = _
      simp only [stepOnce, hf, hb, if_true]
      exact ht
    simp only [Host.Core.run, e]
    exact ih

/-- Running an operation skips over the steps already known. -/
theorem Ticks.runJob {n : Nat} {s t : State} (h : Ticks n s t) (hb : t.active = true) (hf : t.fault = none) (m : Nat) :
    runJob (m + n) s = runJob m t := by
  induction h with
  | refl => rfl
  | @cons n s t' u hb' hf' ht rest ih =>
    have ih := ih hb hf
    have mid : t'.active = true ∧ t'.fault = none := by
      cases rest with
      | refl => exact ⟨hb, hf⟩
      | cons hb hf _ _ => exact ⟨hb, hf⟩
    rw [← Nat.add_assoc]
    show Machine.runJob _ _ = _
    rw [Machine.runJob, ht]
    simp [mid.1, mid.2, ih]

/-- An operation in progress whose driver does not panic at the next `n` pin micro-operations. -/
abbrev State.Working (s : State) (n : Nat) : Prop := s.CalmFor n ∧ s.active = true

theorem State.Working.later {s : State} {k : Nat} (h : s.Working k) (m n : Nat) (hk : m + n ≤ k) :
    (s.chosen m).Working n :=
  ⟨h.1.later m n hk, h.2⟩

theorem State.Working.mono {s : State} {k n : Nat} (h : s.Working k) (hk : n ≤ k) : s.Working n := ⟨h.1.mono hk, h.2⟩

theorem Ticks.cast {n : Nat} {s t u : State} (h : Ticks n s t) (e : t = u) : Ticks n s u := e ▸ h

/-- A read bit's five steps, then more. -/
theorem Ticks.five {n : Nat} {s t u : State} (h : Ticks 5 s t) (g : Ticks n t u) : Ticks (n + 5) s u :=
  Nat.add_comm 5 n ▸ h.trans g

/-- A written bit's six steps, then more. -/
theorem Ticks.six {n : Nat} {s t u : State} (h : Ticks 6 s t) (g : Ticks n t u) : Ticks (n + 6) s u :=
  Nat.add_comm 6 n ▸ h.trans g

theorem finishSample_bit {p : Pos} {s : State} (h : p.k ≠ 0) : finishSample p s = .next (s.advance p) := if_neg h

theorem finishSample_byte {p : Pos} {s : State} {j : Job} (h : p.k = 0) (hj : s.job.store p.i s.rx = some j) :
    finishSample p s = .next (State.advance { s with job := j } p) := by
  rw [finishSample, if_pos h, hj]

section Phases

variable {s : State} {p : Pos} {n : Nat}

/-! One micro-operation of a calm engine, phase by phase (R97, R101). -/

theorem execDelay_calm (h : s.CalmFor n) : execDelay s = .next { s with dcnt := 0, trace := s.trace ++ [evDelay] } := by
  simp [execDelay, whenRunning, h.1, h.2.1, spin_zero, State.emit, encode, evDelay]

theorem execClkSetHigh_calm (h : s.CalmFor (n + 1)) :
    execClkSetHigh s = .next { s with
      clk := true, panics := s.panics.skip (s.cfg.choices 1),
      trace := s.trace ++ [evClk true] } := by
  rw [execClkSetHigh, pinOp_act h.canAct]; rfl

theorem execClkSetLow_calm (h : s.CalmFor (n + 1)) :
    execClkSetLow s = .next { s with
      clk := false, panics := s.panics.skip (s.cfg.choices 1),
      trace := s.trace ++ [evClk false] } := by
  rw [execClkSetLow, pinOp_act h.canAct]; rfl

theorem driveBit_calm (h : s.CalmFor (n + 1)) (hd : s.ddir = .out) (v : Level) :
    driveBit v s = .next { s with
      dout := Latch.ofLevel v, panics := s.panics.skip (s.cfg.choices 1),
      trace := s.trace ++ [evSet v] } := by
  cases v
  · simp only [driveBit, execDataSetLow]
    rw [if_neg (by simp), pinOp_act h.canAct, inMode_act (s := s.settled) _ _ hd]; rfl
  · simp only [driveBit, execDataSetHigh]
    rw [if_pos trivial, pinOp_act h.canAct, inMode_act (s := s.settled) _ _ hd]; rfl

theorem execDataIsHigh_calm (h : s.CalmFor (n + 1)) (hd : s.ddir = .inp) :
    execDataIsHigh s = .next { s with
      ret := s.dataIn, samples := s.samples.skip 1, panics := s.panics.skip (s.cfg.choices 1),
      trace := s.trace ++ [evSample s.dataIn] } := by
  rw [execDataIsHigh, pinOp_act h.canAct, inMode_act (s := s.settled) _ _ hd]; rfl

theorem tick_pos (hs : s.seq = .pos p) : tick s = runPhase p s := by simp [tick, hs]

/-- The phases that hold. -/
def Phase.holds : Phase → Bool
  | .wbSettle | .wbHoldLo | .wbHoldHi | .rbHoldLo | .rbHoldHi => true
  | .wbDir | .wbDrive | .wbClkLo | .wbClkHi | .rbDir | .rbClkLo | .rbClkHi | .rbSample => false

theorem tick_hold (h : s.CalmFor n) (hs : s.seq = .pos p) (hp : p.phase.holds = true) :
    tick s = .next ({ s with dcnt := 0, trace := s.trace ++ [evDelay] }.advance p) := by
  rw [tick_pos hs]
  rcases p with ⟨i, k, ph⟩
  cases ph <;> simp [Phase.holds] at hp <;> exact andThen_act (execDelay_calm h) h.2.1

theorem tick_drive (h : s.CalmFor (n + 1)) (hs : s.seq = .pos p) (hp : p.phase = .wbDrive) (hd : s.ddir = .out) :
    tick s = .next (State.advance { s with
      k := p.k, dout := Latch.ofLevel (byteBit s.tx p.k), panics := s.panics.skip (s.cfg.choices 1),
      trace := s.trace ++ [evSet (byteBit s.tx p.k)] } p) := by
  rw [tick_pos hs, runPhase, hp]
  exact andThen_act (driveBit_calm (s := { s with k := p.k }) h hd _) h.2.1

theorem tick_clkLo (h : s.CalmFor (n + 1)) (hs : s.seq = .pos p) (hp : p.phase = .wbClkLo) :
    tick s = .next ({ s with
      clk := false, panics := s.panics.skip (s.cfg.choices 1),
      trace := s.trace ++ [evClk false] }.advance p) := by
  rw [tick_pos hs, runPhase, hp]
  exact andThen_act (execClkSetLow_calm h) h.2.1

theorem tick_readClkLo (h : s.CalmFor (n + 1)) (hs : s.seq = .pos p) (hp : p.phase = .rbClkLo) :
    tick s = .next ({ s with
      k := p.k, clk := false, panics := s.panics.skip (s.cfg.choices 1),
      trace := s.trace ++ [evClk false] }.advance p) := by
  rw [tick_pos hs, runPhase, hp]
  exact andThen_act (execClkSetLow_calm (s := { s with k := p.k }) h) h.2.1

theorem tick_clkHi (h : s.CalmFor (n + 1)) (hs : s.seq = .pos p) (hp : p.phase = .wbClkHi ∨ p.phase = .rbClkHi) :
    tick s = .next ({ s with
      clk := true, panics := s.panics.skip (s.cfg.choices 1),
      trace := s.trace ++ [evClk true] }.advance p) := by
  rw [tick_pos hs, runPhase]
  rcases hp with hp | hp <;> rw [hp] <;> exact andThen_act (execClkSetHigh_calm h) h.2.1

theorem tick_writeDir (h : s.CalmFor (n + 1)) (hs : s.seq = .pos p) (hp : p.phase = .wbDir) {b : Byte}
    (hb : s.job.source p.i = some b) :
    tick s = .next (State.advance { s with
      tx := b, ddir := .out, dout := if s.ddir = Dir.out then s.dout else .unknown,
      panics := s.panics.skip (s.cfg.choices 1), trace := s.trace ++ [evOut] } p) := by
  rw [tick_pos hs, runPhase, hp]
  simp only [beginWrite, hb]
  refine andThen_act ?_ h.2.1
  rw [execDataSetAsOutput, pinOp_act (State.CalmFor.canAct (n := n) (s := { s with tx := b }) h)]; rfl

theorem tick_readDir (h : s.CalmFor (n + 1)) (hs : s.seq = .pos p) (hp : p.phase = .rbDir) :
    tick s = .next ({ s with
      rx := 0, ddir := .inp, panics := s.panics.skip (s.cfg.choices 1),
      trace := s.trace ++ [evIn] }.advance p) := by
  rw [tick_pos hs, runPhase, hp]
  have e : execDataSetAsInput s = .next { s with
    ddir := .inp, panics := s.panics.skip (s.cfg.choices 1),
    trace := s.trace ++ [evIn] } := by
    rw [execDataSetAsInput, pinOp_act h.canAct]; rfl
  exact andThen_act e h.2.1

theorem tick_sample (h : s.CalmFor (n + 1)) (hs : s.seq = .pos p) (hp : p.phase = .rbSample) (hd : s.ddir = .inp) :
    tick s = finishSample p { s with
      ret := s.dataIn, samples := s.samples.skip 1, panics := s.panics.skip (s.cfg.choices 1),
      trace := s.trace ++ [evSample s.dataIn],
      rx := orLevel s.rx p.k s.dataIn } := by
  rw [tick_pos hs, runPhase, hp]
  exact andThen_act (execDataIsHigh_calm h hd) h.2.1

theorem tick_sampleBit (h : s.CalmFor (n + 1)) (hs : s.seq = .pos p) (hp : p.phase = .rbSample) (hd : s.ddir = .inp)
    (hk : p.k ≠ 0) :
    tick s = .next (State.advance { s with
      ret := s.dataIn, samples := s.samples.skip 1, panics := s.panics.skip (s.cfg.choices 1),
      trace := s.trace ++ [evSample s.dataIn],
      rx := orLevel s.rx p.k s.dataIn } p) :=
  (tick_sample h hs hp hd).trans (finishSample_bit hk)

theorem tick_sampleByte {j : Job} (h : s.CalmFor (n + 1)) (hs : s.seq = .pos p) (hp : p.phase = .rbSample)
    (hd : s.ddir = .inp)
    (hk : p.k = 0) (hj : s.job.store p.i (orLevel s.rx p.k s.dataIn) = some j) :
    tick s = .next (State.advance { s with
      ret := s.dataIn, samples := s.samples.skip 1, panics := s.panics.skip (s.cfg.choices 1),
      trace := s.trace ++ [evSample s.dataIn],
      rx := orLevel s.rx p.k s.dataIn, job := j } p) :=
  (tick_sample h hs hp hd).trans (finishSample_byte hk hj)

/-- The six steps of one written bit (R97). -/
theorem writeBit_ticks {i : Nat} {k : Fin 8} (h : s.Working 3) (hd : s.ddir = .out) (hs : s.seq = .pos ⟨i, k, .wbDrive⟩) :
    Ticks 6 s { s with
      clk := true, dout := Latch.ofLevel (byteBit s.tx k), k := k, dcnt := 0, panics := s.panics.skip (s.cfg.choices 3),
      trace := s.trace ++ writeBitEvents (byteBit s.tx k), seq := s.job.nextSeq ⟨i, k, .wbHoldHi⟩ } := by
  obtain ⟨h, hb⟩ := h
  refine Ticks.cast (.cons hb h.2.1 (tick_drive h hs rfl hd) <|
    .cons hb h.2.1 (tick_hold (p := ⟨i, k, .wbSettle⟩) h.next rfl rfl) <|
    .cons hb h.2.1 (tick_clkLo (p := ⟨i, k, .wbClkLo⟩) h.next rfl rfl) <|
    .cons hb h.2.1 (tick_hold (p := ⟨i, k, .wbHoldLo⟩) h.next.next rfl rfl) <|
    .cons hb h.2.1 (tick_clkHi (p := ⟨i, k, .wbClkHi⟩) h.next.next rfl (.inl rfl)) <|
    .cons hb h.2.1 (tick_hold (p := ⟨i, k, .wbHoldHi⟩) h.next.next.next rfl rfl) <| .refl _) ?_
  simp [State.advance, Job.nextSeq, writeBitEvents]

/-- The clock pulse of one read bit, up to its sample (R101). -/
theorem readPulse_ticks {i : Nat} {k : Fin 8} (h : s.Working 3) (hs : s.seq = .pos ⟨i, k, .rbClkLo⟩) :
    Ticks 4 s { s with
      clk := true, k := k, dcnt := 0, panics := s.panics.skip (s.cfg.choices 2),
      trace := s.trace ++ [evClk false, evDelay, evClk true, evDelay], seq := .pos ⟨i, k, .rbSample⟩ } := by
  obtain ⟨h, hb⟩ := h
  refine Ticks.cast (.cons hb h.2.1 (tick_readClkLo h hs rfl) <|
    .cons hb h.2.1 (tick_hold (p := ⟨i, k, .rbHoldLo⟩) h.next rfl rfl) <|
    .cons hb h.2.1 (tick_clkHi (p := ⟨i, k, .rbClkHi⟩) h.next rfl (.inr rfl)) <|
    .cons hb h.2.1 (tick_hold (p := ⟨i, k, .rbHoldHi⟩) h.next.next rfl rfl) <| .refl _) ?_
  simp [State.advance, Job.nextSeq]

/-- The five steps of one read bit but the eighth (R101). -/
theorem readBit_ticks {i : Nat} {k : Fin 8} (h : s.Working 3) (hd : s.ddir = .inp) (hs : s.seq = .pos ⟨i, k, .rbClkLo⟩)
    (hk : k ≠ 0) :
    Ticks 5 s { s with
      clk := true, k := k, dcnt := 0, ret := s.dataIn, samples := s.samples.skip 1,
      panics := s.panics.skip (s.cfg.choices 3), rx := orLevel s.rx k s.dataIn,
      trace := s.trace ++ readBitEvents s.dataIn, seq := .pos ⟨i, k - 1, .rbClkLo⟩ } := by
  refine Ticks.cast ((readPulse_ticks h hs).trans (.cons h.2 h.1.2.1
    (tick_sampleBit (p := ⟨i, k, .rbSample⟩) (h.1.later 2 1 (by omega)) rfl rfl hd hk) (.refl _))) ?_
  simp [State.advance, Job.nextSeq, readBitEvents, hk, State.dataIn]

/-- The last five steps of a READ_BYTE, which store its byte (R51, R101). -/
theorem lastBit_ticks {i : Nat} {j : Job} (h : s.Working 3) (hd : s.ddir = .inp) (hs : s.seq = .pos ⟨i, 0, .rbClkLo⟩)
    (hj : s.job.store i (orLevel s.rx 0 s.dataIn) = some j) :
    Ticks 5 s { s with
      clk := true, k := 0, dcnt := 0, ret := s.dataIn, samples := s.samples.skip 1,
      panics := s.panics.skip (s.cfg.choices 3), rx := orLevel s.rx 0 s.dataIn, job := j,
      trace := s.trace ++ readBitEvents s.dataIn, seq := j.afterRead i } := by
  refine Ticks.cast ((readPulse_ticks h hs).trans (.cons h.2 h.1.2.1
    (tick_sampleByte (p := ⟨i, 0, .rbSample⟩) (h.1.later 2 1 (by omega)) rfl rfl hd rfl hj) (.refl _))) ?_
  simp [State.advance, Job.nextSeq, readBitEvents, State.dataIn]

/-- The 49 steps of a WRITE_BYTE within an operation (R97, R98, R107). -/
theorem writeByte_ticks {i : Nat} {b : Byte} (h : s.Working 25) (hs : s.seq = startWrite i)
    (hb : s.job.source i = some b) :
    Ticks 49 s { s.wroteByte b with seq := s.job.afterWrite i } := by
  have bit : ∀ {t : State} (k : Fin 8) (_ : t.Working 3) (_ : t.ddir = .out) (_ : t.seq = .pos ⟨i, k, .wbDrive⟩),
      Ticks 6 t _ := fun k hw hd hs => writeBit_ticks hw hd hs
  have h1 := h.later 1 24 (by omega)
  have h2 := h1.later 3 21 (by omega)
  have h3 := h2.later 3 18 (by omega)
  have h4 := h3.later 3 15 (by omega)
  have h5 := h4.later 3 12 (by omega)
  have h6 := h5.later 3 9 (by omega)
  have h7 := h6.later 3 6 (by omega)
  have h8 := h7.later 3 3 (by omega)
  have w : ∀ {t : State} {n : Nat}, t.Working (n + 3) → t.Working 3 := fun h => ⟨h.1.mono (by omega), h.2⟩
  refine Ticks.cast (.cons h.2 h.1.2.1 (tick_writeDir (p := ⟨i, 7, .wbDir⟩) h.1 hs rfl hb) <|
    .six (bit 7 (w h1) rfl rfl) <| .six (bit 6 (w h2) rfl rfl) <| .six (bit 5 (w h3) rfl rfl) <|
    .six (bit 4 (w h4) rfl rfl) <| .six (bit 3 (w h5) rfl rfl) <| .six (bit 2 (w h6) rfl rfl) <|
    .six (bit 1 (w h7) rfl rfl) <| (bit 0 h8 rfl rfl)) ?_
  simp [State.wroteByte, State.advance, Job.nextSeq, writeEvents, bitsDown]

/-- Eight samples OR-ed in from bit 7 down are the byte {lv_0, ..., lv_7} (R108). -/
theorem orBits_eq (a b c d e f g h : Level) :
    orLevel (orLevel (orLevel (orLevel (orLevel (orLevel (orLevel (orLevel 0 7 a) 6 b) 5 c) 4 d) 3 e) 2 f) 1 g) 0 h =
      byteOfLevels [a, b, c, d, e, f, g, h] := by
  revert a b c d e f g h; decide

/-- The 41 steps of a READ_BYTE within an operation (R101, R102, R107, R108). -/
theorem readByte_ticks {i : Nat} {j : Job} (h : s.Working 25) (hs : s.seq = startRead i)
    (hj : s.job.store i (byteOfLevels (s.byteLevels 0)) = some j) :
    Ticks 41 s { s.readByte with job := j, seq := j.afterRead i } := by
  have bit : ∀ {t : State} (k : Fin 8) (_ : t.Working 3) (_ : t.ddir = .inp) (_ : t.seq = .pos ⟨i, k, .rbClkLo⟩)
      (_ : k ≠ 0), Ticks 5 t _ := fun k hw hd hs hk => readBit_ticks hw hd hs hk
  have lv : s.byteLevels 0 = [s.samples.bit Config.freeLevel 0, s.samples.bit Config.freeLevel 1,
      s.samples.bit Config.freeLevel 2, s.samples.bit Config.freeLevel 3, s.samples.bit Config.freeLevel 4,
      s.samples.bit Config.freeLevel 5, s.samples.bit Config.freeLevel 6, s.samples.bit Config.freeLevel 7] := by
    simp [State.byteLevels, State.levels, List.range_succ]
  have h1 := h.later 1 24 (by omega)
  have h2 := h1.later 3 21 (by omega)
  have h3 := h2.later 3 18 (by omega)
  have h4 := h3.later 3 15 (by omega)
  have h5 := h4.later 3 12 (by omega)
  have h6 := h5.later 3 9 (by omega)
  have h7 := h6.later 3 6 (by omega)
  have h8 := h7.later 3 3 (by omega)
  have w : ∀ {t : State} {n : Nat}, t.Working (n + 3) → t.Working 3 := fun h => ⟨h.1.mono (by omega), h.2⟩
  refine Ticks.cast (.cons h.2 h.1.2.1 (tick_readDir (p := ⟨i, 7, .rbDir⟩) h.1 hs rfl) <|
    .five (bit 7 (w h1) rfl rfl (by decide)) <| .five (bit 6 (w h2) rfl rfl (by decide)) <|
    .five (bit 5 (w h3) rfl rfl (by decide)) <| .five (bit 4 (w h4) rfl rfl (by decide)) <|
    .five (bit 3 (w h5) rfl rfl (by decide)) <| .five (bit 2 (w h6) rfl rfl (by decide)) <|
    .five (bit 1 (w h7) rfl rfl (by decide)) <| lastBit_ticks (j := j) h8 rfl rfl ?_) ?_
  · simp only [State.dataIn, State.advance, Feed.bit_skip]
    refine Eq.trans ?_ hj
    rw [lv, ← orBits_eq]
  · simp only [State.dataIn, State.advance, Feed.bit_skip, Feed.skip_skip, Config.choices_add, State.readByte, lv, ← orBits_eq]
    simp [readEvents]

end Phases

end Sys2Proof.Machine
end

