-- ==== Sys2Proof/Laws/Operation.lean ====
section
/-! SUPPORT. Whole operations: the loops over the byte primitives and the operation as one transition. -/

namespace Sys2Proof

theorem Buffer.fill_len (b : Buffer) (i : Nat) (l : List Byte) : (b.fill i l).len = b.len := by
  induction l generalizing b i with
  | nil => rfl
  | cons v l ih => exact (ih _ _).trans rfl

/-- A filled buffer keeps the canonical form, holds the bytes stored, and every other byte as before. -/
theorem Buffer.fill_spec (b : Buffer) (i : Nat) (l : List Byte) (hw : b.wf = true) (hl : i + l.length ≤ b.len) :
    (b.fill i l).wf = true ∧
      ∀ t, (b.fill i l).read t = if h : i ≤ t ∧ t < i + l.length then some (l[t - i]'(by omega)) else b.read t := by
  induction l generalizing b i with
  | nil =>
    refine ⟨hw, fun t => ?_⟩
    have : ¬ (i ≤ t ∧ t < i + ([] : List Byte).length) := by simp
    simp only [this, dite_false]; rfl
  | cons v l ih =>
    simp only [List.length_cons] at hl
    have hi : i < b.len := by omega
    obtain ⟨_, hlen, hwf, hr⟩ := Buffer.write_spec hw (show b.write i v = some _ from if_pos hi)
    obtain ⟨h1, h2⟩ := ih { b with cells := b.cells.write i v } (i + 1) hwf (by simp; omega)
    refine ⟨h1, fun t => ?_⟩
    rw [Buffer.fill, h2 t]
    by_cases ht : i + 1 ≤ t ∧ t < i + 1 + l.length
    · have ht' : i ≤ t ∧ t < i + (v :: l).length := by simp only [List.length_cons]; omega
      have e : t - i = (t - (i + 1)) + 1 := by omega
      simp only [ht, ht', and_self, dite_true, e, List.getElem_cons_succ]
    · simp only [ht, dite_false, hr t]
      by_cases hti : t = i
      · subst hti; simp
      · have ht' : ¬ (i ≤ t ∧ t < i + (v :: l).length) := by simp only [List.length_cons]; omega
        simp only [hti, if_false, ht', dite_false]

/-- The bytes from an index on begin with the byte at that index. -/
theorem Buffer.toBytes_drop (b : Buffer) {i : Nat} (h : i < b.len) :
    b.toBytes.drop i = b.cells.read i :: b.toBytes.drop (i + 1) := by
  have hl : i < b.toBytes.length := by rw [Buffer.toBytes_length]; exact h
  rw [List.drop_eq_getElem_cons hl]
  congr 1
  simp [Buffer.toBytes]

theorem Buffer.toBytes_drop_len (b : Buffer) : b.toBytes.drop b.len = [] := by
  rw [← b.toBytes_length]; exact List.drop_length

end Sys2Proof

namespace Sys2Proof.Machine

theorem Ticks.castLen {m n : Nat} {s t : State} (h : Ticks m s t) (e : m = n) : Ticks n s t := e ▸ h

section Bytes

variable {s : State}

/-! What whole bytes leave, of an engine in use as of an idle one, and what they keep. -/

theorem State.wroteBytes_issue (l : List Byte) (j : Job) : (s.issue j).wroteBytes l = (s.wroteBytes l).issue j := by
  induction l generalizing s with
  | nil => rfl
  | cons b l ih => exact ih (s := s.wroteByte b)

theorem State.readBytes_issue (n : Nat) (j : Job) : (s.issue j).readBytes n = (s.readBytes n).issue j := by
  induction n generalizing s with
  | zero => rfl
  | succ n ih => exact ih (s := s.readByte)

theorem State.exchanged_issue (l : List Byte) (j : Job) : (s.issue j).exchanged l = (s.exchanged l).issue j := by
  induction l generalizing s with
  | nil => rfl
  | cons b l ih => exact ih (s := (s.wroteByte b).readByte)

theorem State.wroteBytes_keeps (l : List Byte) :
    (s.wroteBytes l).live = s.live ∧ (s.wroteBytes l).fault = s.fault ∧ (s.wroteBytes l).cfg = s.cfg ∧
      (s.wroteBytes l).busy = s.busy ∧ (s.wroteBytes l).replies = s.replies ∧ (s.wroteBytes l).samples = s.samples ∧
      (s.wroteBytes l).job = s.job := by
  induction l generalizing s with
  | nil => exact ⟨rfl, rfl, rfl, rfl, rfl, rfl, rfl⟩
  | cons b l ih => exact ih (s := s.wroteByte b)

theorem State.readBytes_keeps (n : Nat) :
    (s.readBytes n).live = s.live ∧ (s.readBytes n).fault = s.fault ∧ (s.readBytes n).cfg = s.cfg ∧
      (s.readBytes n).busy = s.busy ∧ (s.readBytes n).replies = s.replies ∧ (s.readBytes n).job = s.job := by
  induction n generalizing s with
  | zero => exact ⟨rfl, rfl, rfl, rfl, rfl, rfl⟩
  | succ n ih => exact ih (s := s.readByte)

theorem State.exchanged_keeps (l : List Byte) :
    (s.exchanged l).live = s.live ∧ (s.exchanged l).fault = s.fault ∧ (s.exchanged l).cfg = s.cfg ∧
      (s.exchanged l).busy = s.busy ∧ (s.exchanged l).replies = s.replies ∧ (s.exchanged l).job = s.job := by
  induction l generalizing s with
  | nil => exact ⟨rfl, rfl, rfl, rfl, rfl, rfl⟩
  | cons b l ih => exact ih (s := (s.wroteByte b).readByte)

@[simp] theorem State.byteLevels_readByte (i : Nat) : s.readByte.byteLevels i = s.byteLevels (i + 1) := by
  simp only [State.byteLevels, State.levels, State.readByte_samples, Feed.bit_skip]
  have e : ∀ t, 8 + (8 * i + t) = 8 * (i + 1) + t := fun t => by omega
  simp only [e]

theorem State.readsEvents_succ (n : Nat) :
    s.readsEvents (n + 1) = readEvents (s.byteLevels 0) ++ s.readByte.readsEvents n := by
  simp only [State.readsEvents, List.range_succ_eq_map, List.flatMap_cons, List.flatMap_map, State.byteLevels_readByte]

/-- The trace of WRITE_BYTEs in order (R112). -/
theorem State.wroteBytes_trace (l : List Byte) : (s.wroteBytes l).trace = s.trace ++ l.flatMap writeEvents := by
  induction l generalizing s with
  | nil => simp [State.wroteBytes]
  | cons b l ih => exact (ih (s := s.wroteByte b)).trans (by simp [State.wroteByte])

/-- The trace of READ_BYTEs in order (R111). -/
theorem State.readBytes_trace (n : Nat) : (s.readBytes n).trace = s.trace ++ s.readsEvents n := by
  induction n generalizing s with
  | zero => simp [State.readBytes, State.readsEvents]
  | succ n ih =>
    refine (ih (s := s.readByte)).trans ?_
    rw [State.readsEvents_succ]
    simp [State.readByte]

end Bytes

section Loops

variable {s : State}

/-! What whole bytes leave does not depend on the sequencer or the job, and keeps both. -/

theorem State.wroteBytes_seq (l : List Byte) (q : Seq) :
    State.wroteBytes { s with seq := q } l = { s.wroteBytes l with seq := q } := by
  induction l generalizing s with
  | nil => rfl
  | cons b l ih => exact ih (s := s.wroteByte b)

theorem State.readBytes_seq (n : Nat) (q : Seq) :
    State.readBytes { s with seq := q } n = { s.readBytes n with seq := q } := by
  induction n generalizing s with
  | zero => rfl
  | succ n ih => exact ih (s := s.readByte)

theorem State.readBytes_job (n : Nat) (j : Job) :
    State.readBytes { s with job := j } n = { s.readBytes n with job := j } := by
  induction n generalizing s with
  | zero => rfl
  | succ n ih => exact ih (s := s.readByte)

theorem State.exchanged_seq (l : List Byte) (q : Seq) :
    State.exchanged { s with seq := q } l = { s.exchanged l with seq := q } := by
  induction l generalizing s with
  | nil => rfl
  | cons b l ih => exact ih (s := (s.wroteByte b).readByte)

theorem State.exchanged_job (l : List Byte) (j : Job) :
    State.exchanged { s with job := j } l = { s.exchanged l with job := j } := by
  induction l generalizing s with
  | nil => rfl
  | cons b l ih => exact ih (s := (s.wroteByte b).readByte)

@[simp] theorem State.wroteBytes_job (s : State) (l : List Byte) : (s.wroteBytes l).job = s.job := by
  induction l generalizing s with
  | nil => rfl
  | cons b l ih => exact ih (s.wroteByte b)

@[simp] theorem State.byteAt_readByte (i : Nat) : s.readByte.byteAt i = s.byteAt (i + 1) := by
  simp only [State.byteAt, State.byteLevels_readByte]

theorem State.bytesAt_succ (n : Nat) : s.bytesAt (n + 1) = s.byteAt 0 :: s.readByte.bytesAt n := by
  simp [State.bytesAt, List.range_succ_eq_map, Function.comp_def]

/-- A loop of WRITE_BYTEs over W from index `i` on (R112). -/
theorem writeLoop_ticks {w : Buffer} {i : Nat} {after : Seq} (l : List Byte) (hl : w.toBytes.drop i = l) (hi : i ≤ w.len)
    (h : s.Working (25 * l.length)) (hs : s.seq = writeFrom w.len i after) (hsrc : ∀ t, s.job.source t = w.read t)
    (hnext : ∀ t, s.job.afterWrite t = writeFrom w.len (t + 1) after) :
    Ticks (49 * l.length) s { s.wroteBytes l with seq := after } := by
  induction l generalizing s i with
  | nil =>
    have hlen : w.len ≤ i := by
      have := congrArg List.length hl
      simp [Buffer.toBytes_length] at this; omega
    have hq : s.seq = after := by rw [hs, writeFrom, if_neg (by omega)]
    refine Ticks.cast (.refl s) ?_
    simp [State.wroteBytes, ← hq]
  | cons b l ih =>
    have hlen : i < w.len := by
      rcases Nat.lt_or_ge i w.len with h | h
      · exact h
      · have : i = w.len := by omega
        rw [this, Buffer.toBytes_drop_len] at hl; cases hl
    rw [Buffer.toBytes_drop _ hlen] at hl
    injection hl with hb hl
    have hread : s.job.source i = some b := by rw [hsrc, Buffer.read, if_pos hlen, hb]
    rw [List.length_cons] at h
    have one := writeByte_ticks (i := i) (h.mono (by omega)) (hs.trans (if_pos hlen)) hread
    have rest := ih (s := { s.wroteByte b with seq := s.job.afterWrite i }) (i := i + 1) hl hlen
      (h.later 25 _ (by omega)) (hnext i) hsrc hnext
    refine Ticks.cast ((one.trans rest).castLen (by simp only [List.length_cons]; omega)) ?_
    rw [State.wroteBytes_seq]
    rfl

/-- A loop of READ_BYTEs into R from index `i` on (R111). -/
theorem readLoop_ticks {i n : Nat} (hn : i + n = s.job.r.len) (h : s.Working (25 * n)) (hs : s.seq = readFrom s.job.r.len i)
    (hop : s.job.op = .read ∨ s.job.op = .transfer) :
    Ticks (41 * n) s { s.readBytes n with
      seq := .idle, job := { s.job with r := s.job.r.fill i (s.bytesAt n) } } := by
  induction n generalizing s i with
  | zero =>
    have hq : s.seq = .idle := by rw [hs, readFrom, if_neg (by omega)]
    refine Ticks.cast (.refl s) ?_
    simp [State.readBytes, State.bytesAt, Buffer.fill, ← hq]
  | succ n ih =>
    have hlen : i < s.job.r.len := by omega
    have hj : s.job.store i (byteOfLevels (s.byteLevels 0)) =
        some { s.job with r := { s.job.r with cells := s.job.r.cells.write i (s.byteAt 0) } } := by
      rcases hop with hop | hop <;> simp [Job.store, hop, Buffer.write, hlen, State.byteAt]
    have one := readByte_ticks (i := i) (h.mono (by omega)) (hs.trans (if_pos hlen)) hj
    generalize hjd : ({ s.job with r := { s.job.r with cells := s.job.r.cells.write i (s.byteAt 0) } } : Job) = j at one
    have hjr : j.r = { s.job.r with cells := s.job.r.cells.write i (s.byteAt 0) } := by rw [← hjd]
    have hjo : j.op = s.job.op := by rw [← hjd]
    have hjl : j.r.len = s.job.r.len := by rw [hjr]
    have hnext : j.afterRead i = readFrom j.r.len (i + 1) := by
      rcases hop with hop | hop <;> simp [Job.afterRead, hjo, hop]
    have rest := ih (s := { s.readByte with job := j, seq := j.afterRead i }) (i := i + 1)
      (by show _ = j.r.len; omega)
      ⟨h.1.later 25 _ (by omega), by have := h.2; simp only [State.active, ← hjo] at this ⊢; exact this⟩ hnext
      (by rw [← hjo] at hop; exact hop)
    refine Ticks.cast ((one.trans rest).castLen (by omega)) ?_
    have e : ({ s.readByte with job := j, seq := j.afterRead i } : State) =
        { ({ s.readByte with job := j } : State) with seq := j.afterRead i } := rfl
    have hb : State.bytesAt { s.readByte with job := j, seq := j.afterRead i } n = s.readByte.bytesAt n := rfl
    rw [hb, e, State.readBytes_seq, State.readBytes_job, State.bytesAt_succ]
    simp only [Buffer.fill, ← hjd, State.readBytes]

/-- The loop of TRANSFER_IN_PLACE over X from index `i` on (R114). -/
theorem exchangeLoop_ticks {i : Nat} (l : List Byte) (hl : s.job.x.toBytes.drop i = l) (hi : i ≤ s.job.x.len)
    (h : s.Working (50 * l.length)) (hs : s.seq = writeFrom s.job.x.len i .idle) (hop : s.job.op = .transferInPlace)
    (hw : s.job.x.wf = true) :
    Ticks (90 * l.length) s { s.exchanged l with
      seq := .idle, job := { s.job with x := s.job.x.fill i (s.bytesAt l.length) } } := by
  induction l generalizing s i with
  | nil =>
    have hlen : s.job.x.len ≤ i := by
      have := congrArg List.length hl
      simp [Buffer.toBytes_length] at this; omega
    have hq : s.seq = .idle := by rw [hs, writeFrom, if_neg (by omega)]
    refine Ticks.cast (.refl s) ?_
    simp [State.exchanged, State.bytesAt, Buffer.fill, ← hq]
  | cons b l ih =>
    have hlen : i < s.job.x.len := by
      rcases Nat.lt_or_ge i s.job.x.len with h | h
      · exact h
      · have : i = s.job.x.len := by omega
        rw [this, Buffer.toBytes_drop_len] at hl; cases hl
    rw [Buffer.toBytes_drop _ hlen] at hl
    injection hl with hb hl
    have hread : s.job.source i = some b := by simp [Job.source, hop, Buffer.read, hlen, hb]
    rw [List.length_cons] at h
    have one := writeByte_ticks (i := i) (h.mono (by omega)) (hs.trans (if_pos hlen)) hread
    have hmid : s.job.afterWrite i = startRead i := by simp [Job.afterWrite, hop]
    have hj : s.job.store i (s.byteAt 0) =
        some { s.job with x := { s.job.x with cells := s.job.x.cells.write i (s.byteAt 0) } } := by
      simp [Job.store, hop, Buffer.write, hlen]
    have two := readByte_ticks (s := { s.wroteByte b with seq := s.job.afterWrite i }) (i := i)
      ((h.later 25 (25 + 50 * l.length) (by omega)).mono (by omega)) hmid hj
    generalize hjd : ({ s.job with x := { s.job.x with cells := s.job.x.cells.write i (s.byteAt 0) } } : Job) = j at two
    have hjx : j.x = { s.job.x with cells := s.job.x.cells.write i (s.byteAt 0) } := by rw [← hjd]
    have hjo : j.op = .transferInPlace := by rw [← hjd]; exact hop
    have hjl : j.x.len = s.job.x.len := by rw [hjx]
    obtain ⟨_, _, hwf, hr⟩ := Buffer.write_spec hw (show s.job.x.write i (s.byteAt 0) = some _ from if_pos hlen)
    have htail : j.x.toBytes.drop (i + 1) = l := by
      rw [← hl]
      apply List.ext_getElem?
      intro t
      rw [List.getElem?_drop, List.getElem?_drop, Buffer.toBytes_getElem?, Buffer.toBytes_getElem?, hjx, hr,
        if_neg (by omega)]
    have hnext : j.afterRead i = writeFrom j.x.len (i + 1) .idle := by simp [Job.afterRead, hjo]
    have rest := ih (s := { (s.wroteByte b).readByte with job := j, seq := j.afterRead i }) (i := i + 1) htail
      (by show _ ≤ j.x.len; omega)
      ⟨(h.1.later 25 (25 + 50 * l.length) (by omega)).later 25 _ (by omega), by
        have := h.2; simp only [State.active, hjo, hop] at this ⊢; exact this⟩ hnext hjo
      (by show j.x.wf = true; rw [hjx]; exact hwf)
    refine Ticks.cast (((one.trans two).trans rest).castLen (by simp only [List.length_cons]; omega)) ?_
    have e : ({ (s.wroteByte b).readByte with job := j, seq := j.afterRead i } : State) =
        { ({ (s.wroteByte b).readByte with job := j } : State) with seq := j.afterRead i } := rfl
    have hby : State.bytesAt { (s.wroteByte b).readByte with job := j, seq := j.afterRead i } l.length =
        s.readByte.bytesAt l.length := rfl
    rw [hby, e, State.exchanged_seq, State.exchanged_job, List.length_cons, State.bytesAt_succ]
    simp only [Buffer.fill, ← hjd, State.exchanged, List.foldl_cons]

end Loops

section Whole

variable {s t : State} {j : Job}

/-- A job whose micro-operations run to the end, as one transition. -/
theorem runOp_of_ticks {n k : Nat} (h : s.ReadyFor k) (g : Ticks n (s.issue j) t) (hn : n = j.microCount)
    (ha : t.active = true) (hf : t.fault = none) (hq : t.seq = .idle) : runOp j s = .next t.complete := by
  subst hn
  rw [runOp, whenRunning_run h.1.1 h.1.2.1, h.2, if_neg (by simp), Nat.add_comm, g.runJob ha hf]
  simp [runJob, tick, hq, State.active_complete]

/-- The same job, step by step: its micro-operations and its completion. -/
theorem run_of_ticks {n : Nat} (g : Ticks n (s.issue j) t) (ha : t.active = true) (hf : t.fault = none)
    (hq : t.seq = .idle) : Host.Core.run core (n + 1) (s.issue j) = .next t.complete := by
  have last : Ticks 1 t t.complete := .cons ha hf (by simp [tick, hq]) (.refl _)
  exact (g.trans last).run

/-- A bus operation on an engine that can take it runs when its buffers fit (R72). -/
theorem runCommand_of_fits {w : Byte} {k : Nat} (h : s.ReadyFor k) (hf : j.fits s.cfg = true) :
    runCommand w j s = runOp j s := by
  rw [runCommand, whenRunning_run h.1.1 h.1.2.1, h.2, if_neg (by simp), if_pos hf]

end Whole

end Sys2Proof.Machine
end

