-- ==== Sys2Proof/Laws/Observe.lean ====
section
/-! SUPPORT. Counts over a trace in parts, and the lines after it. -/

namespace Sys2Proof.Machine

@[simp] theorem Lines.replay_append (l : Lines) (a b : List PinEvent) : l.replay (a ++ b) = (l.replay a).replay b := by
  simp [Lines.replay]

theorem fallingEdges_append (l : Lines) (a b : List PinEvent) :
    fallingEdges l (a ++ b) = fallingEdges l a + fallingEdges (l.replay a) b := by
  induction a generalizing l with
  | nil => simp [fallingEdges, Lines.replay]
  | cons e a ih => simp [fallingEdges, ih, Lines.replay, Nat.add_assoc]

theorem risingEdges_append (l : Lines) (a b : List PinEvent) :
    risingEdges l (a ++ b) = risingEdges l a + risingEdges (l.replay a) b := by
  induction a generalizing l with
  | nil => simp [risingEdges, Lines.replay]
  | cons e a ih => simp [risingEdges, ih, Lines.replay, Nat.add_assoc]

theorem directionChanges_append (l : Lines) (a b : List PinEvent) :
    directionChanges l (a ++ b) = directionChanges l a + directionChanges (l.replay a) b := by
  induction a generalizing l with
  | nil => simp [directionChanges, Lines.replay]
  | cons e a ih => simp [directionChanges, ih, Lines.replay, Nat.add_assoc]

theorem risingLatches_append (l : Lines) (a b : List PinEvent) :
    risingLatches l (a ++ b) = risingLatches l a ++ risingLatches (l.replay a) b := by
  induction a generalizing l with
  | nil => simp [risingLatches, Lines.replay]
  | cons e a ih =>
    simp only [List.cons_append, risingLatches, ih, Lines.replay, List.foldl_cons]
    split <;> rfl

/-- A trace holds no refused word when neither part does (R70). -/
theorem traceError_append (a b : List PinEvent) : traceError (a ++ b) = (traceError a).or (traceError b) := by
  induction a with
  | nil => rfl
  | cons e a ih =>
    simp only [List.cons_append, traceError]
    cases decodePin e.w with
    | ok i => exact ih
    | error d => rfl

/-- Counts of a trace are the sums over its parts (R119). -/
theorem Tally.append {l : Lines} {a b : List PinEvent} {e p d r e' p' d' r' : Nat} (h : Tally l a e p d r)
    (g : Tally (l.replay a) b e' p' d' r') : Tally l (a ++ b) (e + e') (p + p') (d + d') (r + r') := by
  obtain ⟨h0, h1, h2, h3, h4, h5⟩ := h
  obtain ⟨g0, g1, g2, g3, g4, g5⟩ := g
  refine ⟨by rw [traceError_append, h0, g0]; rfl, by simp [h1, g1], by rw [fallingEdges_append, h2, g2],
    by rw [risingEdges_append, h3, g3], ?_, ?_⟩
  · simp only [countDelays, List.countP_append] at *; omega
  · simp only [countDirections, List.countP_append] at *; omega

end Sys2Proof.Machine
end

