-- ==== Sys2Proof/Laws/PerInstr.lean ====
section
/-! SUPPORT. One lemma per instruction: its word is a row of its own format's table, with RSV 0000 (spec 30 R64, R65,
R68, R69). -/

namespace Sys2Proof.Laws.Encoding

/-- The words of a format that name an instruction (R65, R69). -/
def wordsOf : Format → List Byte
  | .cmd => cmdRows.map Row.pattern
  | .pin => pinRows.map Row.pattern

/-- The instruction's word has RSV 0000 and is one of its format's words, which lists it once. -/
def Statement (i : Instr) : Prop := fieldRsv (encode i) = 0 ∧ (wordsOf i.format).count (encode i) = 1

theorem read (r : Buffer) : Statement (.read r) := ⟨by simp only [encode]; rfl, by simp only [encode, Instr.format]; rfl⟩
theorem write (w : Buffer) : Statement (.write w) := ⟨by simp only [encode]; rfl, by simp only [encode, Instr.format]; rfl⟩
theorem transfer (r w : Buffer) : Statement (.transfer r w) := ⟨by simp only [encode]; rfl, by simp only [encode, Instr.format]; rfl⟩
theorem transferInPlace (x : Buffer) : Statement (.transferInPlace x) := ⟨by simp only [encode]; rfl, by simp only [encode, Instr.format]; rfl⟩
theorem flush : Statement .flush := ⟨by simp only [encode]; rfl, by simp only [encode, Instr.format]; rfl⟩
theorem writeByte (b : Byte) : Statement (.writeByte b) := ⟨by simp only [encode]; rfl, by simp only [encode, Instr.format]; rfl⟩
theorem readByte : Statement .readByte := ⟨by simp only [encode]; rfl, by simp only [encode, Instr.format]; rfl⟩
theorem clkSetHigh : Statement .clkSetHigh := ⟨by simp only [encode]; rfl, by simp only [encode, Instr.format]; rfl⟩
theorem clkSetLow : Statement .clkSetLow := ⟨by simp only [encode]; rfl, by simp only [encode, Instr.format]; rfl⟩
theorem delay : Statement .delay := ⟨by simp only [encode]; rfl, by simp only [encode, Instr.format]; rfl⟩
theorem dataSetAsOutput : Statement .dataSetAsOutput := ⟨by simp only [encode]; rfl, by simp only [encode, Instr.format]; rfl⟩
theorem dataSetAsInput : Statement .dataSetAsInput := ⟨by simp only [encode]; rfl, by simp only [encode, Instr.format]; rfl⟩
theorem dataSetHigh : Statement .dataSetHigh := ⟨by simp only [encode]; rfl, by simp only [encode, Instr.format]; rfl⟩
theorem dataSetLow : Statement .dataSetLow := ⟨by simp only [encode]; rfl, by simp only [encode, Instr.format]; rfl⟩
theorem dataIsHigh : Statement .dataIsHigh := ⟨by simp only [encode]; rfl, by simp only [encode, Instr.format]; rfl⟩
theorem dataIsLow : Statement .dataIsLow := ⟨by simp only [encode]; rfl, by simp only [encode, Instr.format]; rfl⟩

end Sys2Proof.Laws.Encoding
end

