-- ==== Sys2Proof/Laws/Step.lean ====
section
/-! SUPPORT. Everything a micro-operation, a tick and a step can answer. -/

namespace Sys2Proof.Machine

/-- The effect of a pin micro-operation on a state that can take it (R82-R93). -/
def pinEffect (i : Instr) (s : State) : State :=
  match i with
  | .clkSetHigh => { s with clk := true }.emit (encode i) none
  | .clkSetLow => { s with clk := false }.emit (encode i) none
  | .delay => { s with dcnt := 0 }.emit (encode i) none
  | .dataSetAsOutput =>
    { s with ddir := .out, dout := if s.ddir = Dir.out then s.dout else .unknown }.emit (encode i) none
  | .dataSetAsInput => { s with ddir := .inp }.emit (encode i) none
  | .dataSetHigh => { s with dout := .high }.emit (encode i) none
  | .dataSetLow => { s with dout := .low }.emit (encode i) none
  | .dataIsHigh => { s.drawn with ret := s.dataIn }.emit (encode i) (some s.dataIn)
  | .dataIsLow => { s.drawn with ret := !s.dataIn }.emit (encode i) (some s.dataIn)
  | .read _ | .write _ | .transfer _ _ | .transferInPlace _ | .flush | .writeByte _ | .readByte => s

/-- The direction of DATA that a micro-operation needs (R91). -/
def modeNeeded : Instr → Option Dir
  | .dataSetHigh | .dataSetLow => some .out
  | .dataIsHigh | .dataIsLow => some .inp
  | .clkSetHigh | .clkSetLow | .delay | .dataSetAsOutput | .dataSetAsInput => none
  | .read _ | .write _ | .transfer _ _ | .transferInPlace _ | .flush | .writeByte _ | .readByte => none

/-- The state on which a micro-operation has its effect: DELAY draws no choice of the driver (R93). -/
def State.readyFor (s : State) (i : Instr) : State := if i = .delay then s else s.settled

/-- Everything a pin micro-operation can answer with a next state: an admitted panic, a mode violation, or its effect. -/
theorem exec_pin_next {i : Instr} {s t : State} (hp : i.format = .pin) (h : exec i s = .next t) :
    s.live = true ∧ s.fault = none ∧
      ((i ≠ .delay ∧ s.cfg.driverMayPanic = true ∧ t = s.panicDrawn.raise (.driverPanic (encode i))) ∨
        (∃ d, modeNeeded i = some d ∧ s.ddir ≠ d ∧ t = s.settled.raise (.pinModeViolation (encode i))) ∨
        ((∀ d, modeNeeded i = some d → s.ddir = d) ∧ t = pinEffect i (s.readyFor i))) := by
  cases i <;> simp only [Instr.format, reduceCtorEq] at hp <;> simp only [exec] at h
  case delay =>
    obtain ⟨hl, hf, h⟩ := whenRunning_next h
    cases h
    exact ⟨hl, hf, .inr (.inr ⟨by simp [modeNeeded], by simp [pinEffect, State.readyFor, spin_zero]⟩)⟩
  case clkSetHigh | clkSetLow | dataSetAsOutput | dataSetAsInput =>
    obtain ⟨hl, hf, ⟨hc, ht⟩ | h⟩ := pinOp_next h
    · exact ⟨hl, hf, .inl ⟨by simp, hc, ht⟩⟩
    · cases h
      exact ⟨hl, hf, .inr (.inr ⟨by simp [modeNeeded], rfl⟩)⟩
  case dataSetHigh | dataSetLow | dataIsHigh | dataIsLow =>
    obtain ⟨hl, hf, ⟨hc, ht⟩ | h⟩ := pinOp_next h
    · exact ⟨hl, hf, .inl ⟨by simp, hc, ht⟩⟩
    · obtain ⟨hd, h⟩ | ⟨hd, ht⟩ := inMode_next h
      · cases h
        exact ⟨hl, hf, .inr (.inr ⟨by simpa [modeNeeded] using hd, by simp [pinEffect, State.readyFor]⟩)⟩
      · exact ⟨hl, hf, .inr (.inl ⟨_, rfl, by simpa using hd, ht⟩)⟩

/-- A pin micro-operation on an engine that can act, in the mode it needs, has its effect. -/
theorem exec_pin_act {i : Instr} {s : State} (hp : i.format = .pin) (hs : s.CanAct)
    (hm : ∀ d, modeNeeded i = some d → s.ddir = d) : exec i s = .next (pinEffect i (s.readyFor i)) := by
  cases i <;> simp only [Instr.format, reduceCtorEq] at hp <;> simp only [exec]
  case delay => rw [execDelay, whenRunning_run hs.1 hs.2.1, spin_zero]; rfl
  case clkSetHigh => exact pinOp_act hs _ _
  case clkSetLow => exact pinOp_act hs _ _
  case dataSetAsOutput => exact pinOp_act hs _ _
  case dataSetAsInput => exact pinOp_act hs _ _
  case dataSetHigh => exact (pinOp_act hs _ _).trans (inMode_act _ _ (by simpa using hm _ rfl))
  case dataSetLow => exact (pinOp_act hs _ _).trans (inMode_act _ _ (by simpa using hm _ rfl))
  case dataIsHigh => exact (pinOp_act hs _ _).trans (inMode_act _ _ (by simpa using hm _ rfl))
  case dataIsLow => exact (pinOp_act hs _ _).trans (inMode_act _ _ (by simpa using hm _ rfl))

/-- The register transfer before a phase's micro-operation: `S.tx <- b` or `S.k <- k` (R97, R101). -/
def State.prepared (s : State) (p : Pos) : Option State :=
  match p.phase with
  | .wbDir => (s.job.source p.i).map fun b => { s with tx := b }
  | .wbDrive | .rbClkLo => some { s with k := p.k }
  | .wbSettle | .wbClkLo | .wbHoldLo | .wbClkHi | .wbHoldHi | .rbDir | .rbHoldLo | .rbClkHi | .rbHoldHi | .rbSample => some s

/-- What follows a phase's micro-operation: the sequencer's move, `S.rx <- 0`, or the sample's bit and byte (R101). -/
def finishPhase (p : Pos) (s : State) : Out :=
  match p.phase with
  | .rbDir => .next ({ s with rx := 0 }.advance p)
  | .rbSample => finishSample p (s.accumulate p.k)
  | .wbDir | .wbDrive | .wbSettle | .wbClkLo | .wbHoldLo | .wbClkHi | .wbHoldHi | .rbClkLo | .rbHoldLo | .rbClkHi
  | .rbHoldHi => .next (s.advance p)

/-- A phase is its register transfer, its one micro-operation, and what follows (R31). -/
theorem runPhase_eq (p : Pos) (s : State) :
    runPhase p s = match s.prepared p with
      | some u => andThen (exec (phaseInstr p u) u) (finishPhase p)
      | none => .refused (.bufferIndex p.i) := by
  rcases p with ⟨i, k, ph⟩
  cases ph
  case wbDir =>
    simp only [runPhase, beginWrite, State.prepared, phaseInstr, exec]
    cases s.job.source i <;> rfl
  case wbDrive =>
    simp only [runPhase, State.prepared, phaseInstr]
    unfold driveBit
    cases byteBit s.tx k <;> rfl
  all_goals rfl

theorem phaseInstr_pin (p : Pos) (s : State) : (phaseInstr p s).format = .pin := by
  unfold phaseInstr
  split <;> (try split) <;> rfl

/-- Everything a phase can answer: its micro-operation on the prepared state, with its fault or with what follows. -/
theorem runPhase_next {p : Pos} {s t : State} (h : runPhase p s = .next t) :
    ∃ u v, s.prepared p = some u ∧ exec (phaseInstr p u) u = .next v ∧
      ((v.fault.isSome = true ∧ t = v) ∨ (v.fault = none ∧ finishPhase p v = .next t)) := by
  rw [runPhase_eq] at h
  split at h
  · next u hu =>
    obtain ⟨v, hv, h⟩ := andThen_next h
    exact ⟨u, v, hu, hv, h⟩
  · cases h

/-- Everything a step of an operation in progress can answer (R117). -/
theorem tick_next {s t : State} (h : tick s = .next t) :
    (s.seq = .idle ∧ t = s.complete) ∨ ∃ p, s.seq = .pos p ∧ runPhase p s = .next t := by
  unfold tick at h
  split at h
  · next hs => cases h; exact .inl ⟨hs, rfl⟩
  · next p hs => exact .inr ⟨p, hs, h⟩

/-- Everything what follows a phase can answer. -/
theorem finishPhase_next {p : Pos} {s t : State} (h : finishPhase p s = .next t) :
    ∃ rx j, t = State.advance { s with rx := rx, job := j } p ∧
      (p.phase ≠ .rbDir → p.phase ≠ .rbSample → rx = s.rx) ∧
      (j = s.job ∨ (p.phase = .rbSample ∧ p.k = 0 ∧ s.job.store p.i rx = some j)) := by
  rcases p with ⟨i, k, ph⟩
  cases ph
  case rbSample =>
    simp only [finishPhase, finishSample] at h
    split at h
    · next hk =>
      split at h
      · next j hj => cases h; exact ⟨_, j, rfl, by simp, .inr ⟨rfl, hk, hj⟩⟩
      · cases h
    · cases h; exact ⟨_, _, rfl, by simp, .inl rfl⟩
  case rbDir => cases h; exact ⟨_, _, rfl, by simp, .inl rfl⟩
  all_goals cases h; exact ⟨_, _, rfl, by simp, .inl rfl⟩

/-- A bus operation is its job run behind the port's length check (R72). -/
theorem exec_bus {i : Instr} {j : Job} (hb : busInstr i = true) (hj : jobOf i = some j) (s : State) :
    exec i s = runCommand (encode i) j s := by
  cases i <;> simp only [busInstr, reduceCtorEq] at hb <;> cases hj <;> rfl

/-- A primitive by itself is its job run (log 17). -/
theorem exec_primitive {i : Instr} {j : Job} (hb : busInstr i = false) (hj : jobOf i = some j) (s : State) :
    exec i s = runOp j s := by
  cases i <;> simp only [busInstr, reduceCtorEq] at hb <;> cases hj <;> rfl

/-- A job on an idle engine is its issue and the steps that follow (R117). -/
theorem runOp_idle {s : State} (hl : s.live = true) (hf : s.fault = none) (hb : s.active = false) (j : Job) :
    runOp j s = runJob (j.microCount + 1) (s.issue j) := by
  rw [runOp, whenRunning_run hl hf, hb, if_neg (by simp)]

/-- The operands of a well-formed bus operation fit the port (R72). -/
theorem fits_of_wf {i : Instr} {j : Job} {cfg : Config} (hj : jobOf i = some j) (hb : busInstr i = true)
    (hw : i.wf cfg = true) : j.fits cfg = true := by
  have he : cfg.allows Buffer.empty = true := by unfold Config.allows; cases cfg.maxLen <;> simp [Buffer.empty]
  cases i <;> simp only [busInstr, reduceCtorEq] at hb <;> cases hj <;>
    simp_all [Job.fits, Job.idle, Instr.wf, Buffer.fit]

/-- An idle engine's step takes the next request (R117). -/
theorem step_serve {s : State} {q : Request} {rest : List Request} (hf : s.fault = none) (hb : s.active = false)
    (hp : s.program = q :: rest) : step s = serveRequest q { s with program := rest } := by
  have e : step s = serve s := by simp [step, stepOnce, hf, hb]
  rw [e, serve, hp]

/-- A step of an operation in progress is a tick (R117). -/
theorem step_tick {s : State} (hf : s.fault = none) (hb : s.active = true) : step s = tick s := by
  simp [step, stepOnce, hf, hb]

/-- Everything a step can answer with a next state (R80, R117). -/
theorem step_next {s t : State} (h : step s = .next t) :
    s.fault = none ∧ ((s.active = true ∧ tick s = .next t) ∨
      (s.active = false ∧ ((s.program = [] ∧ t = s) ∨
        ∃ q rest, s.program = q :: rest ∧ serveRequest q { s with program := rest } = .next t))) := by
  unfold step stepOnce at h
  split at h
  · cases h
  · next hf =>
    refine ⟨hf, ?_⟩
    split at h
    · next hb => exact .inl ⟨hb, h⟩
    · next hb =>
      refine .inr ⟨by simpa using hb, ?_⟩
      unfold serve at h
      split at h
      · next hp => cases h; exact .inl ⟨hp, rfl⟩
      · next q rest hp => exact .inr ⟨q, rest, hp, h⟩

/-- Everything the command port can answer: a refusal, or the issue of a bus operation (R71, R72, R117). -/
theorem issueCommand_next {w : Byte} {o : Operands} {s t : State} (h : issueCommand w o s = .next t) :
    t = s.refuse w ∨ ∃ i j, decodeCmd w o = .ok i ∧ jobOf i = some j ∧ j.op.internal = false ∧ j.fits s.cfg = true ∧
      t = s.issue j := by
  unfold issueCommand at h
  split at h
  · cases h; exact .inl rfl
  · next i hi =>
    split at h
    · cases h; exact .inl rfl
    · next j hj =>
      split at h
      · cases h; exact .inl rfl
      · next hc =>
        cases h
        simp only [Bool.or_eq_true, Bool.not_eq_eq_eq_not, Bool.not_true, not_or, Bool.not_eq_true] at hc
        exact .inr ⟨i, j, hi, hj, hc.1, by simpa using hc.2, rfl⟩

end Sys2Proof.Machine
end

