-- ==== Sys2Proof/Laws/Timing.lean ====
section
/-! SUPPORT. The durations of the timing view: none is negative, and a pin micro-operation takes time (spec 00 R10; 70
R164). -/

namespace Sys2Proof.Machine

theorem Durations.tDelay_nonneg (cfg : Config) (d : Durations) : 0 ≤ d.tDelay cfg :=
  mul_nonneg (Nat.cast_nonneg _) d.tIter_pos.le

theorem Durations.least_nonneg (cfg : Config) (d : Durations) (e : PinEvent) : 0 ≤ d.least cfg e := by
  rw [Durations.least]
  split
  · exact d.tDelay_nonneg cfg
  · exact d.tPin_pos.le

theorem Durations.least_pos_of_pin (cfg : Config) (d : Durations) {e : PinEvent} (h : e.w ≠ encode .delay) :
    0 < d.least cfg e := by
  rw [Durations.least, if_neg h]
  exact d.tPin_pos

end Sys2Proof.Machine
end

