-- ==== Sys2Proof/Tests/Slice0.lean ====
section
/-! SUPPORT. The model's own tests. Expected values are the spec's: its encodings (30), its vectors (95), its rules. The last
part has, for every statement with hypotheses, a state and operands that meet them. -/

namespace Sys2Proof.Tests

open Sys2Proof.Machine

/-- The next state of an outcome. -/
def next? : Out → Option State
  | .next s => some s
  | .fault _ => none
  | .refused _ => none

/-- An outcome with a next state is that next state. -/
theorem next_exists {o : Out} (h : (next? o).isSome = true) : ∃ t, o = .next t := by
  cases o with
  | next t => exact ⟨t, rfl⟩
  | fault r => cases h
  | refused r => cases h

/-- The engine after reset with DELAY_ITERS = 3. -/
def demo : State := { State.reset with cfg := ⟨3, none, false⟩ }

/-- The same with lines and coming samples given, as the vectors of 95 write them. -/
def lined (c : Level) (d : Dir) (o : Latch) (l : List Level) : State :=
  { demo with clk := c, ddir := d, dout := o, samples := ⟨l, 0⟩ }

/-- The same with a driver that may panic, and whether it does now. -/
def jumpy (b : Bool) : State := { demo with cfg := ⟨3, some 2, true⟩, panics := ⟨[b], 0⟩ }

/-- The same with a driver that may panic, and does so at the pin micro-operation after `n` ones. -/
def panicsAfter (n : Nat) : State := { demo with cfg := ⟨3, none, true⟩, panics := ⟨List.replicate n false ++ [true], 0⟩ }

/-- The same with requests presented. -/
def asked (q : List Request) : State := { demo with program := q }

/-- The lines and the fault after an instruction. -/
def linesAfter (i : Instr) (s : State) : Option (Lines × Option FaultReason) :=
  (next? (exec i s)).map fun t => (t.lines, t.fault)

/-- The events that an instruction appends to the trace of `demo`. -/
def appended (i : Instr) (s : State) : Option (List Byte) := (next? (exec i s)).map fun t => (t.trace.drop 1).map PinEvent.w

/-- The reply that an instruction gives. -/
def replyOf (i : Instr) (s : State) : Option Reply := (next? (exec i s)).bind fun t => t.replies.getLast?

/-! ## Well-formedness: an ill-formed term for each check (20 R46, 30 R72; log 8) -/

theorem test_wf_good : Instr.wf ⟨3, some 2, false⟩ (.write ⟨2, [(0, 0x12), (1, 0x34)]⟩) = true := by decide
theorem test_wf_unsorted : Instr.wf ⟨3, none, false⟩ (.write ⟨2, [(1, 0x34), (0, 0x12)]⟩) = false := by decide
theorem test_wf_repeated : Instr.wf ⟨3, none, false⟩ (.transferInPlace ⟨2, [(1, 0x34), (1, 0x12)]⟩) = false := by decide
theorem test_wf_listed_zero : Instr.wf ⟨3, none, false⟩ (.read ⟨2, [(1, 0x00)]⟩) = false := by decide
theorem test_wf_outside : Instr.wf ⟨3, none, false⟩ (.transfer ⟨2, [(2, 0x01)]⟩ Buffer.empty) = false := by decide
theorem test_wf_over_max_len : Instr.wf ⟨3, some 2, false⟩ (.transfer Buffer.empty (Buffer.blank 3)) = false := by decide
theorem test_wf_at_max_len : Instr.wf ⟨3, some 2, false⟩ (.transfer (Buffer.blank 2) Buffer.empty) = true := by decide

/-! ## Decoding: words written bit by bit from 30 R64, R65, R68, R69 (vectors V-D1 to V-D7) -/

theorem test_decode_cmd :
    decodeCmd 0b00000001 ⟨Buffer.blank 2, Buffer.blank 3, Buffer.blank 4, 0xA5⟩ = .ok (.read (Buffer.blank 2)) ∧
      decodeCmd 0b00000010 ⟨Buffer.blank 2, Buffer.blank 3, Buffer.blank 4, 0xA5⟩ = .ok (.write (Buffer.blank 3)) ∧
      decodeCmd 0b00000011 ⟨Buffer.blank 2, Buffer.blank 3, Buffer.blank 4, 0xA5⟩ =
        .ok (.transfer (Buffer.blank 2) (Buffer.blank 3)) ∧
      decodeCmd 0b00000100 ⟨Buffer.blank 2, Buffer.blank 3, Buffer.blank 4, 0xA5⟩ =
        .ok (.transferInPlace (Buffer.blank 4)) ∧
      decodeCmd 0b00000101 Operands.none = .ok .flush := ⟨rfl, rfl, rfl, rfl, rfl⟩
theorem test_decode_primitives :
    decodeCmd 0b00001000 ⟨Buffer.empty, Buffer.empty, Buffer.empty, 0xA5⟩ = .ok (.writeByte 0xA5) ∧
      decodeCmd 0b00001001 Operands.none = .ok .readByte := ⟨rfl, rfl⟩
theorem test_decode_clk : decodePin 0b00000010 = .ok .clkSetHigh ∧ decodePin 0b00000011 = .ok .clkSetLow ∧
    decodePin 0b00000110 = .ok .delay := ⟨rfl, rfl, rfl⟩
theorem test_decode_data : decodePin 0b00001000 = .ok .dataSetAsOutput ∧ decodePin 0b00001001 = .ok .dataSetAsInput ∧
    decodePin 0b00001010 = .ok .dataSetHigh ∧ decodePin 0b00001011 = .ok .dataSetLow ∧
    decodePin 0b00001100 = .ok .dataIsHigh ∧ decodePin 0b00001101 = .ok .dataIsLow := ⟨rfl, rfl, rfl, rfl, rfl, rfl⟩
theorem test_decode_reserved_cmd :
    [(0x00 : Byte), 0x06, 0x07, 0x0A, 0x0B, 0x0C, 0x0D, 0x0E, 0x0F, 0x11, 0x81, 0xF2].all
      (fun w => (findRow cmdRows w).isNone) = true := by decide
theorem test_decode_illegal_pin : decodePin 0x00 = .error (.illegalPin 0x00) ∧ decodePin 0x01 = .error (.illegalPin 0x01) ∧
    decodePin 0x04 = .error (.illegalPin 0x04) ∧ decodePin 0x05 = .error (.illegalPin 0x05) := ⟨rfl, rfl, rfl, rfl⟩
theorem test_decode_reserved_pin : decodePin 0x07 = .error (.reservedPin 0x07) ∧
    decodePin 0x0E = .error (.reservedPin 0x0E) ∧ decodePin 0x0F = .error (.reservedPin 0x0F) ∧
    decodePin 0x1A = .error (.reservedPin 0x1A) ∧ decodePin 0x82 = .error (.reservedPin 0x82) := ⟨rfl, rfl, rfl, rfl, rfl⟩
theorem test_table_words : decodeTableWord 8 0x05 = some .flush ∧ decodeTableWord 8 0x09 = some .readByte ∧
    decodeTableWord 8 0x0D = some .dataIsLow ∧ decodeTableWord 8 0x10 = none := by decide

theorem test_decode_drops_buffer :
    decodeCmd 0x05 { Operands.none with w := Buffer.blank 9 } = .ok .flush ∧ ((next? (step { jumpy false with
      program := [.command 0x01 { Operands.none with r := Buffer.blank 1, w := Buffer.blank 9 }] })).map fun t =>
        (t.busy, t.job.w)) = some (true, Buffer.empty) := ⟨rfl, by decide⟩
theorem test_trace_refused : (Lines.before true).ofTrace [evOut, ⟨0x04, none⟩, evDelay] = .error (.illegalPin 0x04) ∧
    (Lines.before true).ofTrace [⟨0x00, none⟩] = .error (.illegalPin 0x00) ∧
    (Lines.before true).ofTrace [evClk false, evOut] = .ok ⟨false, .out, .unknown⟩ := ⟨rfl, rfl, rfl⟩

/-! ## Pin micro-operations (vectors V-P1 to V-P17, V-F1 to V-F6) -/

theorem test_out_from_unset : linesAfter .dataSetAsOutput (lined true .unset .unknown []) =
    some (⟨true, .out, .unknown⟩, none) := by decide
theorem test_out_latch : linesAfter .dataSetAsOutput (lined true .inp .high []) = some (⟨true, .out, .unknown⟩, none) ∧
    linesAfter .dataSetAsOutput (lined true .out .low []) = some (⟨true, .out, .low⟩, none) := by decide
theorem test_in_keeps_latch : linesAfter .dataSetAsInput (lined true .out .low []) = some (⟨true, .inp, .low⟩, none) := by
  decide
theorem test_high : linesAfter .dataSetHigh (lined true .out .unknown []) = some (⟨true, .out, .high⟩, none) := by decide
theorem test_high_in_unset : linesAfter .dataSetHigh (lined true .unset .unknown []) =
    some (⟨true, .unset, .unknown⟩, some (.pinModeViolation 0x0A)) := by decide
theorem test_low : linesAfter .dataSetLow (lined true .out .high []) = some (⟨true, .out, .low⟩, none) := by decide
theorem test_low_in_input : linesAfter .dataSetLow (lined true .inp .low []) =
    some (⟨true, .inp, .low⟩, some (.pinModeViolation 0x0B)) := by decide
theorem test_is_high : ((next? (exec .dataIsHigh (lined true .inp .low [true]))).map fun t => (t.ret, t.trace.getLast?)) =
    some (true, some ⟨0x0C, some true⟩) := by decide
theorem test_is_high_in_output : linesAfter .dataIsHigh (lined true .out .high [true]) =
    some (⟨true, .out, .high⟩, some (.pinModeViolation 0x0C)) := by decide
theorem test_is_low : ((next? (exec .dataIsLow (lined true .inp .low [true]))).map fun t => (t.ret, t.trace.getLast?)) =
    some (false, some ⟨0x0D, some true⟩) := by decide
theorem test_is_low_in_unset : linesAfter .dataIsLow (lined true .unset .unknown []) =
    some (⟨true, .unset, .unknown⟩, some (.pinModeViolation 0x0D)) := by decide
theorem test_clk_low : linesAfter .clkSetLow (lined true .inp .low []) = some (⟨false, .inp, .low⟩, none) := by decide
theorem test_clk_high : linesAfter .clkSetHigh (lined false .inp .low []) = some (⟨true, .inp, .low⟩, none) := by decide
theorem test_delay : spinValues 3 = [3, 2, 1, 0] ∧ spinValues 0 = [0] ∧ appended .delay demo = some [0x06] := by decide
theorem test_panic : linesAfter .clkSetLow (jumpy true) = some (⟨true, .unset, .unknown⟩, some (.driverPanic 0x03)) ∧
    linesAfter .clkSetLow (jumpy false) = some (⟨false, .unset, .unknown⟩, none) := by decide
theorem test_faulted : exec .clkSetLow { demo with fault := some (.pinModeViolation 0x0A) } =
    .fault (.engineFaulted (.pinModeViolation 0x0A)) := rfl

/-! ## Byte primitives (vectors V-WB1, V-RB1, V-RB6) -/

theorem test_write_byte_trace : appended (.writeByte 0xA5) demo = some
    [0x08, 0x0A, 0x06, 0x03, 0x06, 0x02, 0x06, 0x0B, 0x06, 0x03, 0x06, 0x02, 0x06, 0x0A, 0x06, 0x03, 0x06, 0x02, 0x06,
      0x0B, 0x06, 0x03, 0x06, 0x02, 0x06, 0x0B, 0x06, 0x03, 0x06, 0x02, 0x06, 0x0A, 0x06, 0x03, 0x06, 0x02, 0x06,
      0x0B, 0x06, 0x03, 0x06, 0x02, 0x06, 0x0A, 0x06, 0x03, 0x06, 0x02, 0x06] := by decide +kernel
theorem test_write_byte_end : linesAfter (.writeByte 0x02) (lined true .inp .high []) =
    some (⟨true, .out, .low⟩, none) := by decide +kernel
theorem test_read_byte_trace :
    appended .readByte (lined true .out .high [true, false, false, false, false, false, false, true]) = some
      [0x09, 0x03, 0x06, 0x02, 0x06, 0x0C, 0x03, 0x06, 0x02, 0x06, 0x0C, 0x03, 0x06, 0x02, 0x06, 0x0C,
        0x03, 0x06, 0x02, 0x06, 0x0C, 0x03, 0x06, 0x02, 0x06, 0x0C, 0x03, 0x06, 0x02, 0x06, 0x0C,
        0x03, 0x06, 0x02, 0x06, 0x0C, 0x03, 0x06, 0x02, 0x06, 0x0C] := by decide +kernel
theorem test_read_byte_result :
    ((next? (exec .readByte (lined true .out .high [false, false, true, true, true, true, false, false]))).map
      fun t => (t.rx, t.lines)) = some (0x3C, ⟨true, .inp, .high⟩) := by decide +kernel

/-! ## Bus operations (vectors V-OP2 to V-OP9, from construction) -/

/-- The samples of 0x3C and then 0x81. -/
def levels3C81 : List Level :=
  [false, false, true, true, true, true, false, false, true, false, false, false, false, false, false, true]

theorem test_read : replyOf (.read (Buffer.blank 2)) (lined true .unset .unknown levels3C81) =
    some (.done .ok (some ⟨2, [(0, 0x3C), (1, 0x81)]⟩) none) := by decide +kernel
theorem test_read_events : (appended (.read (Buffer.blank 2)) (lined true .unset .unknown levels3C81)).map List.length =
    some 82 := by decide +kernel
theorem test_write : linesAfter (.write (Buffer.ofBytes [0x12, 0x34])) demo = some (⟨true, .out, .low⟩, none) := by
  decide +kernel
theorem test_write_events : (appended (.write (Buffer.ofBytes [0x12, 0x34])) demo).map
    (fun l => (l.length, l.countP (· == 0x08))) = some (98, 2) := by decide +kernel
theorem test_transfer : replyOf (.transfer (Buffer.blank 2) (Buffer.ofBytes [0x02])) (lined true .unset .unknown levels3C81) =
    some (.done .ok (some ⟨2, [(0, 0x3C), (1, 0x81)]⟩) none) := by decide +kernel
theorem test_transfer_order :
    (appended (.transfer (Buffer.blank 2) (Buffer.ofBytes [0x02])) (lined true .unset .unknown levels3C81)).map
      (fun l => (l.length, [0, 47, 49, 50, 90].map fun i => l.getD i 0)) =
      some (131, [0x08, 0x02, 0x09, 0x03, 0x09]) := by decide +kernel
theorem test_transfer_in_place : replyOf (.transferInPlace (Buffer.ofBytes [0x80, 0x00]))
      (lined true .unset .unknown
        [false, true, true, true, true, true, true, true, true, false, true, false, false, true, false, true]) =
    some (.done .ok none (some ⟨2, [(0, 0x7F), (1, 0xA5)]⟩)) := by decide +kernel
theorem test_transfer_in_place_flips : (appended (.transferInPlace (Buffer.ofBytes [0x80, 0x00]))
    (lined true .unset .unknown levels3C81)).map (fun l => (l.length, [0, 49, 90, 139].map fun i => l.getD i 0)) =
      some (180, [0x08, 0x09, 0x08, 0x09]) := by decide +kernel
theorem test_flush : exec .flush demo = .next { demo with replies := [.done .ok none none] } := rfl
theorem test_zero_lengths : appended (.read (Buffer.blank 0)) demo = some [] ∧ appended (.write (Buffer.ofBytes [])) demo =
    some [] ∧ linesAfter (.transferInPlace (Buffer.ofBytes [])) demo = some (⟨true, .unset, .unknown⟩, none) := by decide

/-! ## Steps, the command port and the program text (30 R71, R77, R78; 42 R117; 70 R150, R153; program P6) -/

theorem test_issue : ((next? (step (asked [.command 0x02 { Operands.none with w := Buffer.ofBytes [0xC3] }]))).map
    fun t => (t.busy, t.seq, t.trace.length)) = some (true, .pos ⟨0, 7, .wbDir⟩, 1) := by decide
theorem test_primitive_not_busy : ((next? (step (asked [.writeByte 0xC3, .readByte]))).map
    fun t => (t.busy, t.active, t.pins.getLsbD 5, t.seq, t.program)) =
      some (false, true, false, .pos ⟨0, 7, .wbDir⟩, [.readByte]) := by decide
theorem test_refuse_internal : ((next? (step (asked [.command 0x08 Operands.none]))).map fun t => (t.busy, t.replies)) =
    some (false, [.refused 0x08]) := by decide
theorem test_micro_fault : ((next? (step (asked [.micro 0x0A, .micro 0x03]))).map fun t => (t.fault, t.trace.map PinEvent.w)) =
    some (some (.pinModeViolation 0x0A), [0x02]) := by decide
theorem test_micro_illegal : step (asked [.micro 0x04]) = .refused (.illegalPinWord 0x04) := rfl
theorem test_construct : ((next? (step { asked [.construct] with live := false, clk := false, ddir := .out })).map
    fun t => (t.live, t.lines, t.trace)) = some (true, ⟨true, .unset, .unknown⟩, [⟨0x02, none⟩]) := by decide
theorem test_fetch_word : ((next? (step (demo.withFetchWord 8 0x06))).map fun t => (t.trace.map PinEvent.w, t.program)) =
    some ([0x02, 0x06], []) := by decide
theorem test_fetch_other_length : ((next? (step (demo.withFetchWord 16 0x105))).map fun t => (t.busy, t.replies)) =
    some (false, [.refused 0x00]) := by decide
theorem test_assemble : assemble "reset\nwrite [0xC3]   ; command\n\ntransfer 2, [0x02, 17]\nnop\nclk.low".toList = some
    [.construct, .command 0x02 { Operands.none with w := Buffer.ofBytes [0xC3] },
      .command 0x03 { Operands.none with r := Buffer.blank 2, w := Buffer.ofBytes [0x02, 0x11] },
      .command 0x05 Operands.none, .micro 0x03] := by decide +kernel
theorem test_assemble_rejects : assemble "flush\nreset".toList = none ∧ assemble "write [256]".toList = none ∧
    assemble "wr8 [1]".toList = none := by decide +kernel

/-! ## Hypotheses met: one state and operands for each statement, and for each clause that has hypotheses of its own -/

theorem test_hyp_DecodeInvertsEncode : decode .cmd 0x05 Operands.none = .ok .flush ∧
    decode .pin 0x0D Operands.none = .ok .dataIsLow := ⟨rfl, rfl⟩

/-- ClockOpsDriveClk: a driver that never panics, one that may and does not, and one that does. -/
theorem test_hyp_ClockOps : demo.CanAct ∧ (jumpy false).CanAct ∧ ((jumpy true).live = true ∧ (jumpy true).fault = none ∧
    (jumpy true).cfg.driverMayPanic = true ∧ (jumpy true).panicNow = true) := by decide

/-- DelaySpinsToZero, also where the driver would panic at a pin. -/
theorem test_hyp_Delay : demo.live = true ∧ demo.fault = none ∧ (jumpy true).live = true ∧ (jumpy true).fault = none := by
  decide

/-- DirectionOpsSetMode and WrongModeRaises: every direction; LevelOpsSetLatch: OUT; SampleOpsReturnLevel: IN. -/
theorem test_hyp_Modes : demo.CanAct ∧ demo.ddir ≠ .out ∧ demo.ddir ≠ .inp ∧
    ((lined true .out .high []).CanAct ∧ (lined true .out .high []).ddir = .out ∧ (lined true .out .high []).ddir ≠ .inp) ∧
    ((lined true .inp .low []).CanAct ∧ (lined true .inp .low []).ddir = .inp ∧ (lined true .inp .low []).ddir ≠ .out) := by
  decide

theorem test_hyp_EveryLevel : (lined true .inp .low [true]).CanAct ∧ (lined true .inp .low [true]).samples.script = [true] ∧
    (lined true .inp .low [false, true]).CanAct ∧ (lined true .inp .low [false, true]).samples.script = false :: [true] := by
  decide

/-- DriverPanicComesFirst, with a mode violation that applies too. -/
theorem test_hyp_DriverPanic : Instr.dataSetHigh.format = .pin ∧ Instr.dataSetHigh ≠ .delay ∧ (jumpy true).live = true ∧
    (jumpy true).fault = none ∧ (jumpy true).cfg.driverMayPanic = true ∧ (jumpy true).panicNow = true ∧
    (jumpy true).ddir ≠ .out := by decide

theorem test_hyp_Faulted : ({ demo with fault := some (.driverPanic 0x02) } : State).fault = some (.driverPanic 0x02) := rfl

/-- PinOpsFrame: an effect, a mode violation and a panic. -/
theorem test_hyp_PinOpsFrame : Instr.clkSetLow.format = .pin ∧ (∃ t, exec .clkSetLow demo = .next t) ∧
    (∃ t, exec .dataIsLow demo = .next t) ∧ (∃ t, exec .dataSetLow (jumpy true) = .next t) ∧ ∃ t, exec .delay demo = .next t :=
  ⟨rfl, next_exists (by decide), next_exists (by decide), next_exists (by decide), next_exists (by decide)⟩

/-- ReservedWordsAreRejected's trace clause: legal words before an illegal one and before a reserved one. -/
theorem test_hyp_Reserved : (∀ e ∈ writeEvents 0xA5, ∃ i, decodePin e.w = .ok i) ∧
    decodePin (⟨0x01, none⟩ : PinEvent).w = .error (.illegalPin 0x01) ∧
    decodePin (⟨0x0E, none⟩ : PinEvent).w = .error (.reservedPin 0x0E) := by
  have legal : ∀ l : List PinEvent, traceError l = none → ∀ e ∈ l, ∃ i, decodePin e.w = .ok i := by
    intro l h e he
    induction l with
    | nil => cases he
    | cons a l ih =>
      simp only [traceError] at h
      split at h
      · next i hi => exact (List.mem_cons.1 he).elim (fun e' => ⟨i, e' ▸ hi⟩) (ih h)
      · cases h
  exact ⟨legal _ (by decide), rfl, rfl⟩

/-- The primitives' and the operations' statements: a ready engine, CLK high; buffers of length 0, 1 and MAX_LEN. -/
theorem test_hyp_Operations : demo.Ready ∧ demo.ReadyFor 25 ∧ demo.ReadyFor (50 * 1) ∧ demo.clk = true ∧
    demo.seq = .idle ∧ demo.job = Job.idle ∧
    (Buffer.blank 0).fit demo.cfg = true ∧ (Buffer.ofBytes [0xA5]).fit demo.cfg = true ∧
    (Buffer.ofBytes [0xFF, 0x00]).fit ⟨3, some 2, false⟩ = true := by decide

/-- The same from each direction of DATA, from CLK low, and with a bound on the lengths. -/
theorem test_hyp_OperationsLines : (lined true .out .low []).Ready ∧ (lined false .inp .high []).Ready ∧
    ({ demo with cfg := ⟨0, some 2, false⟩ } : State).Ready := by decide

/-- The same with a driver that may panic and does not for as long as the operation lasts, but would right after it. -/
theorem test_hyp_OperationsMayPanic : (panicsAfter 50).ReadyFor (50 * (Buffer.ofBytes [0xA5]).len) ∧
    (panicsAfter 50).ReadyFor (25 * ((Buffer.ofBytes [0xA5]).len + (Buffer.blank 1).len)) ∧
    (panicsAfter 25).ReadyFor 25 ∧ (panicsAfter 0).Ready ∧ (panicsAfter 25).cfg.driverMayPanic = true ∧
    ¬ (panicsAfter 25).ReadyFor 26 ∧ jobOf .readByte = some { Job.idle with op := .readByte } ∧
    (panicsAfter 25).ReadyFor ({ Job.idle with op := .readByte } : Job).pinCount := by decide

theorem test_hyp_WriteByteIsMsbFirst : (Lines.mk true .unset .unknown).clk = true ∧ (Lines.mk true .out .high).clk = true := by
  decide

theorem test_hyp_Samples : ([true, false, false, false, false, false, false, true] : List Level).length = 8 := rfl

theorem test_hyp_EveryOperation : busInstr (.transfer (Buffer.blank 1) (Buffer.ofBytes [0x05])) = true ∧
    (Instr.transfer (Buffer.blank 1) (Buffer.ofBytes [0x05])).wf demo.cfg = true ∧ busInstr .flush = true ∧
    jobOf (.transfer (Buffer.blank 1) (Buffer.ofBytes [0x05])) =
      some { Job.idle with op := .transfer, r := Buffer.blank 1, w := Buffer.ofBytes [0x05] } ∧ demo.ReadyFor 50 := by
  decide

theorem test_hyp_ZeroLength : Instr.read Buffer.empty ∈
    [.read Buffer.empty, .write Buffer.empty, .transfer Buffer.empty Buffer.empty, .transferInPlace Buffer.empty] := by decide

/-- LoopbackReturnsSequence: the environment that sends the bits of 0x5A and 0x81 back. -/
theorem test_hyp_Loopback :
    let s := lined true .unset .unknown
      [false, true, false, true, true, false, true, false, true, false, false, false, false, false, false, true]
    let x := Buffer.ofBytes [0x5A, 0x81]
    s.ReadyFor (50 * x.len) ∧ x.fit s.cfg = true ∧
      ∀ i j b, j < 8 → x.read i = some b → s.samples.bit Config.freeLevel (8 * i + j) = b.getLsbD (7 - j) := by
  refine ⟨by decide, by decide, fun i j b hj hb => ?_⟩
  have hi : i < 2 := (Buffer.read_isSome (Buffer.ofBytes [0x5A, 0x81]) i).1 (by rw [hb]; rfl)
  match i, hi with
  | 0, _ => cases hb; revert j; decide
  | 1, _ => cases hb; revert j; decide

/-- CommandsFrame: a completed operation, one that a panic ends, and a refusal. -/
theorem test_hyp_CommandsFrame :
    jobOf (.write (Buffer.ofBytes [0xA5])) = some { Job.idle with op := .write, w := Buffer.ofBytes [0xA5] } ∧
    (∃ t, exec (.write (Buffer.ofBytes [0xA5])) demo = .next t) ∧
    (∃ t, exec (.write (Buffer.ofBytes [0xA5])) (jumpy true) = .next t) ∧
    ∃ t, exec (.write (Buffer.blank 3)) (jumpy true) = .next t :=
  ⟨rfl, next_exists (by decide +kernel), next_exists (by decide +kernel), next_exists (by decide +kernel)⟩

/-- What a fault left: where the operation stopped, its buffers R and X. -/
def stopped (i : Instr) (s : State) : Option (Option FaultReason × Seq × Buffer × Buffer) :=
  (next? (exec i s)).map fun t => (t.fault, t.seq, t.job.r, t.job.x)

/-- CommandsFrame's clauses about a fault: READ and TRANSFER_IN_PLACE that a panic ends at the byte of index 1, and TRANSFER
that one ends in its write phase. -/
theorem test_hyp_CommandsFrameFault :
    stopped (.read (Buffer.ofBytes [0x11, 0x22])) { panicsAfter 25 with samples := ⟨List.replicate 8 true, 0⟩ } =
      some (some (.driverPanic 0x09), .pos ⟨1, 7, .rbDir⟩, Buffer.ofBytes [0xFF, 0x22], Buffer.empty) ∧
    stopped (.transferInPlace (Buffer.ofBytes [0x11, 0x22])) { panicsAfter 50 with samples := ⟨List.replicate 8 true, 0⟩ } =
      some (some (.driverPanic 0x08), .pos ⟨1, 7, .wbDir⟩, Buffer.empty, Buffer.ofBytes [0xFF, 0x22]) ∧
    stopped (.transfer (Buffer.ofBytes [0x33]) (Buffer.ofBytes [0x44])) (panicsAfter 2) =
      some (some (.driverPanic 0x03), .pos ⟨0, 7, .wbClkLo⟩, Buffer.ofBytes [0x33], Buffer.empty) := by decide +kernel

/-- OperationsEnd, with a driver that panics at once. -/
theorem test_hyp_OperationsEnd : jobOf .readByte = some { Job.idle with op := .readByte } ∧ (jumpy true).live = true ∧
    (jumpy true).fault = none ∧ (jumpy true).active = false := by decide

/-- BufferReadAfterWrite: the last index of a buffer, and the first one outside. -/
theorem test_hyp_Buffer : (Buffer.ofBytes [0x12, 0x00]).wf = true ∧ 1 < (Buffer.ofBytes [0x12, 0x00]).len ∧
    (Buffer.ofBytes [0x12, 0x00]).len ≤ 2 := by decide

/-- StepIssuesCommand, StepsRunTheCommand, StepsRefineExec: a presented command, and the two primitives. -/
theorem test_hyp_StepIssues :
    let s := asked [.command 0x05 Operands.none, .command 0x09 Operands.none]
    s.Ready ∧ s.program = .command 0x05 Operands.none :: [.command 0x09 Operands.none] ∧
      decodeCmd 0x05 Operands.none = .ok .flush ∧ busInstr .flush = true ∧ Instr.flush.wf s.cfg = true ∧
      jobOf .flush = some { Job.idle with op := .flush } := ⟨by decide, rfl, rfl, rfl, rfl, rfl⟩
theorem test_hyp_StepIssuesWrite :
    let o : Operands := { Operands.none with w := Buffer.ofBytes [0xC3] }
    decodeCmd 0x02 o = .ok (.write o.w) ∧ busInstr (.write o.w) = true ∧ (Instr.write o.w).wf demo.cfg = true ∧
      jobOf (.write o.w) = some { Job.idle with op := .write, w := o.w } ∧ (asked [.command 0x02 o]).Ready :=
  ⟨rfl, rfl, by decide, rfl, by decide⟩
theorem test_hyp_StepsRefine : (asked [.writeByte 0xA5]).program = .writeByte 0xA5 :: [] ∧
    (asked [.readByte]).program = .readByte :: [] ∧ (asked [.readByte]).live = true ∧ (asked [.readByte]).fault = none ∧
    (asked [.readByte]).active = false ∧ jobOf .readByte = some { Job.idle with op := .readByte } ∧
    jobOf (.writeByte 0xA5) = some { Job.idle with op := .writeByte, w := Buffer.ofBytes [0xA5] } := by decide

/-- MicroLinesRunTheirWord: a legal, an illegal and a reserved word. -/
theorem test_hyp_MicroLines : (asked [.micro 0x0D]).program = .micro 0x0D :: [] ∧ (asked [.micro 0x0D]).live = true ∧
    (asked [.micro 0x0D]).fault = none ∧ (asked [.micro 0x0D]).active = false ∧ decodePin 0x0D = .ok .dataIsLow ∧
    decodePin 0x05 = .error (.illegalPin 0x05) ∧ decodePin 0x07 = .error (.reservedPin 0x07) :=
  ⟨rfl, rfl, rfl, rfl, rfl, rfl, rfl⟩

/-- FetchedWordRuns: a micro-operation, an operation and a primitive. -/
theorem test_hyp_FetchedWord : decodeTableWord 8 0x06 = some .delay ∧ Instr.delay.format = .pin ∧
    decodeTableWord 8 0x05 = some .flush ∧ jobOf .flush = some { Job.idle with op := .flush } ∧
    decodeTableWord 8 0x08 = some (.writeByte 0) := by decide

/-- BusyEngineTakesNoCommand, and StepAppendsOneEvent's clauses on an operation in progress: a primitive and a command at a
position that samples, an operation about to complete, and a panic. -/
theorem test_hyp_Busy :
    let s : State := demo.issue { Job.idle with op := .readByte }
    let r : State := { demo.issue { Job.idle with op := .read, r := Buffer.blank 1 } with
      ddir := .inp, seq := .pos ⟨0, 3, .rbSample⟩ }
    let u : State := demo.issue { Job.idle with op := .flush }
    s.busy = false ∧ s.active = true ∧ s.seq = .pos ⟨0, 7, .rbDir⟩ ∧ s.live = true ∧ s.fault = none ∧
      (∃ t, step s = .next t) ∧ r.busy = true ∧ r.active = true ∧ (∃ t, step r = .next t) ∧
      (∃ t, step { r with cfg := ⟨3, none, true⟩, panics := ⟨[true], 0⟩ } = .next t) ∧
      u.busy = true ∧ u.active = true ∧ u.seq = .idle ∧ (∃ t, step u = .next t) ∧
      jobOf .flush = some { Job.idle with op := .flush } :=
  ⟨rfl, rfl, rfl, rfl, rfl, next_exists (by decide), rfl, rfl, next_exists (by decide), next_exists (by decide), rfl, rfl, rfl,
    next_exists (by decide), rfl⟩

/-- PortRefusesOtherWords: next to the legal words, an internal one, and the last. -/
theorem test_hyp_Port : (0x00 : Byte) ∉ [(0x01 : Byte), 0x02, 0x03, 0x04, 0x05] ∧
    (0x06 : Byte) ∉ [(0x01 : Byte), 0x02, 0x03, 0x04, 0x05] ∧ (0x08 : Byte) ∉ [(0x01 : Byte), 0x02, 0x03, 0x04, 0x05] ∧
    (0xFF : Byte) ∉ [(0x01 : Byte), 0x02, 0x03, 0x04, 0x05] ∧
    (asked [.command 0xFF Operands.none]).program = .command 0xFF Operands.none :: [] ∧
    (asked [.command 0xFF Operands.none]).Ready := by decide

/-- OverlongBufferIsRefused: one byte over MAX_LEN, by exec and presented. -/
theorem test_hyp_Overlong :
    let s : State := { jumpy false with program := [.command 0x02 { Operands.none with w := Buffer.blank 3 }] }
    s.live = true ∧ s.fault = none ∧ s.active = false ∧ s.cfg.maxLen = some 2 ∧ busInstr (.write (Buffer.blank 3)) = true ∧
      jobOf (.write (Buffer.blank 3)) = some { Job.idle with op := .write, w := Buffer.blank 3 } ∧
      2 < (Buffer.blank 3).len ∧
      s.program = .command (encode (.write (Buffer.blank 3))) (Instr.write (Buffer.blank 3)).operands :: [] := by decide

/-- OverlongBufferIsRefused where nothing bounds the lengths: a buffer of 1000 bytes, presented. -/
theorem test_hyp_Unbounded :
    let i : Instr := .read (Buffer.blank 1000)
    let s : State := asked [.command (encode i) i.operands]
    s.cfg.maxLen = none ∧ busInstr i = true ∧ jobOf i = some { Job.idle with op := .read, r := Buffer.blank 1000 } ∧
      s.live = true ∧ s.fault = none ∧ s.active = false ∧ s.program = .command (encode i) i.operands :: [] ∧
      i.wf s.cfg = true ∧ s.ReadyFor (25 * 1000) :=
  ⟨rfl, rfl, rfl, rfl, rfl, rfl, rfl, rfl, ⟨rfl, rfl, fun h => nomatch h⟩, rfl⟩

theorem test_hyp_IdleWaits : demo.fault = none ∧ demo.active = false ∧ demo.program = [] := by decide

/-- ConstructionEstablishesIdle: a driver that never panics, one that may and does not, and one that does. -/
theorem test_hyp_Construction :
    let off : State → State := fun s =>
      { s with live := false, clk := false, ddir := .out, dout := .low, program := [.construct] }
    ((off demo).live = false ∧ (off demo).fault = none ∧ (off demo).active = false ∧
      (off demo).program = .construct :: [] ∧ (off demo).cfg.driverMayPanic = false) ∧
    ((off (jumpy false)).active = false ∧ (off (jumpy false)).cfg.driverMayPanic = true ∧ (off (jumpy false)).panicNow = false) ∧
    ((off (jumpy true)).active = false ∧ (off (jumpy true)).cfg.driverMayPanic = true ∧ (off (jumpy true)).panicNow = true) := by
  decide

theorem test_hyp_Drop : (asked [.drop]).live = true ∧ (asked [.drop]).fault = none ∧ (asked [.drop]).active = false ∧
    (asked [.drop]).program = .drop :: [] := by decide

/-- DataWireFollowsDirection: each direction, each latch. -/
theorem test_hyp_Wire : (lined true .out .high []).ddir = .out ∧ (lined true .out .high []).dout = .high ∧
    (lined true .out .low []).dout = .low ∧ (lined true .out .unknown []).dout = .unknown ∧
    (lined true .inp .low []).ddir = .inp ∧ demo.ddir = .unset := by decide

/-- StepKeepsDiscipline: a WRITE about to drive a bit, with CLK high, and its step. -/
theorem test_hyp_Discipline :
    let s : State := { demo.issue { Job.idle with op := .write, w := Buffer.ofBytes [0xA5] } with
      ddir := .out, tx := 0xA5, seq := .pos ⟨0, 7, .wbDrive⟩ }
    s.Disciplined ∧ ∃ t, step s = .next t := by
  refine ⟨⟨fun r h => (by cases h), fun _ => rfl, fun h => (by cases h), fun _ _ h => (by cases h), fun p h => ?_,
    fun q h => (by cases h)⟩, next_exists (by decide)⟩
  cases h
  exact ⟨rfl, fun d h => (by cases h; rfl), rfl, fun h => (by cases h)⟩

/-- CommandsNeverStop: an idle engine with two commands presented, the second one refused later. -/
theorem test_hyp_CommandsNeverStop :
    let s := asked [.command 0x05 Operands.none, .command 0x00 Operands.none]
    s.Disciplined ∧ s.live = true ∧ s.cfg.driverMayPanic = false ∧ s.fault = none ∧
      ∀ q ∈ s.program, ∃ w o, q = .command w o := by
  refine ⟨⟨fun r h => (by cases h), fun h => (by cases h), fun _ => rfl, fun _ _ _ => rfl, fun p h => (by cases h), ?_⟩,
    rfl, rfl, rfl, ?_⟩
  · decide
  · intro q h
    simp only [asked, List.mem_cons, List.not_mem_nil, or_false] at h
    obtain rfl | rfl := h <;> exact ⟨_, _, rfl⟩

/-- StepKeepsTraceShowsLines and StepKeepsConfig: a micro-program line on a constructed engine. -/
theorem test_hyp_TraceShowsLines : (asked [.micro 0x08]).TraceShowsLines ∧ ∃ t, step (asked [.micro 0x08]) = .next t :=
  ⟨⟨false, rfl⟩, next_exists (by decide)⟩

/-- StepKeepsBuffersCanonical: a command with a buffer that is not empty, being issued. -/
theorem test_hyp_MemWf :
    let s := asked [.command 0x04 { Operands.none with x := Buffer.ofBytes [0x80, 0x00] }]
    s.memWf = true ∧ ∃ t, step s = .next t := ⟨by decide, next_exists (by decide)⟩

/-- StepAppendsOneEvent's idle clause. -/
theorem test_hyp_AppendsIdle : (asked [.command 0x00 Operands.none]).active = false ∧
    ∃ t, step (asked [.command 0x00 Operands.none]) = .next t := ⟨rfl, next_exists (by decide)⟩

/-- T_ITER and T_PIN of one unit each. -/
def unitTimes : Durations := ⟨1, 1, one_pos, one_pos⟩

/-- EdgeTimingBounds and PrimitiveDurations: WRITE_BYTE and READ_BYTE with every micro-operation at its least duration. -/
theorem test_hyp_Timing :
    (∃ ts last, TimedFrom ⟨1, none, false⟩ unitTimes 0 (writeEvents 0xA5) ts ∧ ts.getLast? = some last) ∧
      ∃ ts last, TimedFrom ⟨1, none, false⟩ unitTimes 0 (readEvents (List.replicate 8 true)) ts ∧ ts.getLast? = some last := by
  have timed : ∀ (tr : List PinEvent) (a : ℚ), traceError tr = none →
      ∃ ts, TimedFrom ⟨1, none, false⟩ unitTimes a tr ts ∧ ts.length = tr.length := by
    intro tr
    induction tr with
    | nil => exact fun a _ => ⟨[], trivial, rfl⟩
    | cons e tr ih =>
      intro a h
      obtain ⟨he, htr⟩ : traceError [e] = none ∧ traceError tr = none := by
        simp only [traceError] at h ⊢
        split at h
        · exact ⟨rfl, h⟩
        · cases h
      obtain ⟨ts, ht, hl⟩ := ih (a + Durations.least ⟨1, none, false⟩ unitTimes e) htr
      exact ⟨_ :: ts, ⟨he, le_refl _, ht⟩, by simp [hl]⟩
  have nonempty : ∀ (tr : List PinEvent), tr ≠ [] → traceError tr = none →
      ∃ ts last, TimedFrom ⟨1, none, false⟩ unitTimes 0 tr ts ∧ ts.getLast? = some last := by
    intro tr h he
    obtain ⟨ts, ht, hl⟩ := timed tr 0 he
    have hne : ts ≠ [] := by rintro rfl; exact h (List.length_eq_zero_iff.1 hl.symm)
    exact ⟨ts, _, ht, List.getLast?_eq_getLast_of_ne_nil hne⟩
  exact ⟨nonempty _ (by simp [writeEvents]) (by decide), nonempty _ (by simp [readEvents]) (by decide)⟩

end Sys2Proof.Tests
end

section
/-! The steps of a presented operation and the instruction's transition (spec 00 R16; 42 R117, R118): the issue as a step, the
steps that follow as `runJob`, and each bus operation's micro-operations counted to the end. -/

namespace Sys2Proof.Machine

/-- A run of a machine begins with its first step. -/
theorem coreRun_succ {M : Host.Core} {s t : M.State} (h : M.step s = .next t) (n : Nat) :
    M.run (n + 1) s = M.run n t := by
  rw [Host.Core.run, h]

/-- A run of one step is that step. -/
theorem coreRun_one (M : Host.Core) (s : M.State) : M.run 1 s = M.step s := by
  rw [Host.Core.run]
  cases M.step s <;> rfl

section Issue

variable {s : State} {i : Instr} {j : Job}

/-- A bus operation is no internal primitive (R67, R71). -/
theorem internal_of_busInstr (hb : busInstr i = true) (hj : jobOf i = some j) : j.op.internal = false := by
  cases i <;> cases hj <;> cases hb <;> rfl

/-- The port issues a well-formed bus command (R117). -/
theorem issueCommand_of_bus {w : Byte} {o : Operands} (hd : decodeCmd w o = .ok i) (hb : busInstr i = true)
    (hw : i.wf s.cfg = true) (hj : jobOf i = some j) : issueCommand w o s = .next (s.issue j) := by
  simp [issueCommand, hd, hj, internal_of_busInstr hb hj, fits_of_wf hj hb hw]

/-- A well-formed bus command is served by its issue (R117). -/
theorem serveRequest_command {w : Byte} {o : Operands} (hl : s.live = true) (hf : s.fault = none)
    (hd : decodeCmd w o = .ok i) (hb : busInstr i = true) (hw : i.wf s.cfg = true) (hj : jobOf i = some j) :
    serveRequest (.command w o) s = .next (s.issue j) :=
  (whenRunning_run hl hf _).trans (issueCommand_of_bus hd hb hw hj)

/-- A WRITE_BYTE line is served by its issue (log 5). -/
theorem serveRequest_writeByte {b : Byte} (hl : s.live = true) (hf : s.fault = none)
    (hj : jobOf (.writeByte b) = some j) : serveRequest (.writeByte b) s = .next (s.issue j) := by
  cases hj
  rw [serveRequest, whenRunning_run hl hf]

/-- A READ_BYTE line is served by its issue (log 5). -/
theorem serveRequest_readByte (hl : s.live = true) (hf : s.fault = none) (hj : jobOf .readByte = some j) :
    serveRequest .readByte s = .next (s.issue j) := by
  cases hj
  rw [serveRequest, whenRunning_run hl hf]

/-- A well-formed bus operation on an idle engine is its job run, since the port takes its buffers (R72). -/
theorem exec_bus_of_wf (hl : s.live = true) (hf : s.fault = none) (ha : s.active = false) (hb : busInstr i = true)
    (hw : i.wf s.cfg = true) (hj : jobOf i = some j) : exec i s = runOp j s := by
  have h : s.ReadyFor 0 := ⟨⟨hl, hf, fun _ t ht => absurd ht t.not_lt_zero⟩, ha⟩
  rw [exec_bus hb hj, runCommand_of_fits h (fits_of_wf hj hb hw)]

end Issue

/-! ## Every operation, whatever the driver does -/

/-- Running an operation goes on after a step that leaves it in progress with no fault. -/
theorem runJob_succ_of_go {s t : State} (ht : tick s = .next t) (hgo : (t.active && t.fault.isNone) = true) (n : Nat) :
    runJob (n + 1) s = runJob n t := by simp [runJob, ht, hgo]

/-- Running an operation ends with the step that completes it or raises a fault. -/
theorem runJob_succ_of_end {s t : State} (ht : tick s = .next t) (hend : (t.active && t.fault.isNone) = false)
    (n : Nat) : runJob (n + 1) s = .next t := by simp [runJob, ht, hend]

/-- Running an operation in progress is some number of the machine's steps, to completion, to a fault, or to a stop (R16). -/
theorem runJob_eq_run (n : Nat) {s : State} (ha : s.active = true) (hf : s.fault = none) :
    ∃ k, k ≤ n ∧ Host.Core.run core k s = runJob n s := by
  induction n generalizing s with
  | zero => exact ⟨0, le_rfl, rfl⟩
  | succ n ih =>
    have hone : Host.Core.run core 1 s = tick s := (coreRun_one core s).trans (step_tick hf ha)
    cases ht : tick s with
    | fault r => exact ⟨1, by omega, hone.trans (by rw [runJob, ht])⟩
    | refused r => exact ⟨1, by omega, hone.trans (by rw [runJob, ht])⟩
    | next t =>
      cases hgo : t.active && t.fault.isNone with
      | false => exact ⟨1, by omega, hone.trans (ht.trans (runJob_succ_of_end ht hgo n).symm)⟩
      | true =>
        obtain ⟨hta, htf⟩ := Bool.and_eq_true_iff.1 hgo
        obtain ⟨k, hk, hrun⟩ := ih hta (Option.isNone_iff_eq_none.1 htf)
        refine ⟨k + 1, by omega, (coreRun_succ (M := core) ((step_tick hf ha).trans ht) k).trans (hrun.trans ?_)⟩
        exact (runJob_succ_of_go ht hgo n).symm

/-- An operation issued by a step is refined by that step and the ones that follow (R16, R117). -/
theorem runOp_eq_run_of_issue {s u : State} {j : Job} (hs : step s = .next (u.issue j)) (hl : u.live = true)
    (hf : u.fault = none) (ha : u.active = false) :
    ∃ n, n ≤ j.microCount + 2 ∧ Host.Core.run core n s = runOp j u := by
  obtain ⟨k, hk, hrun⟩ := runJob_eq_run (j.microCount + 1) (u.active_issue j) hf
  exact ⟨k + 1, by omega, by rw [coreRun_succ (M := core) hs, hrun, runOp_idle hl hf ha]⟩

/-- Settles O38: the issue is one step, and `runJob` is some number of the steps that follow it. -/
theorem stepsRefineExec : Obligations.StepsRefineExec := by
  intro s q rest i j hl hf ha hp hj hq
  obtain ⟨hserve, hexec⟩ : serveRequest q { s with program := rest } = .next (State.issue { s with program := rest } j) ∧
      exec i { s with program := rest } = runOp j { s with program := rest } := by
    obtain ⟨w, o, rfl, hd, hb, hw⟩ | ⟨b, rfl, rfl⟩ | ⟨rfl, rfl⟩ := hq
    · exact ⟨serveRequest_command hl hf hd hb hw hj, exec_bus_of_wf hl hf ha hb hw hj⟩
    · exact ⟨serveRequest_writeByte hl hf hj, exec_primitive rfl hj _⟩
    · exact ⟨serveRequest_readByte hl hf hj, exec_primitive rfl hj _⟩
  rw [hexec]
  exact runOp_eq_run_of_issue ((step_serve hf ha hp).trans hserve) hl hf ha

/-! ## Bus operations whose driver does not panic -/

/-- The engine once every micro-operation of `j` is done, about to complete it (R117; log 13). -/
def State.finishing (s : State) (j : Job) : State := { s.issue j with seq := .idle }

@[simp] theorem State.finishing_active (s : State) (j : Job) : (s.finishing j).active = true := s.active_issue j
@[simp] theorem State.finishing_fault (s : State) (j : Job) : (s.finishing j).fault = s.fault := rfl
@[simp] theorem State.finishing_seq (s : State) (j : Job) : (s.finishing j).seq = .idle := rfl

@[simp] theorem State.wroteBytes_fault (s : State) (l : List Byte) : (s.wroteBytes l).fault = s.fault :=
  (State.wroteBytes_keeps l).2.1
@[simp] theorem State.readBytes_fault (s : State) (n : Nat) : (s.readBytes n).fault = s.fault :=
  (State.readBytes_keeps n).2.1
@[simp] theorem State.exchanged_fault (s : State) (l : List Byte) : (s.exchanged l).fault = s.fault :=
  (State.exchanged_keeps l).2.1

/-- WRITE_BYTEs use up 25 of the driver's choices each. -/
theorem State.CalmFor.wroteBytes {s : State} (l : List Byte) {n : Nat} (h : s.CalmFor (25 * l.length + n)) :
    (s.wroteBytes l).CalmFor n := by
  induction l generalizing s with
  | nil => exact h.mono (by omega)
  | cons b l ih =>
    exact ih (s := s.wroteByte b) (h.later 25 (25 * l.length + n) (by simp only [List.length_cons]; omega))

section Operations

variable {s : State}

/-- The steps of READ between issue and completion (R111, R119). -/
theorem read_ticks (r : Buffer) (h : s.CalmFor (25 * r.len)) :
    Ticks (41 * r.len) (s.issue { Job.idle with op := .read, r := r })
      ((s.readBytes r.len).finishing { Job.idle with op := .read, r := r.fill 0 (s.bytesAt r.len) }) := by
  refine (readLoop_ticks (s := s.issue _) (i := 0) (Nat.zero_add r.len) ⟨h, rfl⟩ rfl (.inl rfl)).cast ?_
  rw [State.readBytes_issue]; rfl

/-- The steps of WRITE between issue and completion (R112, R119). -/
theorem write_ticks (w : Buffer) (h : s.CalmFor (25 * w.len)) :
    Ticks (49 * w.len) (s.issue { Job.idle with op := .write, w := w })
      ((s.wroteBytes w.toBytes).finishing { Job.idle with op := .write, w := w }) := by
  rw [← w.toBytes_length] at h ⊢
  refine (writeLoop_ticks (s := s.issue _) (i := 0) w.toBytes rfl w.len.zero_le ⟨h, rfl⟩ rfl
    (fun _ => rfl) (fun _ => rfl)).cast ?_
  rw [State.wroteBytes_issue]; rfl

/-- The steps of TRANSFER between issue and completion: all WRITE_BYTEs, then all READ_BYTEs (R113, R119). -/
theorem transfer_ticks (r w : Buffer) (h : s.CalmFor (25 * (w.len + r.len))) :
    Ticks (49 * w.len + 41 * r.len) (s.issue { Job.idle with op := .transfer, r := r, w := w })
      (((s.wroteBytes w.toBytes).readBytes r.len).finishing
        { Job.idle with
          op := .transfer, r := r.fill 0 ((s.wroteBytes w.toBytes).bytesAt r.len), w := w }) := by
  have hc : s.CalmFor (25 * w.toBytes.length + 25 * r.len) := h.mono (by rw [w.toBytes_length]; omega)
  have writes := (writeLoop_ticks (s := s.issue { Job.idle with op := .transfer, r := r, w := w }) (i := 0)
    w.toBytes rfl w.len.zero_le ⟨hc.mono (by omega), rfl⟩ rfl (fun _ => rfl) (fun _ => rfl)).castLen
    (congrArg (49 * ·) w.toBytes_length)
  rw [State.wroteBytes_issue] at writes
  have reads := readLoop_ticks
    (s := { (s.wroteBytes w.toBytes).issue { Job.idle with op := .transfer, r := r, w := w } with
      seq := readFrom r.len 0 })
    (i := 0) (Nat.zero_add r.len) ⟨hc.wroteBytes, rfl⟩ rfl (.inr rfl)
  refine (writes.trans reads).cast ?_
  rw [State.readBytes_seq, State.readBytes_issue]; rfl

/-- The steps of TRANSFER_IN_PLACE between issue and completion (R114, R119). -/
theorem transferInPlace_ticks (x : Buffer) (hw : x.wf = true) (h : s.CalmFor (50 * x.len)) :
    Ticks (90 * x.len) (s.issue { Job.idle with op := .transferInPlace, x := x })
      ((s.exchanged x.toBytes).finishing
        { Job.idle with op := .transferInPlace, x := x.fill 0 (s.bytesAt x.len) }) := by
  rw [← x.toBytes_length] at h ⊢
  refine (exchangeLoop_ticks (s := s.issue { Job.idle with op := .transferInPlace, x := x }) (i := 0)
    x.toBytes rfl x.len.zero_le ⟨h, rfl⟩ rfl rfl hw).cast ?_
  rw [State.exchanged_issue]; rfl

/-- FLUSH has no step between issue and completion (R115, R119). -/
theorem flush_ticks (s : State) :
    Ticks 0 (s.issue { Job.idle with op := .flush }) (s.finishing { Job.idle with op := .flush }) := .refl _

/-- A well-formed bus operation whose driver does not panic runs every one of its micro-operations, and no more, without a
fault (R118, R119). -/
theorem bus_ticks {i : Instr} {j : Job} (hb : busInstr i = true) (hj : jobOf i = some j) (hw : i.wf s.cfg = true)
    (h : s.CalmFor j.pinCount) :
    ∃ (t : State) (j' : Job), t.fault = none ∧ Ticks j.microCount (s.issue j) (t.finishing j') := by
  have hf : s.fault = none := h.2.1
  cases i <;> cases hj <;> cases hb
  case read r => exact ⟨s.readBytes _, _, by simp [hf], read_ticks r h⟩
  case write w => exact ⟨s.wroteBytes _, _, by simp [hf], write_ticks w h⟩
  case transfer r w => exact ⟨(s.wroteBytes _).readBytes _, _, by simp [hf], transfer_ticks r w h⟩
  case transferInPlace x =>
    have hx : x.wf = true := (Bool.and_eq_true_iff.1 hw).1
    exact ⟨s.exchanged _, _, by simp [hf], transferInPlace_ticks x hx h⟩
  case flush => exact ⟨s, _, hf, flush_ticks s⟩

end Operations

/-- A bus operation issued by a step, whose driver does not panic, is that step, one for each of its micro-operations, and one
for the completion (R117, R118). -/
theorem run_microCount_of_issue {s u : State} {i : Instr} {j : Job} (hs : step s = .next (u.issue j))
    (hr : u.ReadyFor j.pinCount) (hb : busInstr i = true) (hj : jobOf i = some j) (hw : i.wf u.cfg = true) :
    Host.Core.run core (j.microCount + 2) s = runOp j u := by
  obtain ⟨t, j', htf, ticks⟩ := bus_ticks hb hj hw hr.1
  have hta := t.finishing_active j'
  have hf := (t.finishing_fault j').trans htf
  have hq := t.finishing_seq j'
  rw [runOp_of_ticks hr ticks rfl hta hf hq]
  exact (coreRun_succ (M := core) hs _).trans (run_of_ticks ticks hta hf hq)

/-- Settles O37: the command's issue is one step, and its job takes as many more as it counts and the completion. -/
theorem stepsRunTheCommand : Obligations.StepsRunTheCommand := by
  intro s w o rest i j hj hr hp hd hb hw
  have ⟨⟨hl, hf, _⟩, ha⟩ := hr
  rw [exec_bus_of_wf (s := { s with program := rest }) hl hf ha hb hw hj]
  exact run_microCount_of_issue ((step_serve hf ha hp).trans (serveRequest_command hl hf hd hb hw hj)) hr hb hj hw

end Sys2Proof.Machine
end

section
/-! The frame of a pin micro-operation (spec 10 R39; 40 R80; 60 R132), what an idle engine can answer, and what follows for a
step: the trace shows the lines (10 R34) and the configuration stays (10 R37). -/

namespace Sys2Proof.Machine

/-! ## The effect of a pin micro-operation, field by field -/

section Effect

variable {i : Instr} {s : State}

/-- Before its effect a micro-operation draws at most the driver's choice (R81, R93). -/
theorem State.readyFor_eq (s : State) (i : Instr) :
    s.readyFor i = { s with panics := s.panics.skip (if i = .delay then 0 else s.cfg.choices 1) } := by
  unfold State.readyFor
  split
  · rw [Feed.skip_zero]
  · rfl

/-- The effect writes the lines, the delay counter, the trace, and what a sample writes, and nothing else. -/
theorem pinEffect_eq (i : Instr) (s : State) : pinEffect i s =
    { s with
      clk := (pinEffect i s).clk, ddir := (pinEffect i s).ddir, dout := (pinEffect i s).dout,
      dcnt := (pinEffect i s).dcnt, trace := (pinEffect i s).trace, ret := (pinEffect i s).ret,
      samples := (pinEffect i s).samples } := by
  cases i <;> rfl

theorem pinEffect_clk (hh : i ≠ .clkSetHigh) (hl : i ≠ .clkSetLow) : (pinEffect i s).clk = s.clk := by
  cases i
  case clkSetHigh => exact absurd rfl hh
  case clkSetLow => exact absurd rfl hl
  all_goals rfl

theorem pinEffect_ddir (ho : i ≠ .dataSetAsOutput) (hi : i ≠ .dataSetAsInput) : (pinEffect i s).ddir = s.ddir := by
  cases i
  case dataSetAsOutput => exact absurd rfl ho
  case dataSetAsInput => exact absurd rfl hi
  all_goals rfl

theorem pinEffect_dout (hh : i ≠ .dataSetHigh) (hl : i ≠ .dataSetLow) (ho : i = .dataSetAsOutput → s.ddir = .out) :
    (pinEffect i s).dout = s.dout := by
  cases i
  case dataSetHigh => exact absurd rfl hh
  case dataSetLow => exact absurd rfl hl
  case dataSetAsOutput => exact if_pos (ho rfl)
  all_goals rfl

theorem pinEffect_dcnt (hd : i ≠ .delay) : (pinEffect i s).dcnt = s.dcnt := by
  cases i
  case delay => exact absurd rfl hd
  all_goals rfl

theorem pinEffect_sampled (hh : i ≠ .dataIsHigh) (hl : i ≠ .dataIsLow) :
    (pinEffect i s).ret = s.ret ∧ (pinEffect i s).samples = s.samples := by
  cases i
  case dataIsHigh => exact absurd rfl hh
  case dataIsLow => exact absurd rfl hl
  all_goals exact ⟨rfl, rfl⟩

/-- The effect appends the one event of its word, which shows a reader of the trace the new lines (R34). -/
theorem pinEffect_event (hp : i.format = .pin) : ∃ lv, (pinEffect i s).trace = s.trace ++ [⟨encode i, lv⟩] ∧
    (pinEffect i s).lines = s.lines.after ⟨encode i, lv⟩ := by
  cases i <;> cases hp <;> exact ⟨_, rfl, rfl⟩

end Effect

/-! ## The frame of a pin micro-operation, a panic and a mode violation included -/

/-- The next state `t` differs from `s` only as the pin micro-operation `i` may write it (R39, R80, R132). -/
structure PinFrame (i : Instr) (s t : State) : Prop where
  busy : t.busy = s.busy
  seq : t.seq = s.seq
  tx : t.tx = s.tx
  rx : t.rx = s.rx
  k : t.k = s.k
  job : t.job = s.job
  live : t.live = s.live
  cfg : t.cfg = s.cfg
  program : t.program = s.program
  replies : t.replies = s.replies
  clk : i ≠ .clkSetHigh → i ≠ .clkSetLow → t.clk = s.clk
  ddir : i ≠ .dataSetAsOutput → i ≠ .dataSetAsInput → t.ddir = s.ddir
  dout : i ≠ .dataSetHigh → i ≠ .dataSetLow → (i = .dataSetAsOutput → s.ddir = .out) → t.dout = s.dout
  dcnt : i ≠ .delay → t.dcnt = s.dcnt
  sampled : i ≠ .dataIsHigh → i ≠ .dataIsLow → t.ret = s.ret ∧ t.samples = s.samples
  panics : i = .delay ∨ s.cfg.driverMayPanic = false → t.panics = s.panics
  /-- One event that shows the new lines and no fault, or a fault and nothing else. -/
  outcome : (t.fault = none ∧ ∃ lv, t.trace = s.trace ++ [⟨encode i, lv⟩] ∧ t.lines = s.lines.after ⟨encode i, lv⟩) ∨
    (t.trace = s.trace ∧ t.lines = s.lines ∧ t.ret = s.ret ∧ t.samples = s.samples ∧
      (t.fault = some (.pinModeViolation (encode i)) ∨
        (s.cfg.driverMayPanic = true ∧ t.fault = some (.driverPanic (encode i)))))

section Frame

variable {i : Instr} {s t : State}

/-- With no choice of the driver admitted, none is drawn (log 10). -/
theorem Feed.skip_choices_of_calm {cfg : Config} (hc : cfg.driverMayPanic = false) (f : Feed) (n : Nat) :
    f.skip (cfg.choices n) = f := by
  simp [Config.choices, hc]

/-- A fault writes the fault state and the driver's choice only (R132). -/
theorem PinFrame.of_raise {f : Feed} {r : FaultReason}
    (hf : i = .delay ∨ s.cfg.driverMayPanic = false → f = s.panics)
    (hr : r = .pinModeViolation (encode i) ∨ (s.cfg.driverMayPanic = true ∧ r = .driverPanic (encode i))) :
    PinFrame i s (State.raise { s with panics := f } r) where
  busy := rfl
  seq := rfl
  tx := rfl
  rx := rfl
  k := rfl
  job := rfl
  live := rfl
  cfg := rfl
  program := rfl
  replies := rfl
  clk _ _ := rfl
  ddir _ _ := rfl
  dout _ _ _ := rfl
  dcnt _ := rfl
  sampled _ _ := ⟨rfl, rfl⟩
  panics := hf
  outcome := .inr ⟨rfl, rfl, rfl, rfl, hr.imp (congrArg some) (And.imp_right (congrArg some))⟩

/-- The effect itself keeps to the frame (R82-R93). -/
theorem PinFrame.of_effect (hp : i.format = .pin) (hf : s.fault = none) : PinFrame i s (pinEffect i (s.readyFor i)) := by
  have hpanics : i = .delay ∨ s.cfg.driverMayPanic = false → (s.readyFor i).panics = s.panics := by
    rw [State.readyFor_eq]
    rintro (rfl | hc)
    · exact Feed.skip_zero _
    · split
      · exact Feed.skip_zero _
      · exact Feed.skip_choices_of_calm hc _ _
  rw [State.readyFor_eq] at hpanics ⊢
  have heq := pinEffect_eq i { s with panics := s.panics.skip (if i = .delay then 0 else s.cfg.choices 1) }
  exact {
    busy := (congrArg State.busy heq :)
    seq := (congrArg State.seq heq :)
    tx := (congrArg State.tx heq :)
    rx := (congrArg State.rx heq :)
    k := (congrArg State.k heq :)
    job := (congrArg State.job heq :)
    live := (congrArg State.live heq :)
    cfg := (congrArg State.cfg heq :)
    program := (congrArg State.program heq :)
    replies := (congrArg State.replies heq :)
    clk := pinEffect_clk
    ddir := pinEffect_ddir
    dout := fun hh hl ho => pinEffect_dout hh hl ho
    dcnt := pinEffect_dcnt
    sampled := pinEffect_sampled
    panics := fun h => (congrArg State.panics heq).trans (hpanics h)
    outcome := .inl ⟨(congrArg State.fault heq).trans hf, pinEffect_event hp⟩ }

/-- Every pin micro-operation that gives a next state keeps to its frame (R39, R80). -/
theorem exec_pin_frame (hp : i.format = .pin) (h : exec i s = .next t) : PinFrame i s t := by
  obtain ⟨-, hf, ⟨hd, hc, rfl⟩ | ⟨d, hm, -, rfl⟩ | ⟨-, rfl⟩⟩ := exec_pin_next hp h
  · exact .of_raise (by simp [hd, hc]) (.inr ⟨hc, rfl⟩)
  · refine .of_raise ?_ (.inl rfl)
    rintro (rfl | hc)
    · cases hm
    · exact Feed.skip_choices_of_calm hc _ _
  · exact .of_effect hp hf

end Frame

/-- Settles O14: the frame of the micro-operation, with the fields it does not list read off. -/
theorem pinOpsFrame : Obligations.PinOpsFrame := by
  intro i s t hp h
  have frame := exec_pin_frame hp h
  refine ⟨⟨frame.busy, frame.seq, frame.tx, frame.rx, frame.k, frame.live, frame.cfg, frame.program, frame.replies,
    congrArg Job.op frame.job⟩, frame.clk, frame.ddir, frame.dout, frame.dcnt, frame.sampled, frame.panics, ?_,
    fun a => by simp [frame.job]⟩
  exact frame.outcome.imp_left fun ⟨hf, lv, htr, _⟩ => ⟨hf, lv, htr⟩

/-! ## What a phase, a request and a step can answer -/

section Answers

variable {s t u : State} {p : Pos}

/-- Only the pin micro-operations have a PIN word (R69). -/
theorem format_of_decodePin {w : Byte} {i : Instr} (h : decodePin w = .ok i) : i.format = .pin := by
  have rows : ∀ row ∈ pinRows, (row.build Operands.none).format = .pin := by decide
  unfold decodePin at h
  split at h
  · next row hrow =>
    cases h
    exact rows row (List.mem_of_find?_eq_some hrow)
  · split at h <;> cases h

/-- The PIN word of a pin micro-operation decodes to it (R69). -/
theorem decodePin_encode {i : Instr} (hp : i.format = .pin) : decodePin (encode i) = .ok i := by
  cases i <;> cases hp <;> rfl

/-- The register transfer before a phase's micro-operation writes tx and k only, and tx only for a WRITE_BYTE (R97, R101). -/
theorem prepared_next (h : s.prepared p = some u) :
    ∃ tx k, u = { s with tx := tx, k := k } ∧ (p.phase.prim = .rb → tx = s.tx) := by
  rcases p with ⟨i, k, ph⟩
  cases ph
  case wbDir =>
    obtain ⟨b, -, rfl⟩ := Option.map_eq_some_iff.1 h
    exact ⟨b, _, rfl, nofun⟩
  all_goals cases h; exact ⟨_, _, rfl, fun _ => rfl⟩

/-- No phase of a WRITE_BYTE samples (R97). -/
theorem phaseInstr_of_wb (hp : p.phase.prim = .wb) : phaseInstr p s ≠ .dataIsHigh ∧ phaseInstr p s ≠ .dataIsLow := by
  rcases p with ⟨i, k, ph⟩
  cases ph <;> cases hp
  case wbDrive => unfold phaseInstr; cases byteBit s.tx k <;> simp
  all_goals simp [phaseInstr]

/-- No phase of a READ_BYTE writes the latch (R101). -/
theorem phaseInstr_of_rb (hp : p.phase.prim = .rb) :
    phaseInstr p s ≠ .dataSetHigh ∧ phaseInstr p s ≠ .dataSetLow ∧ phaseInstr p s ≠ .dataSetAsOutput := by
  rcases p with ⟨i, k, ph⟩
  cases ph <;> cases hp <;> simp [phaseInstr]

/-- The next state `t` differs from `s` only as the phase of the position `p` may write it (R97, R101, R132). -/
structure PhaseFrame (p : Pos) (s t : State) : Prop where
  busy : t.busy = s.busy
  live : t.live = s.live
  cfg : t.cfg = s.cfg
  program : t.program = s.program
  replies : t.replies = s.replies
  panics : s.cfg.driverMayPanic = false → t.panics = s.panics
  ofWrite : p.phase.prim = .wb → t.rx = s.rx ∧ t.ret = s.ret ∧ t.samples = s.samples
  ofRead : p.phase.prim = .rb → t.tx = s.tx ∧ t.dout = s.dout
  /-- One event that shows the new lines, and the sequencer's move, with the byte stored after the eighth sample; or a fault,
  with trace, lines, sequencer and job as they were. -/
  outcome : (t.fault = none ∧ t.seq = t.job.nextSeq p ∧
      (t.job = s.job ∨ (p.phase = .rbSample ∧ p.k = 0 ∧ s.job.store p.i t.rx = some t.job)) ∧
      ∃ i lv, i.format = .pin ∧ t.trace = s.trace ++ [⟨encode i, lv⟩] ∧ t.lines = s.lines.after ⟨encode i, lv⟩) ∨
    (t.fault.isSome = true ∧ t.trace = s.trace ∧ t.lines = s.lines ∧ t.seq = s.seq ∧ t.job = s.job)

/-- Every phase that gives a next state keeps to its frame. -/
theorem runPhase_frame (h : runPhase p s = .next t) : PhaseFrame p s t := by
  obtain ⟨u, v, hu, hv, h⟩ := runPhase_next h
  obtain ⟨tx, k, rfl, htx⟩ := prepared_next hu
  have frame := exec_pin_frame (phaseInstr_pin p _) hv
  obtain ⟨rx, j, q, rfl, hrx, hend⟩ : ∃ rx j q, t = { v with rx := rx, job := j, seq := q } ∧
      (p.phase.prim = .wb → rx = v.rx) ∧
      ((v.fault.isSome = true ∧ j = v.job ∧ q = v.seq) ∨ (v.fault = none ∧ q = j.nextSeq p ∧
        (j = v.job ∨ (p.phase = .rbSample ∧ p.k = 0 ∧ v.job.store p.i rx = some j)))) := by
    obtain ⟨hf, rfl⟩ | ⟨hf, h⟩ := h
    · exact ⟨_, _, _, rfl, fun _ => rfl, .inl ⟨hf, rfl, rfl⟩⟩
    · obtain ⟨rx, j, rfl, hrx, hj⟩ := finishPhase_next h
      refine ⟨rx, j, _, rfl, fun hp => hrx ?_ ?_, .inr ⟨hf, rfl, hj⟩⟩ <;> (intro hph; rw [hph] at hp; cases hp)
  exact {
    busy := frame.busy
    live := frame.live
    cfg := frame.cfg
    program := frame.program
    replies := frame.replies
    panics := fun hc => frame.panics (.inr hc)
    ofWrite := fun hp =>
      have ⟨hh, hl⟩ := phaseInstr_of_wb hp
      ⟨(hrx hp).trans frame.rx, frame.sampled hh hl⟩
    ofRead := fun hp =>
      have ⟨hh, hl, ho⟩ := phaseInstr_of_rb hp
      ⟨frame.tx.trans (htx hp), frame.dout hh hl fun h => absurd h ho⟩
    outcome := by
      obtain ⟨hf, rfl, rfl⟩ | ⟨hf, rfl, hj⟩ := hend
      · obtain ⟨hn, -⟩ | ⟨htr, hln, -⟩ := frame.outcome
        · rw [hn] at hf; cases hf
        · exact .inr ⟨hf, htr, hln, frame.seq, frame.job⟩
      · obtain ⟨-, lv, htr, hln⟩ | ⟨-, -, -, -, hr | ⟨-, hr⟩⟩ := frame.outcome
        · rw [frame.job] at hj
          exact .inl ⟨hf, rfl, hj, _, lv, phaseInstr_pin p _, htr, hln⟩
        all_goals rw [hf] at hr; cases hr }

/-- What an idle engine answers to one request, case by case (R117, R150, R153; log 5). -/
inductive Served (s : State) : Request → State → Prop where
  | construct {t : State} (hl : s.live = false) (h : exec .clkSetHigh s.blank = .next t) : Served s .construct t
  | drop (hl : s.live = true) (hf : s.fault = none) : Served s .drop s.dropped
  | refuse {w : Byte} {o : Operands} (hl : s.live = true) (hf : s.fault = none) : Served s (.command w o) (s.refuse w)
  | issue {q : Request} {i : Instr} {j : Job} (hl : s.live = true) (hf : s.fault = none) (hj : jobOf i = some j)
      (hq : (∃ w o, q = .command w o ∧ decodeCmd w o = .ok i ∧ j.op.internal = false ∧ j.fits s.cfg = true) ∨
        (∃ b, q = .writeByte b ∧ i = .writeByte b) ∨ (q = .readByte ∧ i = .readByte)) : Served s q (s.issue j)
  | micro {w : Byte} {i : Instr} {t : State} (hd : decodePin w = .ok i) (h : exec i s = .next t) : Served s (.micro w) t

/-- Everything one request can answer on an idle engine. -/
theorem serveRequest_next {q : Request} (h : serveRequest q s = .next t) : Served s q t := by
  cases q with
  | construct =>
    simp only [serveRequest, Machine.construct] at h
    split at h
    · cases h
    · next hl => exact .construct (Bool.eq_false_iff.2 hl) h
  | drop =>
    rw [serveRequest] at h
    obtain ⟨hl, hf, h⟩ := whenRunning_next h
    cases h
    exact .drop hl hf
  | command w o =>
    obtain ⟨hl, hf, h⟩ := whenRunning_next h
    obtain rfl | ⟨i, j, hd, hj, hi, hfit, rfl⟩ := issueCommand_next h
    · exact .refuse hl hf
    · exact .issue hl hf hj (.inl ⟨w, o, rfl, hd, hi, hfit⟩)
  | micro w =>
    obtain ⟨-, -, h⟩ := whenRunning_next h
    unfold runMicro at h
    split at h
    · next i hd => exact .micro hd h
    all_goals cases h
  | writeByte b =>
    rw [serveRequest] at h
    obtain ⟨hl, hf, h⟩ := whenRunning_next h
    cases h
    exact .issue hl hf (i := .writeByte b) rfl (.inr (.inl ⟨b, rfl, rfl⟩))
  | readByte =>
    rw [serveRequest] at h
    obtain ⟨hl, hf, h⟩ := whenRunning_next h
    cases h
    exact .issue hl hf (i := .readByte) rfl (.inr (.inr ⟨rfl, rfl⟩))

end Answers

/-! ## The trace shows the lines, and the configuration stays -/

section Invariants

variable {s t : State}

/-- A trace that shows the lines shows them after one more event of a legal word (R34, R70). -/
theorem ofTrace_snoc {l m : Lines} {tr : List PinEvent} {e : PinEvent} {i : Instr} (h : l.ofTrace tr = .ok m)
    (he : decodePin e.w = .ok i) : l.ofTrace (tr ++ [e]) = .ok (m.after e) := by
  unfold Lines.ofTrace at h ⊢
  split at h
  · next hn =>
    cases h
    have hlast : traceError [e] = none := by simp [traceError, he]
    rw [traceError_append, hn, hlast, Lines.replay_append]
    rfl
  · cases h

/-- Whether the trace shows the lines is a matter of the trace and the lines. -/
theorem State.TraceShowsLines.congr (h : s.TraceShowsLines) (htr : t.trace = s.trace) (hln : t.lines = s.lines) :
    t.TraceShowsLines := by
  rwa [State.TraceShowsLines, htr, hln]

/-- One event of a pin micro-operation that shows the new lines keeps the trace showing them (R34). -/
theorem State.TraceShowsLines.event {i : Instr} {lv : Option Level} (h : s.TraceShowsLines) (hp : i.format = .pin)
    (htr : t.trace = s.trace ++ [⟨encode i, lv⟩]) (hln : t.lines = s.lines.after ⟨encode i, lv⟩) :
    t.TraceShowsLines := by
  obtain ⟨c, hc⟩ := h
  exact ⟨c, by rw [htr, hln]; exact ofTrace_snoc hc (decodePin_encode hp)⟩

theorem PinFrame.traceShowsLines {i : Instr} (frame : PinFrame i s t) (hp : i.format = .pin) (h : s.TraceShowsLines) :
    t.TraceShowsLines := by
  obtain ⟨-, lv, htr, hln⟩ | ⟨htr, hln, -⟩ := frame.outcome
  · exact h.event hp htr hln
  · exact h.congr htr hln

theorem PhaseFrame.traceShowsLines {p : Pos} (frame : PhaseFrame p s t) (h : s.TraceShowsLines) :
    t.TraceShowsLines := by
  obtain ⟨-, -, -, i, lv, hp, htr, hln⟩ | ⟨-, htr, hln, -⟩ := frame.outcome
  · exact h.event hp htr hln
  · exact h.congr htr hln

/-- Construction starts a new trace from the platform's level on CLK (R150). -/
theorem State.blank_traceShowsLines (s : State) : s.blank.TraceShowsLines := ⟨s.clk, rfl⟩

theorem Served.traceShowsLines {q : Request} (hs : Served s q t) (h : s.TraceShowsLines) : t.TraceShowsLines := by
  cases hs with
  | construct _ he => exact (exec_pin_frame rfl he).traceShowsLines rfl s.blank_traceShowsLines
  | micro hd he =>
    have hp := format_of_decodePin hd
    exact (exec_pin_frame hp he).traceShowsLines hp h
  | drop | refuse | issue => exact h

/-- Settles O53: every event comes with the lines that it shows, and a fault with neither. -/
theorem stepKeepsTraceShowsLines : Obligations.StepKeepsTraceShowsLines := by
  intro s t hs h
  obtain ⟨-, ⟨-, h⟩ | ⟨-, ⟨-, rfl⟩ | ⟨q, rest, -, h⟩⟩⟩ := step_next h
  · obtain ⟨-, rfl⟩ | ⟨p, -, h⟩ := tick_next h
    · exact hs
    · exact (runPhase_frame h).traceShowsLines hs
  · exact hs
  · exact (serveRequest_next h).traceShowsLines hs

theorem Served.cfg {q : Request} (hs : Served s q t) : t.cfg = s.cfg := by
  cases hs with
  | construct _ he => exact (exec_pin_frame rfl he).cfg
  | micro hd he => exact (exec_pin_frame (format_of_decodePin hd) he).cfg
  | drop | refuse | issue => rfl

/-- Settles O55: no phase, no request and no completion writes the configuration. -/
theorem stepKeepsConfig : Obligations.StepKeepsConfig := by
  intro s t h
  obtain ⟨-, ⟨-, h⟩ | ⟨-, ⟨-, rfl⟩ | ⟨q, rest, -, h⟩⟩⟩ := step_next h
  · obtain ⟨-, rfl⟩ | ⟨p, -, h⟩ := tick_next h
    · rfl
    · exact (runPhase_frame h).cfg
  · rfl
  · exact (serveRequest_next h).cfg

end Invariants

end Sys2Proof.Machine
end

section
/-! The engine in its fault state or in use (spec 10 R35, R36; 40 R80), reset (10 R40), and the views (10 R22, R28, R29). -/

namespace Sys2Proof.Machine

variable {s t : State}

/-- Every instruction looks first at the fault state (R36, R80). -/
theorem exec_faulted {r : FaultReason} (h : s.fault = some r) (i : Instr) : exec i s = .fault (.engineFaulted r) := by
  cases s
  cases h
  cases i <;> rfl

/-- Settles O13: a step looks first at the fault state too. -/
theorem faultedEngineTakesNoStep : Obligations.FaultedEngineTakesNoStep :=
  fun s _ h => ⟨by simp [step, stepOnce, h], exec_faulted h⟩

/-- A CMD instruction on an engine in use stops before its issue (93 U17; log 19). -/
theorem exec_of_active {i : Instr} {j : Job} (hj : jobOf i = some j) (hl : s.live = true) (hf : s.fault = none)
    (ha : s.active = true) : exec i s = .fault .commandWhileBusy := by
  cases hb : busInstr i
  · rw [exec_primitive hb hj, runOp, whenRunning_run hl hf, if_pos ha]
  · rw [exec_bus hb hj, runCommand, whenRunning_run hl hf, if_pos ha]

/-- A step of an operation in progress does not look at the consumer (R35). -/
theorem tick_program (h : tick s = .next t) : t.program = s.program := by
  obtain ⟨-, rfl⟩ | ⟨p, -, h⟩ := tick_next h
  · rfl
  · exact (runPhase_frame h).program

/-- Settles O41: a step in progress is a tick, and a CMD instruction stops before its issue. -/
theorem busyEngineTakesNoCommand : Obligations.BusyEngineTakesNoCommand := by
  refine ⟨fun s hb => by simp [State.active, hb], fun s t ha h => ?_, fun i j s hj hl hf ha => exec_of_active hj hl hf ha⟩
  obtain ⟨hf, -⟩ := step_next h
  exact tick_program ((step_tick hf ha).symm.trans h)

/-- Settles O45: the fields of `State.reset`. -/
theorem resetValues : Obligations.ResetValues := ⟨rfl, rfl, rfl, rfl, rfl, rfl, rfl, rfl, rfl⟩

/-- Flags put side by side, the last one as bit 0, under a bit 7 that reads 0. -/
theorem getLsbD_flags : ∀ f b o d h e c : Bool,
    let v : BitVec 8 := BitVec.ofBool false ++ BitVec.ofBool f ++ BitVec.ofBool b ++ BitVec.ofBool o ++ BitVec.ofBool d ++
      BitVec.ofBool h ++ BitVec.ofBool e ++ BitVec.ofBool c
    v.getLsbD 0 = c ∧ v.getLsbD 1 = e ∧ v.getLsbD 2 = h ∧ v.getLsbD 3 = d ∧ v.getLsbD 4 = o ∧ v.getLsbD 5 = b ∧
      v.getLsbD 6 = f ∧ v.getLsbD 7 = false := by
  decide

/-- Settles O48: the view is those flags side by side. -/
theorem pinsViewBits : Obligations.PinsViewBits := by
  refine ⟨fun s => ?_, rfl⟩
  have flags := getLsbD_flags s.fault.isSome s.busy (s.dout != .unknown) (s.ddir != .unset) (s.dout == .high)
    (s.ddir == .out) s.clk
  simpa only [State.pins, beq_eq_decide, bne, ← decide_not] using flags

/-- Settles O49: the direction decides, and as an output the latch. -/
theorem dataWireFollowsDirection : Obligations.DataWireFollowsDirection := by
  intro s
  refine ⟨fun hd => ?_, fun hd => ?_, fun hd => ?_, rfl⟩
  · exact ⟨by simp [State.dataOE, hd], fun ho => by simp [State.wire, hd, ho], fun ho => by simp [State.wire, hd, ho],
      fun ho => by simp [State.wire, hd, ho]⟩
  all_goals exact ⟨by simp [State.dataOE, hd], by simp [State.wire, hd]⟩

theorem State.reset_disciplined : State.reset.Disciplined where
  onlyPanics _ h := nomatch h
  busyCommand h := nomatch h
  idle _ := rfl
  clkHigh _ _ _ := rfl
  atPos _ h := nomatch h
  consumer _ h := nomatch h

/-- Settles O51: an idle engine with an empty program, and one event that drives CLK high. -/
theorem resetMeetsInvariants : Obligations.ResetMeetsInvariants :=
  ⟨State.reset_disciplined, ⟨false, rfl⟩, rfl⟩

end Sys2Proof.Machine
end

section
/-! The frame of the CMD instructions (spec 10 R39; 20 R45, R46, R51; 42 R115; 60 R132): what an operation in progress keeps of
the state it was issued on and of the buffers it was lent, at every position of the sequencer. -/

namespace Sys2Proof.Machine

/-! ## Where the sequencer goes -/

/-- The operation has byte primitives of this kind (R111-R115). -/
def Op.performs : Op → Prim → Bool
  | .write, .wb | .writeByte, .wb | .read, .rb | .readByte, .rb => true
  | .transfer, _ | .transferInPlace, _ => true
  | .flush, _ | .write, .rb | .writeByte, .rb | .read, .wb | .readByte, .wb => false

section Positions

variable {j : Job} {p q : Pos} {n i : Nat} {after : Seq}

theorem writeFrom_pos (h : writeFrom n i after = .pos q) : q = ⟨i, 7, .wbDir⟩ ∨ after = .pos q := by
  unfold writeFrom at h
  split at h
  · cases h; exact .inl rfl
  · exact .inr h

theorem readFrom_pos (h : readFrom n i = .pos q) : q = ⟨i, 7, .rbDir⟩ := by
  unfold readFrom at h
  split at h <;> cases h
  rfl

/-- An operation starts with a primitive that it has. -/
theorem performs_of_start (h : j.start = .pos q) : j.op.performs q.phase.prim = true := by
  rcases j with ⟨op, r, w, x⟩
  cases op
  case read => rw [readFrom_pos h]; rfl
  case write | transferInPlace =>
    obtain rfl | h := writeFrom_pos h
    · rfl
    · cases h
  case transfer => rfl
  case flush => cases h
  case writeByte | readByte => cases h; rfl

/-- After a WRITE_BYTE an operation goes on with a primitive that it has; TRANSFER_IN_PLACE with the READ_BYTE of the same
index (R112-R114). -/
theorem afterWrite_pos (h : j.afterWrite i = .pos q) :
    j.op.performs q.phase.prim = true ∧ (j.op = .transferInPlace → q.i = i) := by
  rcases j with ⟨op, r, w, x⟩
  cases op
  case write =>
    obtain rfl | h := writeFrom_pos h
    · exact ⟨rfl, nofun⟩
    · cases h
  case transfer => exact ⟨rfl, nofun⟩
  case transferInPlace => cases h; exact ⟨rfl, fun _ => rfl⟩
  case read | flush | writeByte | readByte => cases h

/-- After a READ_BYTE an operation goes on at the next index; READ and TRANSFER with a READ_BYTE (R111, R113, R114). -/
theorem afterRead_pos (h : j.afterRead i = .pos q) :
    j.op.performs q.phase.prim = true ∧ q.i = i + 1 ∧ (j.op ∈ [.read, .transfer] → q.phase.prim = .rb) := by
  rcases j with ⟨op, r, w, x⟩
  cases op
  case read | transfer => rw [readFrom_pos h]; exact ⟨rfl, rfl, fun _ => rfl⟩
  case transferInPlace =>
    obtain rfl | h := writeFrom_pos h
    · exact ⟨rfl, rfl, by simp⟩
    · cases h
  case write | flush | writeByte | readByte => cases h

/-- Everything a phase's move can lead to: a position of the same primitive, the one after a WRITE_BYTE, or the one after a
READ_BYTE, whose byte is then stored (R31, R97, R101). -/
theorem nextSeq_pos (h : j.nextSeq p = .pos q) (hp : j.op.performs p.phase.prim = true) :
    j.op.performs q.phase.prim = true ∧
      ((¬(p.phase = .rbSample ∧ p.k = 0) ∧ q.i = p.i ∧ q.phase.prim = p.phase.prim) ∨
        (p.phase = .wbHoldHi ∧ (j.op = .transferInPlace → q.i = p.i)) ∨
        (q.i = p.i + 1 ∧ (j.op ∈ [.read, .transfer] → q.phase.prim = .rb))) := by
  rcases p with ⟨i, k, ph⟩
  cases ph
  case wbHoldHi =>
    simp only [Job.nextSeq] at h
    split at h
    · obtain ⟨hq, hi⟩ := afterWrite_pos h
      exact ⟨hq, .inr (.inl ⟨rfl, hi⟩)⟩
    · cases h; exact ⟨hp, .inl ⟨nofun, rfl, rfl⟩⟩
  case rbSample =>
    simp only [Job.nextSeq] at h
    split at h
    · obtain ⟨hq, hi⟩ := afterRead_pos h
      exact ⟨hq, .inr (.inr hi)⟩
    · next hk => cases h; exact ⟨hp, .inl ⟨fun hs => hk hs.2, rfl, rfl⟩⟩
  all_goals cases h; exact ⟨hp, .inl ⟨nofun, rfl, rfl⟩⟩

end Positions

/-! ## The buffers that an operation was lent -/

/-- The job `j'` in progress has the operation of the lent job `j`, its W, and the lengths of its buffers (R46). -/
structure Job.Held (j j' : Job) : Prop where
  op : j'.op = j.op
  w : j'.w = j.w
  rLen : j'.r.len = j.r.len
  xLen : j'.x.len = j.x.len

/-- At the position `p` of the operation lent as `j`, the bytes of R and X in `j'` whose READ_BYTE is not done are as they were
lent (R46, R51, R111-R114). -/
structure Job.LentAt (j : Job) (p : Pos) (j' : Job) : Prop where
  performs : j.op.performs p.phase.prim = true
  r : ∀ a, (j.op ∉ [.read, .transfer] ∨ p.phase.prim = .wb ∨ p.i ≤ a) → j'.r.read a = j.r.read a
  x : ∀ a, (j.op ≠ .transferInPlace ∨ p.i ≤ a) → j'.x.read a = j.x.read a

section Buffers

variable {j j' j'' : Job} {p q : Pos} {i : Nat} {v : Byte}

/-- A READ_BYTE stores in R for READ and TRANSFER, in X for TRANSFER_IN_PLACE, at its index only (R47, R111, R113, R114). -/
theorem store_keeps (h : j.store i v = some j') : j.Held j' ∧
    (∀ a, (j.op ∉ [.read, .transfer] ∨ a ≠ i) → j'.r.read a = j.r.read a) ∧
    ∀ a, (j.op ≠ .transferInPlace ∨ a ≠ i) → j'.x.read a = j.x.read a := by
  rcases j with ⟨op, r, w, x⟩
  cases op
  case read | transfer =>
    obtain ⟨r', hr, rfl⟩ := Option.map_eq_some_iff.1 h
    obtain ⟨hlen, hread⟩ := Buffer.write_keeps hr
    exact ⟨⟨rfl, rfl, hlen, rfl⟩, fun a ha => hread a (ha.resolve_left (by simp)), fun _ _ => rfl⟩
  case transferInPlace =>
    obtain ⟨x', hx, rfl⟩ := Option.map_eq_some_iff.1 h
    obtain ⟨hlen, hread⟩ := Buffer.write_keeps hx
    exact ⟨⟨rfl, rfl, rfl, hlen⟩, fun _ _ => rfl, fun a ha => hread a (ha.resolve_left (by simp))⟩
  case readByte => cases h; exact ⟨⟨rfl, rfl, rfl, rfl⟩, fun _ _ => rfl, fun _ _ => rfl⟩
  case write | flush | writeByte => cases h

theorem Job.Held.trans (h : j.Held j') (h' : j'.Held j'') : j.Held j'' :=
  ⟨h'.op.trans h.op, h'.w.trans h.w, h'.rLen.trans h.rLen, h'.xLen.trans h.xLen⟩

/-- The sequencer's move keeps the unread bytes as they were lent: within a primitive and after a WRITE_BYTE nothing is stored,
and after a READ_BYTE the index stored at is passed. -/
theorem Job.LentAt.move (h : j.LentAt p j') (hop : j'.op = j.op) (hop' : j''.op = j.op)
    (hj : j'' = j' ∨ (p.phase = .rbSample ∧ p.k = 0 ∧ j'.store p.i v = some j'')) (hq : j''.nextSeq p = .pos q) :
    j.LentAt q j'' := by
  obtain ⟨hr, hx⟩ : (∀ a, (j.op ∉ [.read, .transfer] ∨ a ≠ p.i) → j''.r.read a = j'.r.read a) ∧
      ∀ a, (j.op ≠ .transferInPlace ∨ a ≠ p.i) → j''.x.read a = j'.x.read a := by
    obtain rfl | ⟨-, -, hs⟩ := hj
    · exact ⟨fun _ _ => rfl, fun _ _ => rfl⟩
    · rw [← hop]; exact (store_keeps hs).2
  obtain ⟨hperf, hmove⟩ := nextSeq_pos hq (by rw [hop']; exact h.performs)
  rw [hop'] at hperf hmove
  obtain ⟨hns, hi, hprim⟩ | ⟨hph, hi⟩ | ⟨hi, hprim⟩ := hmove
  · obtain rfl := hj.resolve_right fun hs => hns ⟨hs.1, hs.2.1⟩
    exact ⟨hperf, fun a ha => h.r a (by rwa [hi, hprim] at ha), fun a ha => h.x a (by rwa [hi] at ha)⟩
  · obtain rfl := hj.resolve_right fun hs => by rw [hph] at hs; cases hs.1
    refine ⟨hperf, fun a _ => h.r a (.inr (.inl (by rw [hph]; rfl))), fun a ha => h.x a ?_⟩
    by_cases ht : j.op = .transferInPlace
    · rwa [hi ht] at ha
    · exact .inl ht
  · refine ⟨hperf, fun a ha => ?_, fun a ha => ?_⟩
    · by_cases ho : j.op ∈ [.read, .transfer]
      · rw [hi, hprim ho] at ha
        have : p.i + 1 ≤ a := by simpa [ho] using ha
        exact (hr a (.inr (by omega))).trans (h.r a (.inr (.inr (by omega))))
      · exact (hr a (.inl ho)).trans (h.r a (.inl ho))
    · rw [hi] at ha
      exact (hx a (ha.imp_right fun _ => by omega)).trans (h.x a (ha.imp_right fun _ => by omega))

end Buffers

/-! ## An operation in progress, and what it leaves -/

/-- What the operation of `j`, issued on `s`, has kept in `t`, whether it is in progress, faulted or complete (R39, R115). -/
structure Kept (s : State) (j : Job) (t : State) : Prop where
  live : t.live = s.live
  cfg : t.cfg = s.cfg
  program : t.program = s.program
  trace : s.trace <+: t.trace
  panics : s.cfg.driverMayPanic = false → t.panics = s.panics
  ofWrites : j.op.performs .rb = false → t.rx = s.rx ∧ t.ret = s.ret ∧ t.samples = s.samples
  ofReads : j.op.performs .wb = false → t.tx = s.tx ∧ t.dout = s.dout
  ofFlush : j.op = .flush → t.lines = s.lines ∧ t.trace = s.trace ∧ t.k = s.k ∧ t.dcnt = s.dcnt

/-- `t` is a state of the operation of `j`, issued on `s` and not complete: in progress, or ended by a fault at a position. -/
structure Underway (s : State) (j : Job) (t : State) : Prop extends Kept s j t where
  busy : t.busy = !j.op.internal
  replies : t.replies = s.replies
  held : j.Held t.job
  lent : ∀ p, t.seq = .pos p → j.LentAt p t.job
  atFault : t.fault.isSome = true → ∃ p, t.seq = .pos p

section Progress

variable {s t u : State} {j : Job} {p : Pos}

/-- An operation that has one kind of primitive only is at one of that kind. -/
theorem prim_eq_wb {op : Op} {pr : Prim} (h : op.performs pr = true) (hn : op.performs .rb = false) : pr = .wb := by
  cases pr with
  | wb => rfl
  | rb => rw [hn] at h; cases h

theorem prim_eq_rb {op : Op} {pr : Prim} (h : op.performs pr = true) (hn : op.performs .wb = false) : pr = .rb := by
  cases pr with
  | wb => rw [hn] at h; cases h
  | rb => rfl

theorem Kept.refl (s : State) (j : Job) : Kept s j s :=
  ⟨rfl, rfl, rfl, List.prefix_rfl, fun _ => rfl, fun _ => ⟨rfl, rfl, rfl⟩, fun _ => ⟨rfl, rfl⟩, fun _ => ⟨rfl, rfl, rfl, rfl⟩⟩

/-- What is kept says nothing of S.busy, the sequencer, the job and the replies. -/
theorem Kept.update (h : Kept s j t) (busy : Bool) (seq : Seq) (job : Job) (replies : List Reply) :
    Kept s j { t with busy := busy, seq := seq, job := job, replies := replies } :=
  ⟨h.live, h.cfg, h.program, h.trace, h.panics, h.ofWrites, h.ofReads, h.ofFlush⟩

theorem Underway.issue (hf : s.fault = none) (j : Job) : Underway s j (s.issue j) where
  toKept := (Kept.refl s j).update ..
  busy := rfl
  replies := rfl
  held := ⟨rfl, rfl, rfl, rfl⟩
  lent _ hp := ⟨performs_of_start hp, fun _ _ => rfl, fun _ _ => rfl⟩
  atFault h := by rw [State.issue_fault, hf] at h; cases h

theorem Underway.active (h : Underway s j t) : t.active = true := by
  simp [State.active, h.busy, h.held.op]

theorem PhaseFrame.trace_prefix (frame : PhaseFrame p s t) : s.trace <+: t.trace := by
  obtain ⟨-, -, -, _, _, -, htr, -⟩ | ⟨-, htr, -⟩ := frame.outcome
  · exact htr ▸ List.prefix_append ..
  · exact htr ▸ List.prefix_rfl

/-- A phase leaves the job as it was or stores a byte (R51). -/
theorem PhaseFrame.job (frame : PhaseFrame p s t) :
    t.job = s.job ∨ (p.phase = .rbSample ∧ p.k = 0 ∧ s.job.store p.i t.rx = some t.job) := by
  obtain ⟨-, -, hj, -⟩ | ⟨-, -, -, -, hj⟩ := frame.outcome
  · exact hj
  · exact .inl hj

theorem PhaseFrame.held (frame : PhaseFrame p s t) : s.job.Held t.job := by
  obtain hj | ⟨-, -, hj⟩ := frame.job
  · rw [hj]; exact ⟨rfl, rfl, rfl, rfl⟩
  · exact (store_keeps hj).1

theorem Kept.phase (h : Kept s j u) (hp : j.op.performs p.phase.prim = true) (frame : PhaseFrame p u t) :
    Kept s j t where
  live := frame.live.trans h.live
  cfg := frame.cfg.trans h.cfg
  program := frame.program.trans h.program
  trace := h.trace.trans frame.trace_prefix
  panics hc := (frame.panics (h.cfg ▸ hc)).trans (h.panics hc)
  ofWrites hn :=
    have ⟨hrx, hret, hsm⟩ := frame.ofWrite (prim_eq_wb hp hn)
    have ⟨hrx', hret', hsm'⟩ := h.ofWrites hn
    ⟨hrx.trans hrx', hret.trans hret', hsm.trans hsm'⟩
  ofReads hn :=
    have ⟨htx, hdo⟩ := frame.ofRead (prim_eq_rb hp hn)
    have ⟨htx', hdo'⟩ := h.ofReads hn
    ⟨htx.trans htx', hdo.trans hdo'⟩
  ofFlush hfl := by rw [hfl] at hp; cases hpr : p.phase.prim <;> rw [hpr] at hp <;> cases hp

/-- A phase of an operation that is not complete leaves one that is not complete. -/
theorem Underway.phase (h : Underway s j u) (hq : u.seq = .pos p) (frame : PhaseFrame p u t) : Underway s j t where
  toKept := h.toKept.phase (h.lent p hq).performs frame
  busy := frame.busy.trans h.busy
  replies := frame.replies.trans h.replies
  held := h.held.trans frame.held
  lent q hq' := by
    obtain ⟨-, hseq, hj, -⟩ | ⟨-, -, -, hseq, hj⟩ := frame.outcome
    · exact (h.lent p hq).move h.held.op (h.held.trans frame.held).op hj (hseq.symm.trans hq')
    · rw [hj]; exact h.lent q (hseq.symm.trans hq')
  atFault hf := by
    obtain ⟨hn, -⟩ | ⟨-, -, -, hseq, -⟩ := frame.outcome
    · rw [hn] at hf; cases hf
    · exact ⟨p, hseq.trans hq⟩

/-- Running an operation leaves it not complete, or completes it from a state without a fault. -/
theorem Underway.runJob {n : Nat} (h : Underway s j u) (hf : u.fault = none) (hr : runJob n u = .next t) :
    Underway s j t ∨ ∃ v, Underway s j v ∧ v.fault = none ∧ t = v.complete := by
  induction n generalizing u with
  | zero => cases hr; exact .inl h
  | succ n ih =>
    cases ht : tick u with
    | fault r => rw [Machine.runJob, ht] at hr; cases hr
    | refused r => rw [Machine.runJob, ht] at hr; cases hr
    | next v =>
      obtain ⟨-, rfl⟩ | ⟨p, hq, hph⟩ := tick_next ht
      · rw [runJob_succ_of_end ht (by rw [State.active_complete]; rfl)] at hr
        cases hr
        exact .inr ⟨u, h, hf, rfl⟩
      · have hv := h.phase hq (runPhase_frame hph)
        cases hgo : v.active && v.fault.isNone with
        | true =>
          rw [runJob_succ_of_go ht hgo] at hr
          exact ih hv (Option.isNone_iff_eq_none.1 (Bool.and_eq_true_iff.1 hgo).2) hr
        | false =>
          rw [runJob_succ_of_end ht hgo] at hr
          cases hr
          exact .inl hv

end Progress

/-! ## The CMD instructions -/

section Commands

variable {i : Instr} {j : Job} {s t : State}

theorem runOp_next (h : runOp j s = .next t) :
    s.fault = none ∧ s.active = false ∧ runJob (j.microCount + 1) (s.issue j) = .next t := by
  obtain ⟨-, hf, h⟩ := whenRunning_next h
  split at h
  · cases h
  · next ha => exact ⟨hf, by simpa using ha, h⟩

/-- Everything a CMD instruction can answer with a next state: a refusal of its length, or its job run (R72). -/
theorem exec_cmd_next (hj : jobOf i = some j) (h : exec i s = .next t) :
    s.fault = none ∧ s.active = false ∧
      (t = s.refuse (encode i) ∨ runJob (j.microCount + 1) (s.issue j) = .next t) := by
  cases hb : busInstr i
  · rw [exec_primitive hb hj] at h
    obtain ⟨hf, ha, h⟩ := runOp_next h
    exact ⟨hf, ha, .inr h⟩
  · rw [exec_bus hb hj] at h
    obtain ⟨-, hf, h⟩ := whenRunning_next h
    split at h
    · cases h
    · next ha =>
      refine ⟨hf, by simpa using ha, ?_⟩
      split at h
      · exact .inr (runOp_next h).2.2
      · cases h; exact .inl rfl

theorem performs_rb_of_mem {op : Op} (h : op ∈ [.write, .flush, .writeByte]) : op.performs .rb = false := by
  cases op <;> simp at h <;> rfl

theorem performs_wb_of_mem {op : Op} (h : op ∈ [.read, .flush, .readByte]) : op.performs .wb = false := by
  cases op <;> simp at h <;> rfl

/-- Everything a CMD instruction can leave: a refusal, an operation not complete, or one completed without a fault. -/
theorem exec_cmd_frame (hj : jobOf i = some j) (h : exec i s = .next t) :
    (s.fault = none ∧ t = s.refuse (encode i)) ∨ Underway s j t ∨ ∃ v, Underway s j v ∧ v.fault = none ∧ t = v.complete := by
  obtain ⟨hf, -, rfl | h⟩ := exec_cmd_next hj h
  · exact .inl ⟨hf, rfl⟩
  · exact .inr ((Underway.issue hf j).runJob hf h)

end Commands

/-- Settles O33: what an operation in progress keeps holds of every state it can leave, of its completion too, and a fault
leaves it at a position. -/
theorem commandsFrame : Obligations.CommandsFrame := by
  intro i j s t hj h
  have hend := exec_cmd_frame hj h
  obtain ⟨hk, hreplies⟩ : Kept s j t ∧ s.replies <+: t.replies := by
    obtain ⟨-, rfl⟩ | hu | ⟨v, hv, -, rfl⟩ := hend
    · exact ⟨(Kept.refl s j).update .., List.prefix_append ..⟩
    · exact ⟨hu.toKept, hu.replies ▸ List.prefix_rfl⟩
    · exact ⟨hv.toKept.update .., hv.replies ▸ List.prefix_append ..⟩
  refine ⟨⟨hk.live, hk.cfg, hk.program, hk.trace, hreplies⟩, hk.panics, fun ho => hk.ofWrites (performs_rb_of_mem ho),
    fun ho => hk.ofReads (performs_wb_of_mem ho), hk.ofFlush, fun ha => ?_, fun hf => ?_⟩
  · obtain ⟨-, rfl⟩ | hu | ⟨v, -, -, rfl⟩ := hend
    · exact .inl rfl
    · rw [hu.active] at ha; cases ha
    · exact .inr rfl
  · obtain ⟨hn, rfl⟩ | hu | ⟨v, -, hn, rfl⟩ := hend
    · rw [State.refuse_fault, hn] at hf; cases hf
    · obtain ⟨p, hp⟩ := hu.atFault hf
      have hl := hu.lent p hp
      exact ⟨hu.replies, hu.held.op, hu.held.rLen, congrArg _ hu.held.w, hu.held.xLen, fun a => by rw [hu.held.w], p, hp,
        hl.r, hl.x⟩
    · rw [State.complete_fault, hn] at hf; cases hf

end Sys2Proof.Machine
end

section
/-! The buffers (spec 20 R46, R47): a byte read after it is written, and every buffer of the state in canonical form after
every step. -/

namespace Sys2Proof.Machine

/-- Settles O35: within the length the write answers, and outside neither the write nor the read does. -/
theorem bufferReadAfterWrite : Obligations.BufferReadAfterWrite := by
  intro b i v hw
  refine ⟨fun hi => ?_, fun hi => ⟨if_neg hi.not_gt, if_neg hi.not_gt⟩⟩
  obtain ⟨b', hb⟩ := Option.isSome_iff_exists.1 (Buffer.write_isSome v hi)
  obtain ⟨-, hlen, hwf, hread⟩ := Buffer.write_spec hw hb
  exact ⟨b', hb, hlen, hwf, by simp [hread], fun a ha => by simp [hread, ha]⟩

section Canonical

variable {s t : State} {i : Instr} {j j' : Job} {p : Pos}

theorem Job.memWf_iff : j.memWf = true ↔ j.r.wf = true ∧ j.w.wf = true ∧ j.x.wf = true := by
  simp [Job.memWf, and_assoc]

theorem State.memWf_iff : s.memWf = true ↔
    s.job.memWf = true ∧ s.program.all Request.memWf = true ∧ s.replies.all Reply.memWf = true := by
  simp only [State.memWf, Bool.and_eq_true, and_assoc]

/-- The byte a READ_BYTE stores leaves its buffer in canonical form (R47). -/
theorem Job.memWf_store {n : Nat} {v : Byte} (h : j.memWf = true) (hs : j.store n v = some j') : j'.memWf = true := by
  rcases j with ⟨op, r, w, x⟩
  obtain ⟨hr, hw, hx⟩ := Job.memWf_iff.1 h
  cases op
  case read | transfer =>
    obtain ⟨r', hr', rfl⟩ := Option.map_eq_some_iff.1 hs
    obtain ⟨-, -, hwf, -⟩ := Buffer.write_spec hr hr'
    exact Job.memWf_iff.2 ⟨hwf, hw, hx⟩
  case transferInPlace =>
    obtain ⟨x', hx', rfl⟩ := Option.map_eq_some_iff.1 hs
    obtain ⟨-, -, hwf, -⟩ := Buffer.write_spec hx hx'
    exact Job.memWf_iff.2 ⟨hr, hw, hwf⟩
  case readByte => cases hs; exact h
  case write | flush | writeByte => cases hs

/-- What the completion port gives back is a lent buffer (R117). -/
theorem Job.memWf_reply (h : j.memWf = true) : j.reply.toList.all Reply.memWf = true := by
  rcases j with ⟨op, r, w, x⟩
  obtain ⟨hr, -, hx⟩ := Job.memWf_iff.1 h
  cases op <;> simp_all [Job.reply, Reply.memWf]

/-- A command lends only buffers that were presented with its word, and empty ones (R65, R66). -/
theorem Job.memWf_of_decodeCmd {w : Byte} {o : Operands} (hd : decodeCmd w o = .ok i) (hj : jobOf i = some j)
    (ho : (Request.command w o).memWf = true) : j.memWf = true := by
  obtain ⟨⟨hr, hw⟩, hx⟩ : (o.r.wf = true ∧ o.w.wf = true) ∧ o.x.wf = true := by simpa [Request.memWf] using ho
  have he : Buffer.empty.wf = true := rfl
  unfold decodeCmd at hd
  split at hd
  · next row hrow =>
    cases hd
    have hmem := List.mem_of_find?_eq_some hrow
    simp only [cmdRows, List.mem_cons, List.not_mem_nil, or_false] at hmem
    rcases hmem with rfl | rfl | rfl | rfl | rfl | rfl | rfl <;> cases hj <;>
      simp [Job.memWf, Job.idle, Buffer.ofBytes_wf, hr, hw, hx, he]
  · cases hd

/-- A micro-operation touches no buffer (R39). -/
theorem PinFrame.memWf (frame : PinFrame i s t) (h : s.memWf = true) : t.memWf = true := by
  rwa [State.memWf, frame.job, frame.program, frame.replies]

theorem PhaseFrame.memWf (frame : PhaseFrame p s t) (h : s.memWf = true) : t.memWf = true := by
  obtain ⟨hjob, hprog, hrep⟩ := State.memWf_iff.1 h
  rw [State.memWf_iff, frame.program, frame.replies]
  obtain hj | ⟨-, -, hj⟩ := frame.job
  · exact ⟨hj ▸ hjob, hprog, hrep⟩
  · exact ⟨Job.memWf_store hjob hj, hprog, hrep⟩

theorem State.memWf_complete (h : s.memWf = true) : s.complete.memWf = true := by
  obtain ⟨hjob, hprog, hrep⟩ := State.memWf_iff.1 h
  refine State.memWf_iff.2 ⟨rfl, hprog, ?_⟩
  rw [State.complete_replies, List.all_append, hrep, Job.memWf_reply hjob]
  rfl

theorem State.memWf_refuse (w : Byte) (h : s.memWf = true) : (s.refuse w).memWf = true := by
  obtain ⟨hjob, hprog, hrep⟩ := State.memWf_iff.1 h
  refine State.memWf_iff.2 ⟨hjob, hprog, ?_⟩
  rw [State.refuse_replies, List.all_append, hrep]
  rfl

theorem State.memWf_issue (hj : j.memWf = true) (h : s.memWf = true) : (s.issue j).memWf = true := by
  obtain ⟨-, hprog, hrep⟩ := State.memWf_iff.1 h
  exact State.memWf_iff.2 ⟨hj, hprog, hrep⟩

theorem State.memWf_blank (h : s.memWf = true) : s.blank.memWf = true := by
  obtain ⟨-, hprog, hrep⟩ := State.memWf_iff.1 h
  exact State.memWf_iff.2 ⟨rfl, hprog, hrep⟩

/-- A request whose buffers are in canonical form is answered with buffers in canonical form. -/
theorem Served.memWf {q : Request} (hs : Served s q t) (hq : q.memWf = true) (h : s.memWf = true) :
    t.memWf = true := by
  cases hs with
  | construct _ he => exact (exec_pin_frame rfl he).memWf (State.memWf_blank h)
  | drop => exact h
  | refuse => exact State.memWf_refuse _ h
  | issue _ _ hj hq' =>
    obtain ⟨w, o, rfl, hd, -⟩ | ⟨b, rfl, rfl⟩ | ⟨rfl, rfl⟩ := hq'
    · exact State.memWf_issue (Job.memWf_of_decodeCmd hd hj hq) h
    · cases hj; exact State.memWf_issue (Job.memWf_iff.2 ⟨rfl, Buffer.ofBytes_wf [b], rfl⟩) h
    · cases hj; exact State.memWf_issue rfl h
  | micro hd he => exact (exec_pin_frame (format_of_decodePin hd) he).memWf h

end Canonical

/-- Settles O54: a phase stores at most one byte, a completion gives back what was lent, and a request lends what was
presented. -/
theorem stepKeepsBuffersCanonical : Obligations.StepKeepsBuffersCanonical := by
  intro s t hs h
  obtain ⟨-, ⟨-, h⟩ | ⟨-, ⟨-, rfl⟩ | ⟨q, rest, hp, h⟩⟩⟩ := step_next h
  · obtain ⟨-, rfl⟩ | ⟨p, -, h⟩ := tick_next h
    · exact State.memWf_complete hs
    · exact (runPhase_frame h).memWf hs
  · exact hs
  · obtain ⟨hjob, hprog, hrep⟩ := State.memWf_iff.1 hs
    rw [hp, List.all_cons, Bool.and_eq_true] at hprog
    obtain ⟨hq, hrest⟩ := hprog
    exact (serveRequest_next h).memWf hq (State.memWf_iff.2 ⟨hjob, hrest, hrep⟩)

end Sys2Proof.Machine
end

section
/-! The one event of a step in progress (spec 10 R31, R34; 20 R55; 40 R80), and the order of the two phases of TRANSFER
(20 R57; 42 R113). -/

namespace Sys2Proof.Machine

section Event

variable {i : Instr} {s t u : State} {p : Pos}

/-- The effect's event carries the level drawn of a sample, and no level of any other micro-operation (R34). -/
theorem pinEffect_trace (hp : i.format = .pin) : (pinEffect i s).trace =
    s.trace ++ [⟨encode i, if i = .dataIsHigh ∨ i = .dataIsLow then some s.dataIn else none⟩] := by
  cases i <;> cases hp <;> rfl

/-- The driver's choice changes neither the trace nor the level to be drawn. -/
theorem State.readyFor_trace (s : State) (i : Instr) : (s.readyFor i).trace = s.trace ∧ (s.readyFor i).dataIn = s.dataIn := by
  rw [State.readyFor_eq]
  exact ⟨rfl, rfl⟩

/-- A pin micro-operation that raises no fault appends its one event (R55, R80). -/
theorem exec_pin_trace (hp : i.format = .pin) (h : exec i s = .next t) (hf : t.fault = none) : t.trace =
    s.trace ++ [⟨encode i, if i = .dataIsHigh ∨ i = .dataIsLow then some s.dataIn else none⟩] := by
  obtain ⟨-, -, ⟨-, -, rfl⟩ | ⟨d, -, -, rfl⟩ | ⟨-, rfl⟩⟩ := exec_pin_next hp h
  · cases hf
  · cases hf
  · obtain ⟨htr, hlv⟩ := s.readyFor_trace i
    rw [pinEffect_trace hp, htr, hlv]

/-- The one sampling phase is SAMPLE (R101). -/
theorem phaseInstr_samples_iff : (phaseInstr p s = .dataIsHigh ∨ phaseInstr p s = .dataIsLow) ↔ p.phase = .rbSample := by
  rcases p with ⟨n, k, ph⟩
  cases ph
  case wbDrive => unfold phaseInstr; cases byteBit s.tx k <;> simp
  all_goals simp [phaseInstr]

/-- The register transfer before a phase does not change the micro-operation it names (R31, R97). -/
theorem phaseInstr_prepared (h : s.prepared p = some u) : phaseInstr p u = phaseInstr p s := by
  rcases p with ⟨n, k, ph⟩
  cases ph
  case wbDir => rfl
  all_goals cases h; rfl

/-- A phase that raises no fault appends the one event of its micro-operation (R31, R55). -/
theorem runPhase_trace (h : runPhase p s = .next t) (hf : t.fault = none) : t.trace =
    s.trace ++ [⟨encode (phaseInstr p s), if p.phase = .rbSample then some s.dataIn else none⟩] := by
  obtain ⟨u, v, hu, hv, h⟩ := runPhase_next h
  have hinstr := phaseInstr_prepared hu
  obtain ⟨tx, k, rfl, -⟩ := prepared_next hu
  obtain ⟨htr, hvf⟩ : t.trace = v.trace ∧ v.fault = none := by
    obtain ⟨hv, rfl⟩ | ⟨hvf, h⟩ := h
    · rw [hf] at hv; cases hv
    · obtain ⟨rx, j, rfl, -⟩ := finishPhase_next h
      exact ⟨rfl, hvf⟩
  rw [htr, exec_pin_trace (phaseInstr_pin p _) hv hvf, if_congr phaseInstr_samples_iff rfl rfl, hinstr]
  rfl

/-- A command that an idle engine takes or refuses appends no event and drives no line (R117). -/
theorem Served.command_trace {w : Byte} {o : Operands} (hs : Served s (.command w o) t) :
    t.trace = s.trace ∧ t.lines = s.lines := by
  cases hs <;> exact ⟨rfl, rfl⟩

end Event

/-- Settles O56: without a fault a phase appends its event, and with one it appends nothing and stays. -/
theorem stepAppendsOneEvent : Obligations.StepAppendsOneEvent := by
  intro s t h
  have ⟨hf, _⟩ := step_next h
  refine ⟨fun ha p hp => ?_, fun ha hi => ?_, fun ha w o rest hq => ?_⟩
  · have hphase : runPhase p s = .next t := (tick_pos hp).symm.trans ((step_tick hf ha).symm.trans h)
    obtain ⟨htf, -⟩ | ⟨htf, htr, -, hseq, -⟩ := (runPhase_frame hphase).outcome
    · exact .inl ⟨htf, runPhase_trace hphase htf⟩
    · exact .inr ⟨htf, htr, hseq⟩
  · obtain ⟨-, rfl⟩ | ⟨p, hp, -⟩ := tick_next ((step_tick hf ha).symm.trans h)
    · exact ⟨rfl, s.active_complete⟩
    · rw [hi] at hp; cases hp
  · exact (serveRequest_next ((step_serve hf ha hq).symm.trans h)).command_trace

section Phases

variable {s : State}

/-- The levels that the next READ_BYTEs draw are the same after WRITE_BYTEs, which draw none (R97). -/
@[simp] theorem State.readsEvents_wroteBytes (l : List Byte) (n : Nat) :
    (s.wroteBytes l).readsEvents n = s.readsEvents n := by
  obtain ⟨-, -, -, -, -, hsamples, -⟩ := s.wroteBytes_keeps l
  simp only [State.readsEvents, State.byteLevels, State.levels, hsamples]

/-- A well-formed TRANSFER whose driver does not panic appends the events of its writes and then those of its reads (R113). -/
theorem exec_transfer_trace {r w : Buffer} (hs : s.ReadyFor (25 * (w.len + r.len))) (hr : r.fit s.cfg = true)
    (hw : w.fit s.cfg = true) : ∃ t, exec (.transfer r w) s = .next t ∧
      t.trace = s.trace ++ (w.toBytes.flatMap writeEvents ++ s.readsEvents r.len) := by
  have ⟨⟨hl, hf, _⟩, ha⟩ := hs
  have hwf : (Instr.transfer r w).wf s.cfg = true := Bool.and_eq_true_iff.2 ⟨hr, hw⟩
  refine ⟨_, (exec_bus_of_wf hl hf ha rfl hwf rfl).trans (runOp_of_ticks hs (transfer_ticks r w hs.1) rfl
    (State.finishing_active ..) (by simp [hf]) rfl), ?_⟩
  calc ((s.wroteBytes w.toBytes).readBytes r.len).trace
    _ = (s.wroteBytes w.toBytes).trace ++ s.readsEvents r.len := by
      rw [State.readBytes_trace, State.readsEvents_wroteBytes]
    _ = s.trace ++ (w.toBytes.flatMap writeEvents ++ s.readsEvents r.len) := by
      rw [State.wroteBytes_trace, List.append_assoc]

/-- WRITE_BYTE neither turns DATA to input nor samples it (R97). -/
theorem writeEvents_word {b : Byte} {e : PinEvent} (he : e ∈ writeEvents b) :
    e.w ≠ encode .dataSetAsInput ∧ e.w ≠ encode .dataIsHigh := by
  have bit : ∀ v, ∀ e ∈ writeBitEvents v, e.w ≠ encode .dataSetAsInput ∧ e.w ≠ encode .dataIsHigh := by decide
  obtain rfl | he := List.mem_cons.1 he
  · decide
  · obtain ⟨k, -, he⟩ := List.mem_flatMap.1 he
    exact bit _ e he

/-- READ_BYTE neither turns DATA to output nor drives a level (R101). -/
theorem readEvents_word {lvs : List Level} {e : PinEvent} (he : e ∈ readEvents lvs) :
    e.w ≠ encode .dataSetAsOutput ∧ e.w ≠ encode .dataSetHigh ∧ e.w ≠ encode .dataSetLow := by
  have bit : ∀ v, ∀ e ∈ readBitEvents v,
      e.w ≠ encode .dataSetAsOutput ∧ e.w ≠ encode .dataSetHigh ∧ e.w ≠ encode .dataSetLow := by decide
  obtain rfl | he := List.mem_cons.1 he
  · decide
  · obtain ⟨v, -, he⟩ := List.mem_flatMap.1 he
    exact bit _ e he

end Phases

/-- Settles O24: the trace of TRANSFER, and the words of the two primitives. -/
theorem transferPhasesInOrder : Obligations.TransferPhasesInOrder := by
  intro s r w hs hr hw
  obtain ⟨t, ht, htr⟩ := exec_transfer_trace hs hr hw
  refine ⟨t, _, _, ht, htr, rfl, rfl, fun e he => ?_, fun e he => ?_⟩
  · obtain ⟨b, -, he⟩ := List.mem_flatMap.1 he
    exact writeEvents_word he
  · obtain ⟨n, -, he⟩ := List.mem_flatMap.1 he
    exact readEvents_word he

end Sys2Proof.Machine
end

section
/-! The tables of the two formats (spec 30 R63-R76): a word matches the row whose match it is, so that decoding and encoding
are inverse; and which words no row matches (R70, R71, R73). -/

namespace Sys2Proof

/-! ## A word and the rows of a table -/

section Table

variable {rows : List Row} {row : Row} {w : Byte}

/-- Every bit of a word is compared with a row's match (R76). -/
theorem rows_mask : ∀ row ∈ cmdRows ++ pinRows, row.mask = 0xFF := by decide

theorem cmdRows_mask : ∀ row ∈ cmdRows, row.mask = 0xFF := fun row h => rows_mask row (List.mem_append_left _ h)

theorem pinRows_mask : ∀ row ∈ pinRows, row.mask = 0xFF := fun row h => rows_mask row (List.mem_append_right _ h)

theorem cmdRows_nodup : (cmdRows.map Row.pattern).Nodup := by decide

theorem pinRows_nodup : (pinRows.map Row.pattern).Nodup := by decide

/-- A word matches a row whose mask is 0xFF when it is the row's match (R76). -/
theorem and_mask_eq_pattern_iff (hm : row.mask = 0xFF) : w &&& row.mask = row.pattern ↔ row.pattern = w := by
  have hand : w &&& row.mask = w := by rw [hm]; exact BitVec.and_allOnes
  rw [hand, eq_comm]

/-- The row found is a row of the table, and the word is its match. -/
theorem findRow_eq_some (hm : ∀ row ∈ rows, row.mask = 0xFF) (h : findRow rows w = some row) :
    row ∈ rows ∧ row.pattern = w := by
  have hmem := List.mem_of_find?_eq_some h
  have hmatch : w &&& row.mask = row.pattern := by simpa using List.find?_some h
  exact ⟨hmem, (and_mask_eq_pattern_iff (hm row hmem)).1 hmatch⟩

/-- No row is found when no row's match is the word. -/
theorem findRow_eq_none (hm : ∀ row ∈ rows, row.mask = 0xFF) :
    findRow rows w = none ↔ ∀ row ∈ rows, row.pattern ≠ w := by
  simp only [findRow, List.find?_eq_none, beq_iff_eq]
  exact forall₂_congr fun row h => not_congr (and_mask_eq_pattern_iff (hm row h))

/-- A table of distinct words: a word's one matching row is found, or it has none and nothing is found (R76). -/
theorem findRow_total (hm : ∀ row ∈ rows, row.mask = 0xFF) (hn : (rows.map Row.pattern).Nodup) (w : Byte) :
    (∃ row ∈ rows, w &&& row.mask = row.pattern ∧ findRow rows w = some row ∧
      ∀ row' ∈ rows, w &&& row'.mask = row'.pattern → row' = row) ∨
    ((∀ row ∈ rows, w &&& row.mask ≠ row.pattern) ∧ findRow rows w = none) := by
  cases h : findRow rows w with
  | some row =>
    obtain ⟨hmem, hw⟩ := findRow_eq_some hm h
    refine .inl ⟨row, hmem, (and_mask_eq_pattern_iff (hm row hmem)).2 hw, rfl, fun row' hmem' hmatch => ?_⟩
    exact List.inj_on_of_nodup_map hn hmem' hmem (((and_mask_eq_pattern_iff (hm row' hmem')).1 hmatch).trans hw.symm)
  | none =>
    exact .inr ⟨fun row hmem hmatch => (findRow_eq_none hm).1 h row hmem ((and_mask_eq_pattern_iff (hm row hmem)).1 hmatch), rfl⟩

end Table

/-! ## The decoders and the encoder -/

section Decoders

variable {w : Byte} {o : Operands} {i : Instr} {row : Row}

theorem decodeCmd_of_some (h : findRow cmdRows w = some row) (o : Operands) : decodeCmd w o = .ok (row.build o) := by
  rw [decodeCmd, h]

theorem decodeCmd_of_none (h : findRow cmdRows w = none) (o : Operands) : decodeCmd w o = .error (.reservedCmd w) := by
  rw [decodeCmd, h]

theorem decodePin_of_some (h : findRow pinRows w = some row) : decodePin w = .ok (row.build Operands.none) := by
  rw [decodePin, h]

theorem decodePin_of_none (h : findRow pinRows w = none) : decodePin w =
    if fieldRsv w == 0 && !fieldP w && clkLacks (fieldF w) then .error (.illegalPin w) else .error (.reservedPin w) := by
  rw [decodePin, h]

/-- The CMD decoder errs exactly where no row is found. -/
theorem decodeCmd_error_iff : decodeCmd w o = .error (.reservedCmd w) ↔ findRow cmdRows w = none := by
  cases h : findRow cmdRows w with
  | some row => simp [decodeCmd_of_some h]
  | none => simp [decodeCmd_of_none h]

/-- A CMD word decodes to the instruction that a row of that word builds (R65). -/
theorem decodeCmd_ok (h : decodeCmd w o = .ok i) : ∃ row ∈ cmdRows, row.pattern = w ∧ row.build o = i := by
  cases hr : findRow cmdRows w with
  | some row =>
    obtain ⟨hmem, hw⟩ := findRow_eq_some cmdRows_mask hr
    rw [decodeCmd_of_some hr] at h
    exact ⟨row, hmem, hw, Except.ok.inj h⟩
  | none => rw [decodeCmd_of_none hr] at h; cases h

/-- A PIN word decodes to the instruction that a row of that word builds (R69). -/
theorem decodePin_ok (h : decodePin w = .ok i) : ∃ row ∈ pinRows, row.pattern = w ∧ row.build Operands.none = i := by
  cases hr : findRow pinRows w with
  | some row =>
    obtain ⟨hmem, hw⟩ := findRow_eq_some pinRows_mask hr
    rw [decodePin_of_some hr] at h
    exact ⟨row, hmem, hw, Except.ok.inj h⟩
  | none => rw [decodePin_of_none hr] at h; split at h <;> cases h

/-- A CMD row builds an instruction of its format and its word, whatever the operands (R65). -/
theorem cmdRows_build (o : Operands) :
    ∀ row ∈ cmdRows, (row.build o).format = .cmd ∧ encode (row.build o) = row.pattern := by
  simp [cmdRows, Instr.format, encode]

/-- A PIN row builds an instruction of its format and its word (R69). -/
theorem pinRows_build :
    ∀ row ∈ pinRows, (row.build Operands.none).format = .pin ∧ encode (row.build Operands.none) = row.pattern := by
  decide

/-- A word that decodes is the word, in its format, of the instruction that it decodes to. -/
theorem encode_of_decode {f : Format} (h : decode f w o = .ok i) : i.format = f ∧ encode i = w := by
  cases f with
  | cmd =>
    obtain ⟨row, hmem, rfl, rfl⟩ := decodeCmd_ok h
    exact cmdRows_build o row hmem
  | pin =>
    obtain ⟨row, hmem, rfl, rfl⟩ := decodePin_ok h
    exact pinRows_build row hmem

/-- The word of an instruction decodes to it in its format, with its operands alongside. -/
theorem decode_encode (i : Instr) : decode i.format (encode i) i.operands = .ok i := by
  cases i <;> simp only [Instr.format, encode] <;> rfl

end Decoders

/-- Settles O2: `decode_encode` instruction by instruction, `encode_of_decode` row by row. -/
theorem decodeInvertsEncode : Obligations.DecodeInvertsEncode :=
  ⟨decode_encode, fun _ _ _ _ => encode_of_decode⟩

/-- Settles O3: each decoder answers what its table's one matching row builds, or errs where nothing is found. -/
theorem decoderFollowsTable : Obligations.DecoderFollowsTable := by
  refine ⟨rows_mask, cmdRows_nodup, pinRows_nodup, fun w o => ?_, fun w => ?_⟩
  · obtain ⟨row, hmem, hmatch, hfind, huniq⟩ | ⟨hno, hfind⟩ := findRow_total cmdRows_mask cmdRows_nodup w
    · exact .inl ⟨row, hmem, hmatch, decodeCmd_of_some hfind o, huniq⟩
    · exact .inr ⟨hno, decodeCmd_of_none hfind o⟩
  · obtain ⟨row, hmem, hmatch, hfind, huniq⟩ | ⟨hno, hfind⟩ := findRow_total pinRows_mask pinRows_nodup w
    · exact .inl ⟨row, hmem, hmatch, decodePin_of_some hfind, huniq⟩
    · refine .inr ⟨hno, ?_⟩
      rw [decodePin_of_none hfind]
      split
      · exact .inl rfl
      · exact .inr rfl

/-! ## Reserved and illegal words -/

section Reserved

variable {w : Byte}

/-- A word with RSV 0000 is one of the sixteen words of four bits (R64, R68). -/
theorem eq_setWidth_of_fieldRsv (h : fieldRsv w = 0) : ∃ op : BitVec 4, w = op.setWidth 8 := by
  refine ⟨w.setWidth 4, ?_⟩
  have hsh : w.toNat / 16 % 16 = 0 := by simpa [fieldRsv, Nat.shiftRight_eq_div_pow] using congrArg BitVec.toNat h
  apply BitVec.eq_of_toNat_eq
  simp only [BitVec.toNat_setWidth]
  omega

/-- No row of a table has a word with RSV not 0000 (R64, R68). -/
theorem findRow_of_fieldRsv {rows : List Row} (hm : ∀ row ∈ rows, row.mask = 0xFF)
    (hr : ∀ row ∈ rows, fieldRsv row.pattern = 0) (hw : fieldRsv w ≠ 0) : findRow rows w = none :=
  (findRow_eq_none hm).2 fun row hmem he => hw (he ▸ hr row hmem)

/-- A PIN word with RSV not 0000 is reserved (R73). -/
theorem decodePin_of_fieldRsv (hw : fieldRsv w ≠ 0) : decodePin w = .error (.reservedPin w) := by
  have hrsv : (fieldRsv w == 0) = false := beq_eq_false_iff_ne.2 hw
  rw [decodePin_of_none (findRow_of_fieldRsv pinRows_mask (by decide) hw), hrsv]
  rfl

/-- The reserved CMD words (R71). -/
theorem findRow_cmdRows_eq_none : findRow cmdRows w = none ↔
    (fieldRsv w ≠ 0 ∨ w ∈ [(0x00 : Byte), 0x06, 0x07, 0x0A, 0x0B, 0x0C, 0x0D, 0x0E, 0x0F]) := by
  by_cases hw : fieldRsv w = 0
  · obtain ⟨op, rfl⟩ := eq_setWidth_of_fieldRsv hw
    clear hw
    have ops : ∀ op : BitVec 4, (findRow cmdRows (op.setWidth 8)).isNone ↔ (fieldRsv (op.setWidth 8) ≠ 0 ∨
        op.setWidth 8 ∈ [(0x00 : Byte), 0x06, 0x07, 0x0A, 0x0B, 0x0C, 0x0D, 0x0E, 0x0F]) := by decide
    exact Option.isNone_iff_eq_none.symm.trans (ops op)
  · exact iff_of_true (findRow_of_fieldRsv cmdRows_mask (by decide) hw) (.inl hw)

/-- The illegal PIN words (R70). -/
theorem decodePin_illegal_iff : decodePin w = .error (.illegalPin w) ↔ w ∈ [(0x00 : Byte), 0x01, 0x04, 0x05] := by
  by_cases hw : fieldRsv w = 0
  · obtain ⟨op, rfl⟩ := eq_setWidth_of_fieldRsv hw
    clear hw
    revert op
    decide
  · refine iff_of_false (by simp [decodePin_of_fieldRsv hw]) fun hmem => hw ?_
    have legal : ∀ v ∈ [(0x00 : Byte), 0x01, 0x04, 0x05], fieldRsv v = 0 := by decide
    exact legal w hmem

/-- The reserved PIN words (R73). -/
theorem decodePin_reserved_iff : decodePin w = .error (.reservedPin w) ↔
    (fieldRsv w ≠ 0 ∨ w ∈ [(0x07 : Byte), 0x0E, 0x0F]) := by
  by_cases hw : fieldRsv w = 0
  · obtain ⟨op, rfl⟩ := eq_setWidth_of_fieldRsv hw
    clear hw
    revert op
    decide
  · exact iff_of_true (decodePin_of_fieldRsv hw) (.inl hw)

end Reserved

end Sys2Proof

namespace Sys2Proof.Machine

/-- A trace of legal words holds no refused one (R70, R73). -/
theorem traceError_of_legal {tr : List PinEvent} (h : ∀ e ∈ tr, ∃ i, decodePin e.w = .ok i) : traceError tr = none := by
  induction tr with
  | nil => rfl
  | cons e tr ih =>
    obtain ⟨⟨i, hi⟩, htr⟩ := List.forall_mem_cons.1 h
    rw [traceError, hi]
    exact ih htr

/-- A trace is refused by the first word that names no micro-operation (R70, R73). -/
theorem traceError_of_illegal {tr post : List PinEvent} {e : PinEvent} {d : DecodeError} (h : traceError tr = none)
    (he : decodePin e.w = .error d) : traceError (tr ++ e :: post) = some d := by
  rw [traceError_append, h, traceError, he]
  rfl

/-- Settles O4: the words that no row matches, and a trace up to its first one. -/
theorem reservedWordsAreRejected : Obligations.ReservedWordsAreRejected := by
  refine ⟨fun w o => decodeCmd_error_iff.trans findRow_cmdRows_eq_none, fun w => decodePin_illegal_iff,
    fun w => decodePin_reserved_iff, fun l tr h => ?_⟩
  have hn := traceError_of_legal h
  exact ⟨by rw [Lines.ofTrace, hn], fun e d post he => by rw [Lines.ofTrace, traceError_of_illegal hn he]⟩

/-- Settles O1: the rows of the two tables, one by one. -/
theorem tableWordsDecode : Obligations.TableWordsDecode :=
  ⟨fun _ => ⟨rfl, rfl, rfl, rfl, rfl, rfl, rfl⟩, rfl, rfl, rfl, rfl, rfl, rfl, rfl, rfl, rfl⟩

/-- Settles O60: a line and its expansion present one request. -/
theorem pseudoInstructionsExpand : Obligations.PseudoInstructionsExpand := ⟨rfl, fun _ => rfl, rfl, fun _ => rfl⟩

end Sys2Proof.Machine
end

section
/-! What a presented word makes an idle engine do (spec 30 R70-R73, R77; 42 R117): a micro-program's line, a table word
presented, and what the command port refuses. -/

namespace Sys2Proof.Machine

/-! ## Lines of a micro-program -/

section Micro

variable {s : State} {w : Byte} {rest : List Request}

/-- An idle engine's step on a PIN word is that word's line run (R77; log 5). -/
theorem step_micro (hl : s.live = true) (hf : s.fault = none) (ha : s.active = false)
    (hp : s.program = .micro w :: rest) : step s = runMicro w { s with program := rest } :=
  (step_serve hf ha hp).trans (whenRunning_run (s := { s with program := rest }) hl hf _)

/-- A PIN word that decodes runs its micro-operation (R69). -/
theorem runMicro_ok {i : Instr} (hd : decodePin w = .ok i) (s : State) : runMicro w s = exec i s := by
  rw [runMicro, hd]

/-- Settles O39: the three answers of the PIN decoder. -/
theorem microLinesRunTheirWord : Obligations.MicroLinesRunTheirWord := by
  intro s w rest hl hf ha hp
  rw [step_micro hl hf ha hp]
  exact ⟨fun i hd => runMicro_ok hd _, fun hd => by rw [runMicro, hd], fun hd => by rw [runMicro, hd]⟩

end Micro

/-! ## A table word presented -/

section Fetch

variable {nbits w : Nat} {i : Instr} {j : Job} {s : State}

/-- A table word stands for the instruction that it decodes to, with no operands alongside, in one of the two formats
(log 4). -/
theorem decode_of_decodeTableWord (h : decodeTableWord nbits w = some i) :
    ∃ f, decode f (BitVec.ofNat 8 w) Operands.none = .ok i := by
  unfold decodeTableWord at h
  split at h
  · split at h
    · next hd => cases h; exact ⟨.cmd, hd⟩
    · split at h
      · next hd => cases h; exact ⟨.pin, hd⟩
      · cases h
  · cases h

/-- The operands of an instruction that a table word stands for are well formed: they are empty (log 4). -/
theorem wf_of_decodeTableWord (h : decodeTableWord nbits w = some i) (cfg : Config) : i.wf cfg = true := by
  obtain ⟨f, hd⟩ := decode_of_decodeTableWord h
  have hempty : Buffer.empty.fit cfg = true := by
    rcases cfg with ⟨_, _ | m, _⟩ <;> rfl
  cases f with
  | cmd =>
    obtain ⟨row, hmem, -, rfl⟩ := decodeCmd_ok hd
    have rows : ∀ row ∈ cmdRows, (row.build Operands.none).wf cfg = true := by
      simp [cmdRows, Instr.wf, Operands.none, hempty]
    exact rows row hmem
  | pin =>
    have hp := format_of_decodePin hd
    cases i <;> cases hp <;> rfl

/-- A micro-operation's word is presented as a line of a micro-program (log 4, log 5). -/
theorem fetchRequest_pin (h : decodeTableWord nbits w = some i) (hp : i.format = .pin) :
    fetchRequest nbits w = .micro (encode i) := by
  rw [fetchRequest, h]
  cases i <;> cases hp <;> rfl

/-- A bus operation's word is presented on the command port (log 4). -/
theorem fetchRequest_bus (h : decodeTableWord nbits w = some i) (hb : busInstr i = true) :
    fetchRequest nbits w = .command (encode i) i.operands := by
  rw [fetchRequest, h]
  cases i <;> cases hb <;> rfl

/-- A bus operation has a CMD word (R65). -/
theorem format_of_busInstr (hb : busInstr i = true) : i.format = .cmd := by
  cases i <;> cases hb <;> rfl

/-- The word of a bus operation on the command port, with its operands alongside, decodes to it (R65). -/
theorem decodeCmd_encode (hb : busInstr i = true) : decodeCmd (encode i) i.operands = .ok i := by
  have hd := decode_encode i
  rwa [format_of_busInstr hb] at hd

/-- A CMD instruction that is no bus operation is one of the two byte primitives (R65, R67). -/
theorem primitive_of_not_busInstr (hb : busInstr i = false) (hj : jobOf i = some j) :
    (∃ b, i = .writeByte b) ∨ i = .readByte := by
  cases i <;> cases hj <;> cases hb
  case writeByte b => exact .inl ⟨b, rfl⟩
  case readByte => exact .inr rfl

/-- Whatever a table word of a CMD instruction is presented as, an idle engine answers with the instruction's issue
(R117; log 4, log 5). -/
theorem serveRequest_fetchRequest (h : decodeTableWord nbits w = some i) (hj : jobOf i = some j) (hl : s.live = true)
    (hf : s.fault = none) : serveRequest (fetchRequest nbits w) s = .next (s.issue j) := by
  cases hb : busInstr i with
  | true =>
    rw [fetchRequest_bus h hb]
    exact serveRequest_command hl hf (decodeCmd_encode hb) hb (wf_of_decodeTableWord h s.cfg) hj
  | false =>
    obtain ⟨b, rfl⟩ | rfl := primitive_of_not_busInstr hb hj
    · have hq : fetchRequest nbits w = .writeByte b := by rw [fetchRequest, h]
      exact hq ▸ serveRequest_writeByte hl hf hj
    · have hq : fetchRequest nbits w = .readByte := by rw [fetchRequest, h]
      exact hq ▸ serveRequest_readByte hl hf hj

/-- Settles O40: the step serves the presented request, a line of a micro-program or an issue. -/
theorem fetchedWordRuns : Obligations.FetchedWordRuns := by
  intro s nbits w i h
  refine ⟨fun hp => ?_, fun j hj => ?_⟩
  · have hprog : (s.withFetchWord nbits w).program = .micro (encode i) :: s.program :=
      congrArg (· :: s.program) (fetchRequest_pin h hp)
    rw [step_micro rfl rfl rfl hprog, runMicro_ok (decodePin_encode hp)]
  · have hserve : step (s.withFetchWord nbits w) = _ := step_serve rfl rfl rfl
    exact hserve.trans (serveRequest_fetchRequest h hj rfl rfl)

end Fetch

/-! ## What the command port refuses -/

section Port

variable {s : State} {w : Byte} {o : Operands} {rest : List Request} {i : Instr} {j : Job} {m : Nat}

/-- An idle engine's step on a command is the port's answer (R117). -/
theorem step_command (hl : s.live = true) (hf : s.fault = none) (ha : s.active = false)
    (hp : s.program = .command w o :: rest) : step s = issueCommand w o { s with program := rest } :=
  (step_serve hf ha hp).trans (whenRunning_run (s := { s with program := rest }) hl hf _)

/-- The port issues the operation that the word decodes to when it is a bus operation whose buffers fit (R72, R117). -/
theorem issueCommand_of_fits (hd : decodeCmd w o = .ok i) (hj : jobOf i = some j) (hb : busInstr i = true)
    (hfit : j.fits s.cfg = true) : issueCommand w o s = .next (s.issue j) := by
  simp [issueCommand, hd, hj, internal_of_busInstr hb hj, hfit]

/-- The port refuses a word unless it decodes to a bus operation whose buffers fit (R71, R72). -/
theorem issueCommand_refuse
    (h : ∀ i j, decodeCmd w o = .ok i → jobOf i = some j → j.op.internal = true ∨ j.fits s.cfg = false) :
    issueCommand w o s = .next (s.refuse w) := by
  unfold issueCommand
  split
  · rfl
  · next i hd =>
    split
    · rfl
    · next j hj => rw [if_pos (by simpa using h i j hd hj)]

/-- The words of the five bus operations (R65). -/
theorem encode_of_busInstr (hb : busInstr i = true) : encode i ∈ [(0x01 : Byte), 0x02, 0x03, 0x04, 0x05] := by
  cases i <;> cases hb <;> simp [encode]

/-- Every CMD word but the five of the bus operations names no operation or an internal one (R65, R67, R71). -/
theorem internal_of_decodeCmd (hw : w ∉ [(0x01 : Byte), 0x02, 0x03, 0x04, 0x05]) (hd : decodeCmd w o = .ok i)
    (hj : jobOf i = some j) : j.op.internal = true := by
  obtain ⟨-, rfl⟩ := encode_of_decode (f := .cmd) hd
  have hb : busInstr i = false := Bool.eq_false_iff.2 fun hb => hw (encode_of_busInstr hb)
  obtain ⟨b, rfl⟩ | rfl := primitive_of_not_busInstr hb hj <;> cases hj <;> rfl

/-- Settles O42: no other word decodes to an operation that the port takes. -/
theorem portRefusesOtherWords : Obligations.PortRefusesOtherWords := by
  intro s w o rest hl hf ha hp hw
  rw [step_command hl hf ha hp, issueCommand_refuse fun i j hd hj => .inl (internal_of_decodeCmd hw hd hj)]
  rfl

/-! ### Buffers longer than MAX_LEN -/

/-- A length is within MAX_LEN, where there is one (R11, R72). -/
theorem allows_of_maxLen {cfg : Config} (hm : cfg.maxLen = some m) (b : Buffer) : cfg.allows b = decide (b.len ≤ m) := by
  rw [Config.allows, hm]

/-- With MAX_LEN unbounded every length is allowed (R11). -/
theorem allows_of_unbounded {cfg : Config} (hm : cfg.maxLen = none) (b : Buffer) : cfg.allows b = true := by
  rw [Config.allows, hm]

/-- A job with a buffer longer than MAX_LEN does not fit (R72). -/
theorem not_fits_of_overlong {cfg : Config} (hm : cfg.maxLen = some m)
    (hlong : m < j.r.len ∨ m < j.w.len ∨ m < j.x.len) : j.fits cfg = false := by
  simp only [Job.fits, allows_of_maxLen hm, ← Bool.decide_and, decide_eq_false_iff_not]
  omega

/-- With MAX_LEN unbounded every job fits (R11). -/
theorem fits_of_unbounded {cfg : Config} (hm : cfg.maxLen = none) (j : Job) : j.fits cfg = true := by
  simp [Job.fits, allows_of_unbounded hm]

/-- A bus operation whose buffers do not fit is refused as one transition too (R72). -/
theorem exec_bus_of_not_fits (hl : s.live = true) (hf : s.fault = none) (ha : s.active = false) (hb : busInstr i = true)
    (hj : jobOf i = some j) (hfit : j.fits s.cfg = false) : exec i s = .next (s.refuse (encode i)) := by
  rw [exec_bus hb hj, runCommand, whenRunning_run hl hf, ha, hfit]
  rfl

/-- A bus operation ends with DONE and `Ok` (R110, R117). -/
theorem reply_of_not_internal (h : j.op.internal = false) : ∃ r x, j.reply = some (.done .ok r x) := by
  rcases j with ⟨op, r, w, x⟩
  cases op <;> cases h <;> exact ⟨_, _, rfl⟩

/-- A well-formed bus operation whose driver does not panic completes with `Ok` (R110, R118). -/
theorem exec_bus_ok (hs : s.ReadyFor j.pinCount) (hb : busInstr i = true) (hj : jobOf i = some j)
    (hw : i.wf s.cfg = true) : ∃ t r x, exec i s = .next t ∧ t.replies = s.replies ++ [.done .ok r x] := by
  have ⟨⟨hl, hf, _⟩, ha⟩ := hs
  obtain ⟨u, j', huf, ticks⟩ := bus_ticks hb hj hw hs.1
  have hrun : runOp j s = .next (u.finishing j').complete :=
    runOp_of_ticks hs ticks rfl (u.finishing_active j') ((u.finishing_fault j').trans huf) (u.finishing_seq j')
  have hend := (Underway.issue hf j).runJob hf (runOp_next hrun).2.2
  obtain hu | ⟨v, hv, -, hcomplete⟩ := hend
  · exact absurd hu.active (by simp [State.active_complete])
  · have hint : v.job.op.internal = false := by rw [hv.held.op]; exact internal_of_busInstr hb hj
    obtain ⟨r, x, hr⟩ := reply_of_not_internal hint
    refine ⟨v.complete, r, x, ?_, ?_⟩
    · rw [exec_bus_of_wf hl hf ha hb hw hj, hrun, hcomplete]
    · rw [State.complete_replies, hv.replies, hr]
      rfl

/-- Settles O43: the port and exec refuse a job that does not fit, and with no bound every job fits. -/
theorem overlongBufferIsRefused : Obligations.OverlongBufferIsRefused := by
  refine ⟨fun s m i j rest hl hf ha hm hb hj hlong => ?_, fun s i j hm hb hj hl hf ha => ⟨fun rest hp => ?_, fun hw hs =>
    exec_bus_ok hs hb hj hw⟩⟩
  · have hfit := not_fits_of_overlong hm hlong
    refine ⟨exec_bus_of_not_fits hl hf ha hb hj hfit, fun hp => ?_⟩
    rw [step_command hl hf ha hp, issueCommand_refuse fun i' j' hd hj' => .inr ?_]
    · rfl
    · obtain rfl : i = i' := Except.ok.inj ((decodeCmd_encode hb).symm.trans hd)
      obtain rfl : j = j' := Option.some.inj (hj.symm.trans hj')
      exact hfit
  · rw [step_command hl hf ha hp]
    exact issueCommand_of_fits (decodeCmd_encode hb) hj hb (fits_of_unbounded hm j)

end Port

end Sys2Proof.Machine
end

section
/-! The pin micro-operations and DELAY (spec 40 R80-R93): each is its effect, a mode violation or a panic of the driver, and
the three are told apart by what the engine and the driver are. -/

namespace Sys2Proof.Machine

variable {i : Instr} {s : State}

/-! ## DELAY -/

/-- The counter takes the values from `n` down to 0 (R93). -/
theorem spinValues_eq_reverse_range (n : Nat) : spinValues n = (List.range (n + 1)).reverse := by
  induction n with
  | zero => rfl
  | succ n ih => rw [spinValues, ih, List.range_succ (n := n + 1), List.reverse_concat]

/-- DELAY leaves the counter 0 and appends its event on every engine that runs (R93). -/
theorem exec_delay (hl : s.live = true) (hf : s.fault = none) :
    exec .delay s = .next ({ s with dcnt := 0 }.emit (encode .delay) none) := by
  rw [exec, execDelay, whenRunning_run hl hf, spin_zero]

/-- Settles O6: the counter's values are a range reversed. -/
theorem delaySpinsToZero : Obligations.DelaySpinsToZero := by
  refine ⟨rfl, fun s hl hf => ?_, fun cfg d => rfl⟩
  rw [spinValues_eq_reverse_range]
  refine ⟨?_, ?_, ?_, ?_, exec_delay hl hf⟩
  · rw [List.head?_reverse, List.getLast?_range]; rfl
  · rw [List.length_reverse, List.length_range]
  · exact List.pairwise_reverse.2 List.pairwise_lt_range
  · rw [List.getLast?_reverse, List.head?_range]; rfl

/-! ## A driver that does not panic -/

/-- A pin micro-operation but DELAY draws the driver's choice before its effect (R81). -/
theorem State.readyFor_of_ne_delay (hd : i ≠ .delay) : s.readyFor i = s.settled := if_neg hd

/-- A DATA level operation in another mode than its own does nothing else than raise (R91). -/
theorem inMode_wrong {d : Dir} (hd : s.ddir ≠ d) (w : Byte) (act : State → Out) :
    inMode d w s act = .next (s.raise (.pinModeViolation w)) := if_neg hd

/-- A DATA level operation on an engine that can act raises a mode violation in a mode it does not need (R91). -/
theorem exec_pin_wrongMode {d : Dir} (hs : s.CanAct) (hm : modeNeeded i = some d) (hd : s.ddir ≠ d) :
    exec i s = .next (s.settled.raise (.pinModeViolation (encode i))) := by
  cases i <;> cases hm <;> simp only [exec] <;> exact (pinOp_act hs _ _).trans (inMode_wrong (s := s.settled) hd _ _)

/-- A pin micro-operation that needs no mode has its effect in every one (R82, R83, R88, R89). -/
theorem exec_pin_anyMode (hp : i.format = .pin) (hd : i ≠ .delay) (hm : modeNeeded i = none) (hs : s.CanAct) :
    exec i s = .next (pinEffect i s.settled) := by
  rw [exec_pin_act hp hs (by simp [hm]), State.readyFor_of_ne_delay hd]

/-- A DATA level operation has its effect in the mode that it needs (R84-R87). -/
theorem exec_pin_inMode {d : Dir} (hp : i.format = .pin) (hm : modeNeeded i = some d) (hs : s.CanAct)
    (hd : s.ddir = d) :
    exec i s = .next (pinEffect i s.settled) := by
  have hi : i ≠ .delay := by rintro rfl; cases hm
  rw [exec_pin_act hp hs (fun d' h => hd.trans (Option.some.inj (hm.symm.trans h))), State.readyFor_of_ne_delay hi]

/-! ## A driver that panics -/

/-- A pin micro-operation but DELAY does nothing of its own when the driver panics (R81, R134). -/
theorem exec_pin_panic (hp : i.format = .pin) (hi : i ≠ .delay) (hl : s.live = true) (hf : s.fault = none)
    (hc : s.cfg.driverMayPanic = true) (hn : s.panicNow = true) :
    exec i s = .next (s.panicDrawn.raise (.driverPanic (encode i))) := by
  cases i <;> cases hp <;> simp only [exec]
  case delay => exact absurd rfl hi
  all_goals exact pinOp_panic hl hf hc hn _ _

/-- Settles O12: in every mode the driver's panic is the first thing that can happen. -/
theorem driverPanicComesFirst : Obligations.DriverPanicComesFirst :=
  fun _ _ hp hi hl hf hc hn => exec_pin_panic hp hi hl hf hc hn

/-! ## The micro-operations, function by function -/

/-- Settles O5: the clock micro-operations need no mode of DATA. -/
theorem clockOpsDriveClk : Obligations.ClockOpsDriveClk :=
  ⟨rfl, rfl, fun _ =>
    ⟨fun hs => ⟨exec_pin_anyMode rfl (by decide) rfl hs, exec_pin_anyMode rfl (by decide) rfl hs⟩,
      fun hl hf hc hn =>
        ⟨exec_pin_panic rfl (by decide) hl hf hc hn, exec_pin_panic rfl (by decide) hl hf hc hn⟩⟩⟩

/-- SET_AS_OUTPUT on an output drops no latch (R82). -/
theorem pinEffect_setAsOutput_of_out (h : s.ddir = .out) :
    pinEffect .dataSetAsOutput s = s.emit (encode .dataSetAsOutput) none := by
  rw [pinEffect, if_pos h, ← h]

/-- SET_AS_OUTPUT from another direction makes the latch UNKNOWN (R82). -/
theorem pinEffect_setAsOutput_of_ne_out (h : s.ddir ≠ .out) :
    pinEffect .dataSetAsOutput s = { s with ddir := .out, dout := .unknown }.emit (encode .dataSetAsOutput) none := by
  rw [pinEffect, if_neg h]

/-- SET_AS_INPUT on an input changes the trace only (R83). -/
theorem pinEffect_setAsInput_of_inp (h : s.ddir = .inp) :
    pinEffect .dataSetAsInput s = s.emit (encode .dataSetAsInput) none := by
  rw [pinEffect, ← h]

/-- Settles O7: SET_AS_OUTPUT depends on whether DATA is an output already, SET_AS_INPUT on nothing. -/
theorem directionOpsSetMode : Obligations.DirectionOpsSetMode := by
  intro s hs
  have hout : exec .dataSetAsOutput s = .next (pinEffect .dataSetAsOutput s.settled) :=
    exec_pin_anyMode rfl (by decide) rfl hs
  have hinp : exec .dataSetAsInput s = .next (pinEffect .dataSetAsInput s.settled) :=
    exec_pin_anyMode rfl (by decide) rfl hs
  refine ⟨fun hd => ?_, fun hd => ?_, hinp, fun hd => ?_⟩
  · rw [hout, pinEffect_setAsOutput_of_ne_out (s := s.settled) hd]; rfl
  · rw [hout, pinEffect_setAsOutput_of_out (s := s.settled) hd]; rfl
  · rw [hinp, pinEffect_setAsInput_of_inp (s := s.settled) hd]; rfl

/-- Settles O8: in output mode both level micro-operations have their effect. -/
theorem levelOpsSetLatch : Obligations.LevelOpsSetLatch :=
  fun _ hs hd => ⟨exec_pin_inMode rfl rfl hs hd, exec_pin_inMode rfl rfl hs hd⟩

/-- Settles O9: in input mode both samples have their effect. -/
theorem sampleOpsReturnLevel : Obligations.SampleOpsReturnLevel :=
  fun _ hs hd => ⟨exec_pin_inMode rfl rfl hs hd, exec_pin_inMode rfl rfl hs hd⟩

/-- A draw gives the level that the environment's script begins with, and leaves the rest of it (R92). -/
theorem State.drawn_of_script {v : Level} {rest : List Level} (h : s.samples.script = v :: rest) :
    s.dataIn = v ∧ s.drawn.samples.script = rest := by
  constructor
  · simp [State.dataIn, Feed.bit, h]
  · simp [Feed.skip, h]

/-- Settles O10: IS_HIGH returns the level drawn, which is the script's. -/
theorem everyLevelCanBeDrawn : Obligations.EveryLevelCanBeDrawn := by
  intro s v rest hs hd hscript
  obtain ⟨hlevel, hrest⟩ := State.drawn_of_script hscript
  refine ⟨_, exec_pin_inMode rfl rfl hs hd, hlevel, ?_, hrest⟩
  rw [← hlevel]
  rfl

/-- Settles O11: each level operation needs its own mode, and UNSET is neither. -/
theorem wrongModeRaises : Obligations.WrongModeRaises :=
  fun _ hs =>
    ⟨fun hd => ⟨exec_pin_wrongMode hs rfl hd, exec_pin_wrongMode hs rfl hd⟩,
      fun hd => ⟨exec_pin_wrongMode hs rfl hd, exec_pin_wrongMode hs rfl hd⟩⟩

end Sys2Proof.Machine
end

section
/-! DELAY_ITERS is invisible but for time (spec 00 R9; 40 R94): an action on the state that does not look at it has the same
outcome under every value of it, and every instruction and step is put together from such actions. -/

namespace Sys2Proof.Machine

/-- The action has the same outcome under another DELAY_ITERS, its next state with that DELAY_ITERS again (R94). -/
def IgnoresDelay (act : State → Out) : Prop :=
  ∀ (s : State) (n : Nat), act (s.withDelay n) = mapNext (·.withDelay n) (act s)

@[simp] theorem State.withDelay_fault (s : State) (n : Nat) : (s.withDelay n).fault = s.fault := rfl
@[simp] theorem State.withDelay_seq (s : State) (n : Nat) : (s.withDelay n).seq = s.seq := rfl
@[simp] theorem State.withDelay_job (s : State) (n : Nat) : (s.withDelay n).job = s.job := rfl
@[simp] theorem State.withDelay_rx (s : State) (n : Nat) : (s.withDelay n).rx = s.rx := rfl
@[simp] theorem State.withDelay_program (s : State) (n : Nat) : (s.withDelay n).program = s.program := rfl

/-! ## How actions that ignore DELAY_ITERS are put together -/

section Compose

variable {act other : State → Out}

/-- A choice that does not look at DELAY_ITERS. -/
theorem IgnoresDelay.ite {c : State → Prop} [DecidablePred c] (ha : IgnoresDelay act)
    (hb : IgnoresDelay other) (hc : ∀ s n, c (State.withDelay s n) ↔ c s := by exact fun _ _ => Iff.rfl) :
    IgnoresDelay fun s => if c s then act s else other s := by
  intro s n
  by_cases h : c s
  · simpa only [if_pos h, if_pos ((hc s n).2 h)] using ha s n
  · simpa only [if_neg h, if_neg (mt (hc s n).1 h)] using hb s n

theorem IgnoresDelay.whenRunning (h : IgnoresDelay act) : IgnoresDelay fun s => whenRunning s act := by
  intro s n
  beta_reduce
  cases hf : s.fault with
  | some r => rw [whenRunning_fault hf, whenRunning_fault (s := s.withDelay n) hf]; rfl
  | none =>
    cases hl : s.live with
    | false => rw [whenRunning_dead hf hl, whenRunning_dead (s := s.withDelay n) hf hl]; rfl
    | true => rw [whenRunning_run hl hf, whenRunning_run (s := s.withDelay n) hl hf, h s n]

theorem IgnoresDelay.andThen (ha : IgnoresDelay act) (hb : IgnoresDelay other) :
    IgnoresDelay fun s => andThen (act s) other := by
  have after : IgnoresDelay fun t => if t.fault.isSome then .next t else other t := .ite (fun _ _ => rfl) hb
  intro s n
  simp only [ha s n]
  cases act s with
  | next t => exact after t n
  | fault r => rfl
  | refused r => rfl

/-- Whether the driver panics does not depend on DELAY_ITERS (R81). -/
theorem IgnoresDelay.pinOp (w : Byte) (h : IgnoresDelay act) : IgnoresDelay fun s => pinOp w s act :=
  .whenRunning <| .ite (.ite (fun _ _ => rfl) fun s n => h s.panicDrawn n) h

theorem IgnoresDelay.inMode (d : Dir) (w : Byte) (h : IgnoresDelay act) : IgnoresDelay fun s => inMode d w s act :=
  .ite h fun _ _ => rfl

end Compose

/-! ## Micro-operations, phases and operations -/

/-- DELAY ends with its counter 0 for every DELAY_ITERS (R93). -/
theorem execDelay_ignoresDelay : IgnoresDelay execDelay :=
  .whenRunning fun s n => by simp only [spin_zero]; rfl

/-- No pin micro-operation but DELAY looks at DELAY_ITERS, and DELAY ends with its counter 0. -/
theorem exec_pin_ignoresDelay {i : Instr} (hp : i.format = .pin) : IgnoresDelay (exec i) := by
  cases i <;> cases hp
  case delay => exact execDelay_ignoresDelay
  case clkSetHigh | clkSetLow | dataSetAsOutput | dataSetAsInput => exact .pinOp _ fun _ _ => rfl
  case dataSetHigh | dataSetLow | dataIsHigh | dataIsLow => exact .pinOp _ (.inMode _ _ fun _ _ => rfl)

/-- Whether and where a sampled byte is stored does not depend on DELAY_ITERS (R111, R114). -/
theorem finishSample_ignoresDelay (p : Pos) : IgnoresDelay (finishSample p) := by
  refine .ite (fun s n => ?_) fun _ _ => rfl
  simp only [State.withDelay_job, State.withDelay_rx]
  cases s.job.store p.i s.rx <;> rfl

theorem finishPhase_ignoresDelay (p : Pos) : IgnoresDelay (finishPhase p) := by
  rcases p with ⟨i, k, ph⟩
  cases ph
  case rbSample => exact fun s n => finishSample_ignoresDelay ⟨i, k, .rbSample⟩ (s.accumulate k) n
  all_goals exact fun _ _ => rfl

/-- The register transfer before a phase is the same (R97, R101). -/
theorem State.prepared_withDelay (s : State) (p : Pos) (n : Nat) :
    (s.withDelay n).prepared p = (s.prepared p).map (·.withDelay n) := by
  rcases p with ⟨i, k, ph⟩
  cases ph
  case wbDir =>
    show (s.job.source i).map _ = ((s.job.source i).map _).map _
    rw [Option.map_map]
    rfl
  all_goals rfl

/-- A phase names the same micro-operation, between the same register transfers (R31). -/
theorem runPhase_ignoresDelay (p : Pos) : IgnoresDelay (runPhase p) := by
  intro s n
  rw [runPhase_eq, runPhase_eq, State.prepared_withDelay]
  cases s.prepared p with
  | none => rfl
  | some u => exact (exec_pin_ignoresDelay (phaseInstr_pin p u)).andThen (finishPhase_ignoresDelay p) u n

theorem tick_ignoresDelay : IgnoresDelay tick := by
  intro s n
  cases hs : s.seq with
  | idle => simp only [tick, State.withDelay_seq, hs]; rfl
  | pos p => rw [tick_pos hs, tick_pos (s := s.withDelay n) hs, runPhase_ignoresDelay p s n]

theorem runJob_ignoresDelay (m : Nat) : IgnoresDelay (runJob m) := by
  induction m with
  | zero => exact fun _ _ => rfl
  | succ m ih =>
    have after : IgnoresDelay fun t => if t.active && t.fault.isNone then runJob m t else .next t :=
      .ite ih fun _ _ => rfl
    intro s n
    rw [runJob, runJob, tick_ignoresDelay s n]
    cases tick s with
    | next t => exact after t n
    | fault r => rfl
    | refused r => rfl

theorem runOp_ignoresDelay (j : Job) : IgnoresDelay (runOp j) :=
  .whenRunning <| .ite (fun _ _ => rfl) fun s n => runJob_ignoresDelay _ (s.issue j) n

/-- The port's length check looks at MAX_LEN only (R72). -/
theorem runCommand_ignoresDelay (w : Byte) (j : Job) : IgnoresDelay (runCommand w j) :=
  .whenRunning <| .ite (fun _ _ => rfl) <| .ite (runOp_ignoresDelay j) fun _ _ => rfl

/-- An instruction that is no operation is a pin micro-operation (R65, R69). -/
theorem format_of_jobOf_eq_none {i : Instr} (h : jobOf i = none) : i.format = .pin := by
  cases i <;> cases h <;> rfl

theorem exec_ignoresDelay (i : Instr) : IgnoresDelay (exec i) := by
  cases hj : jobOf i with
  | none => exact exec_pin_ignoresDelay (format_of_jobOf_eq_none hj)
  | some j =>
    cases hb : busInstr i with
    | false => rw [funext (exec_primitive hb hj)]; exact runOp_ignoresDelay j
    | true => rw [funext (exec_bus hb hj)]; exact runCommand_ignoresDelay (encode i) j

/-! ## Requests and steps -/

theorem issueCommand_ignoresDelay (w : Byte) (o : Operands) : IgnoresDelay (issueCommand w o) := by
  unfold issueCommand
  cases decodeCmd w o with
  | error d => exact fun _ _ => rfl
  | ok i =>
    cases hj : jobOf i with
    | none => simp only [hj]; exact fun _ _ => rfl
    | some j => simp only [hj]; exact .ite (fun _ _ => rfl) fun _ _ => rfl

theorem runMicro_ignoresDelay (w : Byte) : IgnoresDelay (runMicro w) := by
  unfold runMicro
  cases decodePin w with
  | ok i => exact exec_ignoresDelay i
  | error d => cases d <;> exact fun _ _ => rfl

theorem construct_ignoresDelay : IgnoresDelay construct :=
  .ite (fun _ _ => rfl) fun s n => exec_ignoresDelay .clkSetHigh s.blank n

theorem serveRequest_ignoresDelay (q : Request) : IgnoresDelay (serveRequest q) := by
  cases q with
  | construct => exact construct_ignoresDelay
  | drop => exact .whenRunning fun _ _ => rfl
  | command w o => exact (issueCommand_ignoresDelay w o).whenRunning
  | micro w => exact (runMicro_ignoresDelay w).whenRunning
  | writeByte b => exact .whenRunning fun _ _ => rfl
  | readByte => exact .whenRunning fun _ _ => rfl

theorem serve_ignoresDelay : IgnoresDelay serve := by
  intro s n
  cases hp : s.program with
  | nil => simp only [serve, State.withDelay_program, hp]; rfl
  | cons q rest =>
    simp only [serve, State.withDelay_program, hp]
    exact serveRequest_ignoresDelay q { s with program := rest } n

theorem step_ignoresDelay : IgnoresDelay step := by
  have running : IgnoresDelay fun s => if s.active then tick s else serve s := .ite tick_ignoresDelay serve_ignoresDelay
  intro s n
  cases hf : s.fault with
  | some r =>
    rw [(faultedEngineTakesNoStep s r hf).1, (faultedEngineTakesNoStep (s.withDelay n) r hf).1]; rfl
  | none =>
    simp only [step, stepOnce, State.withDelay_fault, hf]
    exact running s n

/-- Settles O57: instructions and steps are put together from actions that ignore DELAY_ITERS. -/
theorem delayItersIsInvisible : Obligations.DelayItersIsInvisible :=
  fun s n => ⟨fun i => exec_ignoresDelay i s n, step_ignoresDelay s n⟩

end Sys2Proof.Machine
end

section
/-! The byte primitives run by themselves (spec 41): the byte that eight samples make, what WRITE_BYTE and READ_BYTE leave of an
idle engine, and the clock pulses of their events. -/

namespace Sys2Proof.Machine

/-! ## Levels and the byte they make -/

section Samples

variable {lvs : List Level}

/-- One more sample goes in below the ones before it (R108). -/
theorem byteOfLevels_concat (lvs : List Level) (v : Level) :
    byteOfLevels (lvs ++ [v]) = (byteOfLevels lvs).shiftConcat v := by
  rw [byteOfLevels, List.foldl_concat, ← byteOfLevels]
  ext i hi
  cases i with
  | zero => cases v <;> simp
  | succ i => cases v <;> simp

/-- The last sample is bit 0, the one before it bit 1, and so on (R108). -/
theorem byteOfLevels_getLsbD (lvs : List Level) {i : Nat} (hi : i < 8) :
    (byteOfLevels lvs).getLsbD i = lvs.reverse[i]?.getD false := by
  induction lvs using List.reverseRecOn generalizing i with
  | nil => simp [byteOfLevels]
  | append_singleton lvs v ih =>
    rw [byteOfLevels_concat, BitVec.getLsbD_shiftConcat, List.reverse_concat]
    cases i with
    | zero => simp
    | succ i => simp [hi, ih (i := i) (by omega)]

/-- What the `j`-th sample of `lvs` adds to the byte (R108). -/
def placeValue (lvs : List Level) (j : Nat) : Nat := if lvs[j]? = some true then 2 ^ (lvs.length - 1 - j) else 0

/-- One more sample doubles what a sample before it adds. -/
theorem placeValue_concat (v : Level) {j : Nat} (hj : j < lvs.length) :
    placeValue (lvs ++ [v]) j = placeValue lvs j * 2 := by
  have hexp : (lvs ++ [v]).length - 1 - j = lvs.length - 1 - j + 1 := by
    simp only [List.length_append, List.length_singleton]; omega
  rw [placeValue, placeValue, List.getElem?_append_left hj, hexp, pow_succ]
  split <;> rfl

theorem placeValue_concat_length (lvs : List Level) (v : Level) :
    placeValue (lvs ++ [v]) lvs.length = v.toNat := by
  cases v <;> simp [placeValue]

theorem sum_placeValue_concat (lvs : List Level) (v : Level) :
    ((List.range (lvs ++ [v]).length).map (placeValue (lvs ++ [v]))).sum =
      ((List.range lvs.length).map (placeValue lvs)).sum * 2 + v.toNat := by
  have hdouble : (List.range lvs.length).map (placeValue (lvs ++ [v])) =
      (List.range lvs.length).map fun j => placeValue lvs j * 2 :=
    List.map_congr_left fun j hj => placeValue_concat v (List.mem_range.1 hj)
  rw [List.length_append, List.length_singleton, List.range_succ, List.map_append, List.sum_append, hdouble,
    List.sum_map_mul_right]
  simp [placeValue_concat_length]

/-- At most eight samples make a byte below two to their number, the sum of what they add (R108). -/
theorem byteOfLevels_toNat (h : lvs.length ≤ 8) :
    (byteOfLevels lvs).toNat < 2 ^ lvs.length ∧
      (byteOfLevels lvs).toNat = ((List.range lvs.length).map (placeValue lvs)).sum := by
  induction lvs using List.reverseRecOn with
  | nil => simp [byteOfLevels]
  | append_singleton lvs v ih =>
    have hlen : lvs.length < 8 := by simpa using h
    obtain ⟨hlt, hsum⟩ := ih hlen.le
    rw [byteOfLevels_concat, sum_placeValue_concat, ← hsum, List.length_append]
    exact ⟨BitVec.toNat_shiftConcat_lt_of_lt hlen hlt, BitVec.toNat_shiftConcat_eq_of_lt hlen hlt⟩

end Samples

/-- Settles O18: the samples reversed are the bits from bit 0 on, and the value is the sum of what they add. -/
theorem samplesMakeByteMsbFirst : Obligations.SamplesMakeByteMsbFirst := by
  intro lvs hlen
  refine ⟨fun j hj => ?_, ?_⟩
  · rw [byteOfLevels_getLsbD lvs (by omega), List.getElem?_reverse (by omega),
      show lvs.length - 1 - (7 - j) = j by omega, List.getElem?_eq_getElem hj, Option.getD_some]
  · rw [(byteOfLevels_toNat hlen.le).2, hlen]
    refine congrArg List.sum (List.map_congr_left fun j _ => ?_)
    rw [placeValue, hlen]

/-- The levels of a byte in wire order, bit 7 first (R48). -/
def levelsOfByte (b : Byte) : List Level := bitsDown.map (byteBit b)

@[simp] theorem levelsOfByte_length (b : Byte) : (levelsOfByte b).length = 8 := rfl

theorem bitsDown_getElem? {j : Nat} (hj : j < 8) : bitsDown[j]? = some ⟨7 - j, by omega⟩ := by
  interval_cases j <;> rfl

theorem levelsOfByte_getElem? (b : Byte) {j : Nat} (hj : j < 8) : (levelsOfByte b)[j]? = some (b.getLsbD (7 - j)) := by
  rw [levelsOfByte, List.getElem?_map, bitsDown_getElem? hj]; rfl

/-- The levels of a byte make the byte (R103, R108). -/
theorem byteOfLevels_levelsOfByte (b : Byte) : byteOfLevels (levelsOfByte b) = b := by
  refine BitVec.eq_of_getLsbD_eq fun i hi => ?_
  rw [byteOfLevels_getLsbD _ hi, List.getElem?_reverse hi, levelsOfByte_length, levelsOfByte_getElem? b (by omega),
    Option.getD_some, show 7 - (8 - 1 - i) = i by omega]

/-! ## The primitives as instructions -/

section Primitives

variable {s : State}

/-- An operation that gives no reply ends with nothing in progress and nothing else changed (R117; log 5). -/
theorem State.complete_of_noReply (h : s.job.reply = none) :
    s.complete = { s with busy := false, seq := .idle, job := Job.idle } := by
  simp [State.complete, h]

/-- WRITE_BYTE by itself leaves what it leaves within an operation, and nothing in progress (R97, R98; log 5). -/
theorem exec_writeByte (b : Byte) (h : s.ReadyFor 25) : exec (.writeByte b) s =
    .next { s.wroteByte b with busy := false, seq := .idle, job := Job.idle } := by
  have ticks := writeByte_ticks (s := s.issue { Job.idle with op := .writeByte, w := Buffer.ofBytes [b] }) (i := 0)
    ⟨h.1, rfl⟩ rfl (Buffer.ofBytes_read [b] 0)
  rw [exec_primitive (i := .writeByte b) rfl rfl, runOp_of_ticks h ticks rfl rfl h.1.2.1 rfl,
    State.complete_of_noReply rfl]
  rfl

/-- READ_BYTE by itself leaves what it leaves within an operation, and nothing in progress (R101, R102; log 5). -/
theorem exec_readByte (h : s.ReadyFor 25) : exec .readByte s =
    .next { s.readByte with busy := false, seq := .idle, job := Job.idle } := by
  have ticks := readByte_ticks (s := s.issue { Job.idle with op := .readByte }) (i := 0) ⟨h.1, rfl⟩ rfl rfl
  rw [exec_primitive (i := .readByte) rfl rfl, runOp_of_ticks h ticks rfl rfl h.1.2.1 rfl,
    State.complete_of_noReply rfl]
  rfl

end Primitives

/-- Settles O15: WRITE_BYTE is `State.wroteByte`, written out. -/
theorem writeByteSendsByte : Obligations.WriteByteSendsByte :=
  fun _ b => ⟨rfl, exec_writeByte b⟩

/-- Settles O16: READ_BYTE is `State.readByte`, written out, and what it returned last is the eighth level. -/
theorem readByteReceivesByte : Obligations.ReadByteReceivesByte :=
  ⟨rfl, fun s h => ⟨_, exec_readByte h, rfl, (s.levels_bit 0 8 7 (by omega)).symm⟩⟩

/-- The feed with more bits given in advance, before its own (log 2). -/
def Feed.given (f : Feed) (l : List Bool) : Feed := ⟨l ++ f.script, f.used⟩

theorem Feed.given_bit (free : Nat → Bool) (f : Feed) {l : List Bool} {j : Nat} (h : j < l.length) :
    (f.given l).bit free j = l[j] := by
  have hj : j < (l ++ f.script).length := by rw [List.length_append]; omega
  rw [Feed.bit, Feed.given, dif_pos hj, List.getElem_append_left h]

theorem Feed.given_skip (f : Feed) (l : List Bool) : (f.given l).skip l.length = f := by
  simp [Feed.given, Feed.skip]

/-- The levels given in advance are the ones drawn (R92). -/
theorem State.levels_given (s : State) (lvs : List Level) :
    State.levels { s with samples := s.samples.given lvs } 0 lvs.length = lvs := by
  refine List.ext_getElem (by simp [State.levels]) fun j _ hj => ?_
  simp [State.levels, Feed.given_bit _ _ hj]

/-- Settles O20: the environment gives the levels of the byte. -/
theorem everyByteCanBeRead : Obligations.EveryByteCanBeRead := by
  intro s b h
  refine ⟨levelsOfByte b, _, rfl, exec_readByte (s := { s with samples := s.samples.given (levelsOfByte b) }) h, ?_, ?_⟩
  · exact (congrArg byteOfLevels (s.levels_given (levelsOfByte b))).trans (byteOfLevels_levelsOfByte b)
  · exact s.samples.given_skip (levelsOfByte b)

/-! ## The clock pulses of the primitives' events -/

section Pulses

variable {l : Lines}

/-! The lines after each named event (R82-R86, R88, R89, R93). -/

@[simp] theorem Lines.after_evClk (l : Lines) (v : Level) : l.after (evClk v) = { l with clk := v } := by cases v <;> rfl
@[simp] theorem Lines.after_evDelay (l : Lines) : l.after evDelay = l := rfl
@[simp] theorem Lines.after_evOut (l : Lines) :
    l.after evOut = { l with ddir := .out, dout := if l.ddir = Dir.out then l.dout else .unknown } := rfl
@[simp] theorem Lines.after_evIn (l : Lines) : l.after evIn = { l with ddir := .inp } := rfl
@[simp] theorem Lines.after_evSet (l : Lines) (v : Level) : l.after (evSet v) = { l with dout := Latch.ofLevel v } := by
  cases v <;> rfl
@[simp] theorem Lines.after_evSample (l : Lines) (lv : Level) : l.after (evSample lv) = l := rfl

theorem writeEvents_eq (b : Byte) : writeEvents b = [evOut] ++ (levelsOfByte b).flatMap writeBitEvents := by
  rw [writeEvents, levelsOfByte, List.flatMap_map]; rfl

/-- A written bit leaves CLK high and the bit in the latch (R97). -/
theorem replay_writeBitEvents (l : Lines) (v : Level) :
    l.replay (writeBitEvents v) = { l with clk := true, dout := Latch.ofLevel v } := by
  simp [Lines.replay, writeBitEvents]

/-- A read bit leaves CLK high (R101). -/
theorem replay_readBitEvents (l : Lines) (lv : Level) : l.replay (readBitEvents lv) = { l with clk := true } := by
  simp [Lines.replay, readBitEvents]

/-- The one rising edge of a written bit finds it in the latch (R104). -/
theorem risingLatches_writeBitEvents (h : l.clk = true) (v : Level) :
    risingLatches l (writeBitEvents v) = [Latch.ofLevel v] := by
  simp [risingLatches, writeBitEvents, h]

theorem risingLatches_writeBits (vs : List Level) (h : l.clk = true) :
    risingLatches l (vs.flatMap writeBitEvents) = vs.map Latch.ofLevel := by
  induction vs generalizing l with
  | nil => rfl
  | cons v vs ih =>
    rw [List.flatMap_cons, risingLatches_append, risingLatches_writeBitEvents h, replay_writeBitEvents, ih rfl]
    rfl

/-- The rising edges of WRITE_BYTE find the levels of its byte in the latch, in wire order (R104). -/
theorem risingLatches_writeEvents (b : Byte) (h : l.clk = true) :
    risingLatches l (writeEvents b) = (levelsOfByte b).map Latch.ofLevel := by
  have hout : risingLatches l [evOut] = [] := by simp [risingLatches, h]
  rw [writeEvents_eq, risingLatches_append, hout, List.nil_append]
  exact risingLatches_writeBits _ h

/-- From CLK high the events have these counts and leave CLK high (R105, R119). -/
def TallyFromHigh (ev : List PinEvent) (events pulses delays directions : Nat) : Prop :=
  ∀ l : Lines, l.clk = true → Tally l ev events pulses delays directions ∧ (l.replay ev).clk = true

theorem TallyFromHigh.append {a b : List PinEvent} {e p d r e' p' d' r' : Nat} (ha : TallyFromHigh a e p d r)
    (hb : TallyFromHigh b e' p' d' r') : TallyFromHigh (a ++ b) (e + e') (p + p') (d + d') (r + r') := by
  intro l h
  obtain ⟨tallyA, highA⟩ := ha l h
  obtain ⟨tallyB, highB⟩ := hb _ highA
  exact ⟨tallyA.append tallyB, by rwa [Lines.replay_append]⟩

/-- A loop whose rounds have the same counts has them times the number of rounds. -/
theorem TallyFromHigh.flatMap {α : Type} {f : α → List PinEvent} {e p d r : Nat} (hf : ∀ x, TallyFromHigh (f x) e p d r)
    (xs : List α) : TallyFromHigh (xs.flatMap f) (xs.length * e) (xs.length * p) (xs.length * d) (xs.length * r) := by
  induction xs with
  | nil =>
    simp only [List.flatMap_nil, List.length_nil, Nat.zero_mul]
    exact fun l h => ⟨⟨rfl, rfl, rfl, rfl, rfl, rfl⟩, h⟩
  | cons x xs ih =>
    simp only [List.length_cons, Nat.add_comm xs.length, Nat.add_mul, Nat.one_mul]
    exact (hf x).append ih

/-- The direction micro-operation that begins a primitive makes no edge (R106). -/
theorem tally_direction {e : PinEvent} (he : e = evOut ∨ e = evIn) : TallyFromHigh [e] 1 0 0 1 := by
  intro l h
  obtain rfl | rfl := he <;>
    exact ⟨⟨rfl, rfl, by simp [fallingEdges, h], by simp [risingEdges, h], rfl, rfl⟩, h⟩

/-- A written bit is one clock pulse with three DELAYs (R97, R105). -/
theorem tally_writeBitEvents (v : Level) : TallyFromHigh (writeBitEvents v) 6 1 3 0 := by
  intro l h
  refine ⟨⟨by cases v <;> rfl, rfl, ?_, ?_, by cases v <;> rfl, by cases v <;> rfl⟩, by rw [replay_writeBitEvents]⟩
  · simp [fallingEdges, writeBitEvents, h]
  · simp [risingEdges, writeBitEvents, h]

/-- A read bit is one clock pulse with two DELAYs (R101, R105). -/
theorem tally_readBitEvents (lv : Level) : TallyFromHigh (readBitEvents lv) 5 1 2 0 := by
  intro l h
  refine ⟨⟨by cases lv <;> rfl, rfl, ?_, ?_, rfl, rfl⟩, by rw [replay_readBitEvents]⟩
  · simp [fallingEdges, readBitEvents, h]
  · simp [risingEdges, readBitEvents, h]

/-- WRITE_BYTE: 49 events, eight pulses, 24 DELAYs, one direction micro-operation (R105-R107). -/
theorem tally_writeEvents (b : Byte) : TallyFromHigh (writeEvents b) 49 8 24 1 := by
  rw [writeEvents_eq]
  exact (tally_direction (.inl rfl)).append (.flatMap tally_writeBitEvents _)

/-- READ_BYTE: 41 events, eight pulses, 16 DELAYs, one direction micro-operation (R105-R107). -/
theorem tally_readEvents {lvs : List Level} (hlen : lvs.length = 8) : TallyFromHigh (readEvents lvs) 41 8 16 1 := by
  have tally := (tally_direction (.inr rfl)).append (.flatMap tally_readBitEvents lvs)
  rwa [hlen] at tally

end Pulses

/-- Settles O17: the latches at the rising edges are the levels of the byte. -/
theorem writeByteIsMsbFirst : Obligations.WriteByteIsMsbFirst := by
  intro l b h
  rw [risingLatches_writeEvents b h]
  refine ⟨by simp, fun j hj => ?_⟩
  rw [List.getElem?_map, levelsOfByte_getElem? b hj, Option.map_some]

/-- Settles O19: the counts of the direction micro-operation and of eight bits. -/
theorem primitivesAreEightPulses : Obligations.PrimitivesAreEightPulses := by
  intro l b lvs h hlen
  obtain ⟨writes, writeHigh⟩ := tally_writeEvents b l h
  obtain ⟨reads, readHigh⟩ := tally_readEvents hlen l h
  exact ⟨writes, writeHigh, reads, readHigh⟩

end Sys2Proof.Machine
end

section
/-! The bus operations whose driver does not panic, as one transition each (spec 42 R110-R116): the state that each leaves, the
Result and the buffer it gives back. -/

namespace Sys2Proof

theorem Buffer.wf_of_fit {cfg : Config} {b : Buffer} (h : b.fit cfg = true) : b.wf = true := (Bool.and_eq_true_iff.1 h).1

theorem Buffer.empty_fit (cfg : Config) : Buffer.empty.fit cfg = true := by
  rcases cfg with ⟨_, _ | m, _⟩ <;> rfl

end Sys2Proof

namespace Sys2Proof.Machine

/-! ## The state that each operation leaves -/

/-- The engine once a bus operation is complete: nothing in progress, and DONE with Ok and the buffers R and X given back
(R110, R117). -/
def State.finished (s : State) (r x : Option Buffer) : State :=
  { s with busy := false, seq := .idle, job := Job.idle, replies := s.replies ++ [.done .ok r x] }

@[simp] theorem State.finished_busy (s : State) (r x : Option Buffer) : (s.finished r x).busy = false := rfl
@[simp] theorem State.finished_fault (s : State) (r x : Option Buffer) : (s.finished r x).fault = s.fault := rfl
@[simp] theorem State.finished_trace (s : State) (r x : Option Buffer) : (s.finished r x).trace = s.trace := rfl
@[simp] theorem State.finished_samples (s : State) (r x : Option Buffer) : (s.finished r x).samples = s.samples := rfl
@[simp] theorem State.finished_lines (s : State) (r x : Option Buffer) : (s.finished r x).lines = s.lines := rfl
@[simp] theorem State.finished_replies (s : State) (r x : Option Buffer) :
    (s.finished r x).replies = s.replies ++ [.done .ok r x] := rfl

/-- On an engine with nothing in progress only the reply is new. -/
theorem State.finished_of_idle {s : State} (ha : s.active = false) (hq : s.seq = .idle) (hj : s.job = Job.idle)
    (r x : Option Buffer) : s.finished r x = { s with replies := s.replies ++ [.done .ok r x] } := by
  have hb : s.busy = false := (Bool.or_eq_false_iff.1 ha).1
  rw [State.finished, ← hb, ← hq, ← hj]

/-- The replies before the operation, which no micro-operation gives, and its own. -/
theorem State.finished_replies_of {s t : State} (h : t.replies = s.replies) (r x : Option Buffer) :
    (t.finished r x).replies = s.replies ++ [.done .ok r x] := by
  rw [State.finished_replies, h]

/-- The finished engine written out over those replies. -/
theorem State.finished_of_replies {s t : State} (h : t.replies = s.replies) (r x : Option Buffer) : t.finished r x =
    { t with busy := false, seq := .idle, job := Job.idle, replies := s.replies ++ [.done .ok r x] } := by
  rw [State.finished, h]

@[simp] theorem State.wroteBytes_replies (s : State) (l : List Byte) : (s.wroteBytes l).replies = s.replies := by
  obtain ⟨-, -, -, -, hreplies, -⟩ := State.wroteBytes_keeps (s := s) l
  exact hreplies

@[simp] theorem State.readBytes_replies (s : State) (n : Nat) : (s.readBytes n).replies = s.replies := by
  obtain ⟨-, -, -, -, hreplies, -⟩ := State.readBytes_keeps (s := s) n
  exact hreplies

@[simp] theorem State.exchanged_replies (s : State) (l : List Byte) : (s.exchanged l).replies = s.replies := by
  obtain ⟨-, -, -, -, hreplies, -⟩ := State.exchanged_keeps (s := s) l
  exact hreplies

/-- READ_BYTEs draw eight levels each (R111). -/
@[simp] theorem State.readBytes_samples (s : State) (n : Nat) : (s.readBytes n).samples = s.samples.skip (8 * n) := by
  induction n generalizing s with
  | zero => exact (Feed.skip_zero _).symm
  | succ n ih => rw [State.readBytes, ih, State.readByte_samples, Feed.skip_skip, Nat.mul_succ, Nat.add_comm]

/-- TRANSFER_IN_PLACE draws eight levels a byte (R114). -/
@[simp] theorem State.exchanged_samples (s : State) (l : List Byte) :
    (s.exchanged l).samples = s.samples.skip (8 * l.length) := by
  induction l generalizing s with
  | nil => exact (Feed.skip_zero _).symm
  | cons b l ih =>
    rw [State.exchanged, List.foldl_cons, ← State.exchanged, ih, State.readByte_samples, State.wroteByte_samples,
      Feed.skip_skip, List.length_cons, Nat.mul_succ, Nat.add_comm]

/-- The bytes that the next READ_BYTEs give are the same after WRITE_BYTEs, which draw no level (R97). -/
@[simp] theorem State.bytesAt_wroteBytes (s : State) (l : List Byte) (n : Nat) :
    (s.wroteBytes l).bytesAt n = s.bytesAt n := by
  obtain ⟨-, -, -, -, -, hsamples, -⟩ := State.wroteBytes_keeps (s := s) l
  refine List.map_congr_left fun i _ => ?_
  simp only [State.byteAt, State.byteLevels, State.levels, hsamples]

/-- Once a byte is exchanged, the READ_BYTEs from now are counted from one further on (R114). -/
theorem State.exchangeEvents_exchanged (s : State) (b : Byte) (i : Nat) (l : List Byte) :
    (s.wroteByte b).readByte.exchangeEvents i l = s.exchangeEvents (i + 1) l := by
  induction l generalizing i with
  | nil => rfl
  | cons c l ih => rw [State.exchangeEvents, State.exchangeEvents, ih, State.byteLevels_readByte]; rfl

/-- The trace of a WRITE_BYTE and a READ_BYTE for each byte in turn (R114). -/
theorem State.exchanged_trace (s : State) (l : List Byte) : (s.exchanged l).trace = s.trace ++ s.exchangeEvents 0 l := by
  induction l generalizing s with
  | nil => exact (List.append_nil _).symm
  | cons b l ih =>
    calc (s.exchanged (b :: l)).trace
      _ = (s.wroteByte b).readByte.trace ++ s.exchangeEvents 1 l := by
        rw [← s.exchangeEvents_exchanged b 0 l]; exact ih _
      _ = s.trace ++ s.exchangeEvents 0 (b :: l) := by
        simp only [State.readByte_trace, State.wroteByte_trace, State.exchangeEvents, List.append_assoc]; rfl

/-- A buffer filled from index 0 with the bytes of the next READ_BYTEs (R111). -/
def State.filled (s : State) (b : Buffer) : Buffer := b.fill 0 (s.bytesAt b.len)

/-- The filled buffer has its length, its canonical form, and byte i of the i-th eight samples (R108, R111). -/
theorem State.filled_spec (s : State) {b : Buffer} (hb : b.wf = true) :
    (s.filled b).len = b.len ∧ (s.filled b).wf = true ∧
      ∀ i, i < b.len → (s.filled b).read i = some (byteOfLevels (s.byteLevels i)) := by
  have hlen : (s.bytesAt b.len).length = b.len := by simp [State.bytesAt]
  obtain ⟨hwf, hread⟩ := b.fill_spec 0 (s.bytesAt b.len) hb (by omega)
  refine ⟨b.fill_len 0 _, hwf, fun i hi => ?_⟩
  rw [State.filled, hread i, dif_pos ⟨i.zero_le, by omega⟩]
  simp [State.bytesAt, State.byteAt]

/-- The completion of an operation that gives Ok is the finished engine (R110, R117). -/
theorem State.complete_finishing (s : State) {j : Job} {r x : Option Buffer} (h : j.reply = some (.done .ok r x)) :
    (s.finishing j).complete = s.finished r x := by
  have hreply : (s.finishing j).job.reply = some (.done .ok r x) := h
  rw [State.complete, hreply]; rfl

section Operations

variable {s : State}

/-- A well-formed bus operation whose micro-operations run to `t` without a fault completes there with its reply (R117). -/
theorem exec_bus_of_ticks {i : Instr} {j j' : Job} {t : State} {k : Nat} {r x : Option Buffer} (hb : busInstr i = true)
    (hj : jobOf i = some j) (hw : i.wf s.cfg = true) (h : s.ReadyFor k)
    (ticks : Ticks j.microCount (s.issue j) (t.finishing j')) (hf : t.fault = none)
    (hreply : j'.reply = some (.done .ok r x)) : exec i s = .next (t.finished r x) := by
  have ⟨⟨hl, hs, _⟩, ha⟩ := h
  rw [exec_bus_of_wf hl hs ha hb hw hj, ← t.complete_finishing hreply]
  exact runOp_of_ticks h ticks rfl (t.finishing_active j') hf rfl

/-- READ leaves what its READ_BYTEs leave, and gives R back filled (R111). -/
theorem exec_read {r : Buffer} (h : s.ReadyFor (25 * r.len)) (hr : r.fit s.cfg = true) :
    exec (.read r) s = .next ((s.readBytes r.len).finished (some (s.filled r)) none) :=
  exec_bus_of_ticks rfl rfl hr h (read_ticks r h.1) ((State.readBytes_fault ..).trans h.1.2.1) rfl

/-- WRITE leaves what a WRITE_BYTE of each byte of W leaves, and gives no buffer back (R112). -/
theorem exec_write {w : Buffer} (h : s.ReadyFor (25 * w.len)) (hw : w.fit s.cfg = true) :
    exec (.write w) s = .next ((s.wroteBytes w.toBytes).finished none none) :=
  exec_bus_of_ticks rfl rfl hw h (write_ticks w h.1) ((State.wroteBytes_fault ..).trans h.1.2.1) rfl

/-- TRANSFER leaves what its WRITE_BYTEs and then its READ_BYTEs leave, and gives R back filled (R113). -/
theorem exec_transfer {r w : Buffer} (h : s.ReadyFor (25 * (w.len + r.len))) (hr : r.fit s.cfg = true)
    (hw : w.fit s.cfg = true) : exec (.transfer r w) s =
      .next (((s.wroteBytes w.toBytes).readBytes r.len).finished (some (s.filled r)) none) := by
  have hf : ((s.wroteBytes w.toBytes).readBytes r.len).fault = none := by simp [h.1.2.1]
  have hfilled : (s.wroteBytes w.toBytes).filled r = s.filled r := by simp [State.filled]
  rw [← hfilled]
  exact exec_bus_of_ticks rfl rfl (Bool.and_eq_true_iff.2 ⟨hr, hw⟩) h (transfer_ticks r w h.1) hf rfl

/-- TRANSFER_IN_PLACE leaves what a WRITE_BYTE and a READ_BYTE for each byte of X leave, and gives X back filled (R114). -/
theorem exec_transferInPlace {x : Buffer} (h : s.ReadyFor (50 * x.len)) (hx : x.fit s.cfg = true) :
    exec (.transferInPlace x) s = .next ((s.exchanged x.toBytes).finished none (some (s.filled x))) :=
  exec_bus_of_ticks rfl rfl hx h (transferInPlace_ticks x (Buffer.wf_of_fit hx) h.1)
    ((State.exchanged_fault ..).trans h.1.2.1) rfl

/-- FLUSH leaves the engine as it was, with nothing in progress (R115). -/
theorem exec_flush (h : s.Ready) : exec .flush s = .next (s.finished none none) :=
  exec_bus_of_ticks rfl rfl rfl h (flush_ticks s) h.1.2.1 rfl

end Operations

/-- Settles O21: READ is `State.readBytes`, and R comes back filled. -/
theorem readFillsBuffer : Obligations.ReadFillsBuffer := by
  intro s r h hr
  exact ⟨rfl, _, _, exec_read h hr, State.finished_of_replies (State.readBytes_replies ..) .., State.readBytes_trace r.len,
    s.readBytes_samples r.len, s.filled_spec (Buffer.wf_of_fit hr)⟩

/-- Settles O22: WRITE is `State.wroteBytes`. -/
theorem writeSendsBuffer : Obligations.WriteSendsBuffer := by
  intro s w h hw
  exact ⟨rfl, _, exec_write h hw, State.finished_of_replies (State.wroteBytes_replies ..) ..,
    State.wroteBytes_trace w.toBytes⟩

/-- Settles O23: TRANSFER is `State.wroteBytes` and then `State.readBytes`, and R comes back filled. -/
theorem transferWritesThenReads : Obligations.TransferWritesThenReads := by
  intro s r w h hr hw
  have hreplies : ((s.wroteBytes w.toBytes).readBytes r.len).replies = s.replies := by simp
  exact ⟨rfl, _, _, exec_transfer h hr hw, State.finished_of_replies hreplies .., s.filled_spec (Buffer.wf_of_fit hr)⟩

/-- Settles O25: TRANSFER_IN_PLACE is `State.exchanged`, and X comes back filled. -/
theorem transferInPlaceExchanges : Obligations.TransferInPlaceExchanges := by
  intro s x h hx
  have hsamples := s.exchanged_samples x.toBytes
  rw [x.toBytes_length] at hsamples
  exact ⟨rfl, _, _, exec_transferInPlace h hx, State.finished_of_replies (State.exchanged_replies ..) ..,
    s.exchanged_trace x.toBytes, hsamples, s.filled_spec (Buffer.wf_of_fit hx)⟩

/-- Settles O26: FLUSH leaves the engine finished, which on an idle one is a new reply only. -/
theorem flushDoesNothing : Obligations.FlushDoesNothing :=
  ⟨rfl, fun s h => ⟨exec_flush h, fun hq hj => s.finished_of_idle h.2 hq hj none none ▸ exec_flush h⟩⟩

/-- Settles O27: every operation leaves the engine finished, with the replies and the fault as they were before. -/
theorem everyOperationReturnsOk : Obligations.EveryOperationReturnsOk := by
  refine ⟨fun i j s hb hj hw h => ?_, rfl, rfl⟩
  obtain ⟨t, r, x, ht, hreplies, hfault⟩ : ∃ (t : State) (r x : Option Buffer),
      exec i s = .next (t.finished r x) ∧ t.replies = s.replies ∧ t.fault = s.fault := by
    cases i <;> cases hj <;> cases hb
    case read r => exact ⟨_, _, _, exec_read h hw, State.readBytes_replies .., State.readBytes_fault ..⟩
    case write w => exact ⟨_, _, _, exec_write h hw, State.wroteBytes_replies .., State.wroteBytes_fault ..⟩
    case transfer r w =>
      obtain ⟨hr, hw⟩ := Bool.and_eq_true_iff.1 hw
      exact ⟨_, _, _, exec_transfer h hr hw, by simp, by simp⟩
    case transferInPlace x =>
      exact ⟨_, _, _, exec_transferInPlace h hw, State.exchanged_replies .., State.exchanged_fault ..⟩
    case flush => exact ⟨_, _, _, exec_flush h, rfl, rfl⟩
  exact ⟨_, r, x, ht, State.finished_replies_of hreplies r x, rfl, hfault.trans h.1.2.1⟩

/-! ## Zero lengths -/

/-- Settles O30: no byte moves, so the engine is only finished, and an empty buffer filled is empty. -/
theorem zeroLengthDoesNothing : Obligations.ZeroLengthDoesNothing := by
  intro s i h hq hj hi
  have idle := s.finished_of_idle h.2 hq hj
  have hfit := Buffer.empty_fit s.cfg
  have hfilled : s.filled Buffer.empty = Buffer.empty := rfl
  simp only [List.mem_cons, List.not_mem_nil, or_false] at hi
  obtain rfl | rfl | rfl | rfl := hi
  · exact ⟨_, _, idle .. ▸ exec_read h hfit, by simp [hfilled], by simp⟩
  · exact ⟨_, _, idle .. ▸ exec_write h hfit, by simp, by simp⟩
  · exact ⟨_, _, idle .. ▸ exec_transfer h hfit hfit, by simp [hfilled], by simp⟩
  · exact ⟨_, _, idle .. ▸ exec_transferInPlace h hfit, by simp, by simp [hfilled]⟩

end Sys2Proof.Machine
end

section
/-! What the events of the bus operations count to, where they leave the lines, how often they turn DATA (spec 42 R119-R121), and
loopback (42 R122). -/

namespace Sys2Proof.Machine

/-! ## Counts -/

section Tallies

theorem State.byteLevels_length (s : State) (i : Nat) : (s.byteLevels i).length = 8 := by
  simp [State.byteLevels, State.levels]

/-- The counts of the WRITE_BYTEs of `l` (R119). -/
theorem tally_writes (l : List Byte) :
    TallyFromHigh (l.flatMap writeEvents) (49 * l.length) (8 * l.length) (24 * l.length) l.length := by
  simpa only [Nat.mul_comm l.length, Nat.one_mul] using TallyFromHigh.flatMap tally_writeEvents l

/-- The counts of the next `n` READ_BYTEs (R119). -/
theorem tally_reads (s : State) (n : Nat) : TallyFromHigh (s.readsEvents n) (41 * n) (8 * n) (16 * n) n := by
  simpa only [State.readsEvents, List.length_range, Nat.mul_comm n, Nat.one_mul] using
    TallyFromHigh.flatMap (fun i => tally_readEvents (s.byteLevels_length i)) (List.range n)

/-- The counts of a WRITE_BYTE and a READ_BYTE for each byte of `l` (R119). -/
theorem tally_exchanges (s : State) (i : Nat) (l : List Byte) :
    TallyFromHigh (s.exchangeEvents i l) (90 * l.length) (16 * l.length) (40 * l.length) (2 * l.length) := by
  induction l generalizing i with
  | nil => exact tally_writes []
  | cons b l ih =>
    simp only [List.length_cons, Nat.mul_add_one, Nat.add_comm (_ * l.length)]
    exact ((tally_writeEvents b).append (tally_readEvents (s.byteLevels_length i))).append (ih (i + 1))

end Tallies

/-- Settles O28: the counts of the primitives, as many times as the operation has them. -/
theorem operationTallies : Obligations.OperationTallies := by
  intro s hclk
  have counts : ∀ {ev : List PinEvent} {e p d r : Nat}, TallyFromHigh ev e p d r → Tally s.lines ev e p d r :=
    fun tally => (tally s.lines hclk).1
  refine ⟨fun r h hr => ?_, fun w h hw => ?_, fun r w h hr hw => ?_, fun x h hx => ?_, fun h => ?_⟩
  · exact ⟨_, _, exec_read h hr, State.readBytes_trace r.len, counts (tally_reads s r.len)⟩
  · refine ⟨_, _, exec_write h hw, State.wroteBytes_trace w.toBytes, counts ?_⟩
    simpa only [w.toBytes_length] using tally_writes w.toBytes
  · obtain ⟨t, ht, htr⟩ := exec_transfer_trace h hr hw
    refine ⟨t, _, ht, htr, counts ?_⟩
    simpa only [w.toBytes_length, Nat.mul_add] using (tally_writes w.toBytes).append (tally_reads s r.len)
  · refine ⟨_, _, exec_transferInPlace h hx, s.exchanged_trace x.toBytes, counts ?_⟩
    simpa only [x.toBytes_length] using tally_exchanges s 0 x.toBytes
  · exact ⟨_, [], exec_flush h, (List.append_nil _).symm, counts (tally_writes [])⟩

/-! ## Lines at the end -/

section EndLines

variable {s : State}

/-- The last WRITE_BYTE decides the lines (R121). -/
theorem State.wroteBytes_concat_lines (l : List Byte) (b : Byte) :
    (s.wroteBytes (l ++ [b])).lines = ⟨true, .out, Latch.ofLevel (b.getLsbD 0)⟩ := by
  rw [State.wroteBytes, List.foldl_concat]; rfl

/-- READ_BYTEs leave DATA an input and keep the latch (R121). -/
theorem State.readBytes_lines (s : State) (n : Nat) :
    (s.readBytes n).lines = if n = 0 then s.lines else ⟨true, .inp, s.dout⟩ := by
  induction n generalizing s with
  | zero => rfl
  | succ n ih =>
    rw [State.readBytes, ih, if_neg n.succ_ne_zero]
    split <;> rfl

/-- The last WRITE_BYTE and READ_BYTE of an exchange decide the lines (R121). -/
theorem State.exchanged_concat_lines (l : List Byte) (b : Byte) :
    (s.exchanged (l ++ [b])).lines = ⟨true, .inp, Latch.ofLevel (b.getLsbD 0)⟩ := by
  rw [State.exchanged, List.foldl_concat]; rfl

end EndLines

/-- Settles O29: the last byte written and the last one read decide the lines. -/
theorem operationEndLines : Obligations.OperationEndLines := by
  intro s _
  refine ⟨fun r h hr => ?_, fun w h hw => ?_, fun r w h hr hw => ?_, fun x h hx => ?_, fun h => ?_⟩
  · exact ⟨_, exec_read h hr, rfl, s.readBytes_lines r.len⟩
  · refine ⟨_, exec_write h hw, rfl, ?_⟩
    rw [State.finished_lines]
    obtain hnil | ⟨l, b, hlast⟩ := w.toBytes.eq_nil_or_concat'
    · rw [hnil]; rfl
    · rw [hlast, List.getLast?_concat, State.wroteBytes_concat_lines]
  · refine ⟨_, exec_transfer h hr hw, rfl, ?_⟩
    rw [State.finished_lines, State.readBytes_lines]
    obtain hnil | ⟨l, b, hlast⟩ := w.toBytes.eq_nil_or_concat'
    · rw [hnil]; rfl
    · have hlines := s.wroteBytes_concat_lines l b
      rw [hlast, List.getLast?_concat, hlines, show (s.wroteBytes (l ++ [b])).dout = _ from congrArg Lines.dout hlines]
      split <;> rfl
  · refine ⟨_, exec_transferInPlace h hx, rfl, ?_⟩
    rw [State.finished_lines]
    obtain hnil | ⟨l, b, hlast⟩ := x.toBytes.eq_nil_or_concat'
    · rw [hnil]; rfl
    · rw [hlast, List.getLast?_concat, State.exchanged_concat_lines]
  · exact ⟨_, exec_flush h, rfl, rfl⟩

/-! ## Changes of direction -/

/-- From any lines the events make DATA the direction `d`, with one change when it has another one and none when it has `d`
already (R106, R120). -/
def TurnsTo (d : Dir) (ev : List PinEvent) : Prop :=
  ∀ l : Lines, directionChanges l ev = (if l.ddir = d then 0 else 1) ∧ (l.replay ev).ddir = d

/-- No event of `ev` turns DATA. -/
def KeepsDirection (ev : List PinEvent) : Prop := ∀ e ∈ ev, ∀ l : Lines, (l.after e).ddir = l.ddir

section Directions

variable {d : Dir} {a b : List PinEvent}

theorem KeepsDirection.changes (h : KeepsDirection a) (l : Lines) :
    directionChanges l a = 0 ∧ (l.replay a).ddir = l.ddir := by
  induction a generalizing l with
  | nil => exact ⟨rfl, rfl⟩
  | cons e a ih =>
    have he := h e List.mem_cons_self l
    obtain ⟨hchanges, hdir⟩ := ih (fun e he => h e (List.mem_cons_of_mem _ he)) (l.after e)
    exact ⟨by rw [directionChanges, he, if_pos rfl, hchanges], hdir.trans he⟩

/-- A primitive turns DATA with its first event only (R106). -/
theorem TurnsTo.cons {e : PinEvent} (he : ∀ l : Lines, (l.after e).ddir = d) (h : KeepsDirection a) :
    TurnsTo d (e :: a) := by
  intro l
  obtain ⟨hchanges, hdir⟩ := h.changes (l.after e)
  exact ⟨by rw [directionChanges, he, hchanges]; rfl, hdir.trans (he l)⟩

theorem turnsTo_writeEvents (b : Byte) : TurnsTo .out (writeEvents b) := by
  refine .cons (fun l => rfl) fun e he l => ?_
  obtain ⟨k, -, he⟩ := List.mem_flatMap.1 he
  simp only [writeBitEvents, List.mem_cons, List.not_mem_nil, or_false] at he
  obtain rfl | rfl | rfl | rfl | rfl | rfl := he <;> simp

theorem turnsTo_readEvents (lvs : List Level) : TurnsTo .inp (readEvents lvs) := by
  refine .cons (fun l => rfl) fun e he l => ?_
  obtain ⟨v, -, he⟩ := List.mem_flatMap.1 he
  simp only [readBitEvents, List.mem_cons, List.not_mem_nil, or_false] at he
  obtain rfl | rfl | rfl | rfl | rfl := he <;> simp

/-- Turning DATA once more to where it is changes nothing. -/
theorem TurnsTo.append (ha : TurnsTo d a) (hb : TurnsTo d b) : TurnsTo d (a ++ b) := by
  intro l
  obtain ⟨hchanges, hdir⟩ := ha l
  obtain ⟨hchanges', hdir'⟩ := hb (l.replay a)
  rw [if_pos hdir] at hchanges'
  exact ⟨by rw [directionChanges_append, hchanges, hchanges', Nat.add_zero], by rw [Lines.replay_append, hdir']⟩

/-- A loop of primitives of one kind turns DATA at most once, and not at all when it is empty (R120). -/
theorem directionChanges_flatMap {α : Type} {f : α → List PinEvent} (hf : ∀ x, TurnsTo d (f x)) (xs : List α)
    (l : Lines) : directionChanges l (xs.flatMap f) = if xs.length = 0 ∨ l.ddir = d then 0 else 1 := by
  cases xs with
  | nil => rfl
  | cons x xs =>
    have turns : TurnsTo d ((x :: xs).flatMap f) := by
      induction xs generalizing x with
      | nil => simpa using hf x
      | cons y xs ih => exact (hf x).append (ih y)
    rw [(turns l).1]; simp

theorem directionChanges_reads (s : State) (n : Nat) (l : Lines) :
    directionChanges l (s.readsEvents n) = if n = 0 ∨ l.ddir = .inp then 0 else 1 := by
  simpa only [State.readsEvents, List.length_range] using
    directionChanges_flatMap (fun i => turnsTo_readEvents (s.byteLevels i)) (List.range n) l

/-- Every primitive of an exchange turns DATA, but for the first when it is an output already (R120). -/
theorem directionChanges_exchanges (s : State) (i : Nat) (bs : List Byte) (l : Lines) :
    directionChanges l (s.exchangeEvents i bs) =
      2 * bs.length - if bs.length ≠ 0 ∧ l.ddir = .out then 1 else 0 := by
  induction bs generalizing i l with
  | nil => rfl
  | cons b bs ih =>
    obtain ⟨hwrite, hout⟩ := turnsTo_writeEvents b l
    obtain ⟨hread, hinp⟩ := turnsTo_readEvents (s.byteLevels i) (l.replay (writeEvents b))
    rw [State.exchangeEvents, directionChanges_append, directionChanges_append, Lines.replay_append, ih, hinp, hread,
      hout, hwrite]
    by_cases hd : l.ddir = .out <;> simp [hd] <;> omega

end Directions

/-- Settles O31: the primitives of one kind in a row turn DATA once. -/
theorem directionChangesAreFew : Obligations.DirectionChangesAreFew := by
  intro s
  refine ⟨fun r h hr => ?_, fun w h hw => ?_, fun r w h hr hw => ?_, fun x h hx => ?_⟩
  · exact ⟨_, _, exec_read h hr, State.readBytes_trace r.len, directionChanges_reads s r.len s.lines⟩
  · refine ⟨_, _, exec_write h hw, State.wroteBytes_trace w.toBytes, ?_⟩
    rw [directionChanges_flatMap turnsTo_writeEvents, w.toBytes_length]; rfl
  · obtain ⟨t, ht, htr⟩ := exec_transfer_trace h hr hw
    refine ⟨t, _, ht, htr, ?_⟩
    rw [directionChanges_append, directionChanges_flatMap turnsTo_writeEvents, directionChanges_reads]
    split <;> split <;> omega
  · refine ⟨_, _, exec_transferInPlace h hx, s.exchanged_trace x.toBytes, ?_⟩
    rw [directionChanges_exchanges, x.toBytes_length]; rfl

/-! ## Loopback -/

/-- Samples that are the levels of a byte in wire order make the byte (R104, R108). -/
theorem byteOfLevels_byteLevels {s : State} {i : Nat} {b : Byte}
    (h : ∀ j, j < 8 → s.samples.bit Config.freeLevel (8 * i + j) = b.getLsbD (7 - j)) :
    byteOfLevels (s.byteLevels i) = b := by
  have hlevels : s.byteLevels i = levelsOfByte b := by
    refine List.ext_getElem? fun j => ?_
    by_cases hj : j < 8
    · rw [State.byteLevels, State.levels_bit _ _ _ _ hj, h j hj, levelsOfByte_getElem? b hj]
    · rw [List.getElem?_eq_none (by rw [State.byteLevels_length]; omega),
        List.getElem?_eq_none (by rw [levelsOfByte_length]; omega)]
  rw [hlevels, byteOfLevels_levelsOfByte]

/-- Settles O32: every byte read is the one written at its index. -/
theorem loopbackReturnsSequence : Obligations.LoopbackReturnsSequence := by
  intro s x h hx hloop
  obtain ⟨hlen, -, hread⟩ := s.filled_spec (Buffer.wf_of_fit hx)
  refine ⟨_, _, exec_transferInPlace h hx, State.finished_replies_of (s.exchanged_replies _) ..,
    List.ext_getElem? fun i => ?_⟩
  rw [Buffer.toBytes_getElem?, Buffer.toBytes_getElem?]
  by_cases hi : i < x.len
  · have hb : x.read i = some (x.cells.read i) := if_pos hi
    rw [hread i hi, hb, byteOfLevels_byteLevels fun j hj => hloop i j _ hj hb]
  · rw [Buffer.read, Buffer.read, hlen, if_neg hi, if_neg hi]

end Sys2Proof.Machine
end

section
/-! Issue as a step (spec 42 R117), and that every operation ends: no position of an operation refuses or finds the wrong mode,
and each phase leaves one micro-operation fewer (42 R118; 60 R133). -/

namespace Sys2Proof.Machine

/-- Settles O36: the port issues the command, and a bus operation is no primitive. -/
theorem stepIssuesCommand : Obligations.StepIssuesCommand := by
  intro s w o rest i j hl hf ha hp hd hb hw hj
  rw [step_serve hf ha hp]
  refine (serveRequest_command (s := { s with program := rest }) hl hf hd hb hw hj).trans ?_
  rw [State.issue, internal_of_busInstr hb hj]
  rfl

/-! ## Positions that an operation can take -/

/-- The direction of DATA in a primitive, after its first micro-operation (R97, R101). -/
def Prim.dir : Prim → Dir
  | .wb => .out
  | .rb => .inp

/-- The sequencer is IDLE or at the first phase of a primitive that the operation has (R31, R111-R114). -/
def Job.Enters (j : Job) (a : Seq) : Prop :=
  ∀ q, a = .pos q → q.phase.dirBefore = none ∧ j.has q.i q.phase.prim = true

section Positions

variable {j j' : Job} {p q : Pos} {n i : Nat} {after : Seq}

/-- Once a primitive has turned DATA, every phase of it needs that direction (R97, R101, R133). -/
theorem Phase.dirBefore_eq {ph : Phase} {d : Dir} (h : ph.dirBefore = some d) : d = ph.prim.dir := by
  cases ph <;> cases h <;> rfl

/-- Whether an operation has a primitive is a matter of the operation and the lengths of its buffers (R47). -/
theorem Job.has_congr (h : j.Held j') (i : Nat) (pr : Prim) : j'.has i pr = j.has i pr := by
  rcases j with ⟨op, r, w, x⟩
  rcases j' with ⟨op', r', w', x'⟩
  obtain ⟨rfl, rfl, hr, hx⟩ := h
  dsimp only at hr hx
  cases pr with
  | wb => cases op' <;> simp [Job.has, Job.source, Buffer.read, hx, apply_ite]
  | rb => cases op' <;> simp [Job.has, Job.store, Buffer.write, hr, hx, apply_ite]

/-- READ and TRANSFER have a READ_BYTE for every byte of R (R111, R113). -/
theorem Job.has_of_lt_r (hop : j.op = .read ∨ j.op = .transfer) (hi : i < j.r.len) : j.has i .rb = true := by
  have hw := Buffer.write_isSome 0 hi
  obtain hop | hop := hop <;> simpa [Job.has, Job.store, hop] using hw

/-- WRITE and TRANSFER have a WRITE_BYTE for every byte of W (R112, R113). -/
theorem Job.has_of_lt_w (hop : j.op = .write ∨ j.op = .transfer) (hi : i < j.w.len) : j.has i .wb = true := by
  obtain hop | hop := hop <;> simp [Job.has, Job.source, hop, (j.w.read_isSome i).2 hi]

/-- TRANSFER_IN_PLACE has both primitives for every byte of X and no other (R114). -/
theorem Job.has_iff_lt_x (hop : j.op = .transferInPlace) (pr : Prim) : j.has i pr = true ↔ i < j.x.len := by
  cases pr with
  | wb => simp [Job.has, Job.source, hop, j.x.read_isSome i]
  | rb => simp [Job.has, Job.store, hop, Buffer.write, apply_ite]

/-- Whether the byte of a READ_BYTE can be stored does not depend on the byte (R47). -/
theorem Job.store_isSome (h : j.has i .rb = true) (v : Byte) : (j.store i v).isSome = true := by
  rcases j with ⟨op, r, w, x⟩
  cases op
  case read | transfer | transferInPlace => simpa [Job.has, Job.store, Buffer.write, apply_ite] using h
  case readByte => rfl
  case write | flush | writeByte => cases h

theorem Job.enters_idle (j : Job) : j.Enters .idle := nofun

theorem Job.enters_startWrite (h : j.has i .wb = true) : j.Enters (startWrite i) := by
  rintro _ ⟨⟩
  exact ⟨rfl, h⟩

theorem Job.enters_startRead (h : j.has i .rb = true) : j.Enters (startRead i) := by
  rintro _ ⟨⟩
  exact ⟨rfl, h⟩

theorem Job.enters_writeFrom (h : i < n → j.has i .wb = true) (ha : j.Enters after) :
    j.Enters (writeFrom n i after) := by
  unfold writeFrom
  split
  · next hi => exact enters_startWrite (h hi)
  · exact ha

theorem Job.enters_readFrom (h : i < n → j.has i .rb = true) : j.Enters (readFrom n i) := by
  unfold readFrom
  split
  · next hi => exact enters_startRead (h hi)
  · exact j.enters_idle

/-- An operation starts IDLE or with a primitive that it has; a WRITE_BYTE by itself was lent its byte (R96, R117). -/
theorem Job.enters_start (h : j.op = .writeByte → j.has 0 .wb = true) : j.Enters j.start := by
  rcases j with ⟨op, r, w, x⟩
  cases op
  case read => exact enters_readFrom (has_of_lt_r (.inl rfl))
  case write => exact enters_writeFrom (has_of_lt_w (.inl rfl)) (enters_idle _)
  case transfer => exact enters_writeFrom (has_of_lt_w (.inr rfl)) (enters_readFrom (has_of_lt_r (.inr rfl)))
  case transferInPlace => exact enters_writeFrom (has_iff_lt_x rfl _).2 (enters_idle _)
  case flush => exact enters_idle _
  case writeByte => exact enters_startWrite (h rfl)
  case readByte => exact enters_startRead rfl

/-- After a WRITE_BYTE an operation is IDLE or goes on with a primitive that it has (R112-R114). -/
theorem Job.enters_afterWrite (h : j.has i .wb = true) : j.Enters (j.afterWrite i) := by
  rcases j with ⟨op, r, w, x⟩
  cases op
  case write => exact enters_writeFrom (has_of_lt_w (.inl rfl)) (enters_idle _)
  case transfer => exact enters_writeFrom (has_of_lt_w (.inr rfl)) (enters_readFrom (has_of_lt_r (.inr rfl)))
  case transferInPlace => exact enters_startRead ((has_iff_lt_x rfl _).2 ((has_iff_lt_x rfl _).1 h))
  case read | flush | writeByte | readByte => exact enters_idle _

/-- After a READ_BYTE an operation is IDLE or goes on with a primitive that it has (R111, R113, R114). -/
theorem Job.enters_afterRead (j : Job) (i : Nat) : j.Enters (j.afterRead i) := by
  rcases j with ⟨op, r, w, x⟩
  cases op
  case read => exact enters_readFrom (has_of_lt_r (.inl rfl))
  case transfer => exact enters_readFrom (has_of_lt_r (.inr rfl))
  case transferInPlace => exact enters_writeFrom (has_iff_lt_x rfl _).2 (enters_idle _)
  case write | flush | writeByte | readByte => exact enters_idle _

theorem Job.nextSeq_wbHoldHi (j : Job) (i : Nat) (k : Fin 8) :
    j.nextSeq ⟨i, k, .wbHoldHi⟩ = if k = 0 then j.afterWrite i else .pos ⟨i, k - 1, .wbDrive⟩ := rfl

theorem Job.nextSeq_rbSample (j : Job) (i : Nat) (k : Fin 8) :
    j.nextSeq ⟨i, k, .rbSample⟩ = if k = 0 then j.afterRead i else .pos ⟨i, k - 1, .rbClkLo⟩ := rfl

/-- After a phase the sequencer is in the same primitive, or enters another one, or is IDLE (R31). -/
theorem Job.nextSeq_same_or_enters (h : j.has p.i p.phase.prim = true) :
    (∃ q, j.nextSeq p = .pos q ∧ q.i = p.i ∧ q.phase.prim = p.phase.prim) ∨ j.Enters (j.nextSeq p) := by
  rcases p with ⟨i, k, ph⟩
  cases ph
  case wbHoldHi =>
    rw [Job.nextSeq_wbHoldHi]
    split
    · exact .inr (enters_afterWrite h)
    · exact .inl ⟨_, rfl, rfl, rfl⟩
  case rbSample =>
    rw [Job.nextSeq_rbSample]
    split
    · exact .inr (j.enters_afterRead i)
    · exact .inl ⟨_, rfl, rfl, rfl⟩
  all_goals exact .inl ⟨_, rfl, rfl, rfl⟩

/-- The position after a phase is one that the operation can take, and finds DATA in the direction of the phase's primitive. -/
theorem Job.nextSeq_takes {q : Pos} (h : j.has p.i p.phase.prim = true) (hq : j.nextSeq p = .pos q) :
    j.has q.i q.phase.prim = true ∧ ∀ d, q.phase.dirBefore = some d → d = p.phase.prim.dir := by
  obtain ⟨q', hq', hi, hprim⟩ | henters := Job.nextSeq_same_or_enters h
  · obtain rfl := Seq.pos.inj (hq.symm.trans hq')
    exact ⟨by rwa [hi, hprim], fun d hd => hprim ▸ Phase.dirBefore_eq hd⟩
  · obtain ⟨hdir, hhas⟩ := henters q hq
    exact ⟨hhas, fun d hd => by rw [hdir] at hd; cases hd⟩

end Positions

/-! ## How many micro-operations are left -/

/-- The micro-operations from the position to the end of its primitive (R97, R101, R107). -/
def Pos.primLeft (p : Pos) : Nat :=
  match p.phase with
  | .wbDir => 49
  | .wbDrive => 6 * p.k.val + 6
  | .wbSettle => 6 * p.k.val + 5
  | .wbClkLo => 6 * p.k.val + 4
  | .wbHoldLo => 6 * p.k.val + 3
  | .wbClkHi => 6 * p.k.val + 2
  | .wbHoldHi => 6 * p.k.val + 1
  | .rbDir => 41
  | .rbClkLo => 5 * p.k.val + 5
  | .rbHoldLo => 5 * p.k.val + 4
  | .rbClkHi => 5 * p.k.val + 3
  | .rbHoldHi => 5 * p.k.val + 2
  | .rbSample => 5 * p.k.val + 1

/-- The micro-operations of the operation after its WRITE_BYTE, or its READ_BYTE, of index `i` (R111-R114, R119). -/
def Job.leftAfter (j : Job) (i : Nat) (pr : Prim) : Nat :=
  match j.op, pr with
  | .write, .wb => 49 * (j.w.len - (i + 1))
  | .transfer, .wb => 49 * (j.w.len - (i + 1)) + 41 * j.r.len
  | .transferInPlace, .wb => 41 + 90 * (j.x.len - (i + 1))
  | .read, .rb | .transfer, .rb => 41 * (j.r.len - (i + 1))
  | .transferInPlace, .rb => 90 * (j.x.len - (i + 1))
  | .read, .wb | .write, .rb | .flush, _ | .writeByte, _ | .readByte, _ => 0

/-- The micro-operations of the operation from where the sequencer is (R118). -/
def Job.microLeft (j : Job) : Seq → Nat
  | .idle => 0
  | .pos p => p.primLeft + j.leftAfter p.i p.phase.prim

section Left

variable {j j' : Job} {i : Nat}

theorem Job.microLeft_congr (h : j.Held j') (a : Seq) : j'.microLeft a = j.microLeft a := by
  rcases j with ⟨op, r, w, x⟩
  rcases j' with ⟨op', r', w', x'⟩
  obtain ⟨rfl, rfl, hr, hx⟩ := h
  dsimp only at hr hx
  cases a
  case idle => rfl
  case pos p => simp [Job.microLeft, Job.leftAfter, hr, hx]

theorem Job.microLeft_idle (j : Job) : j.microLeft .idle = 0 := rfl

/-- Before a loop of WRITE_BYTEs are the micro-operations of its first one and those after it, or those after the loop. -/
theorem Job.microLeft_writeFrom (j : Job) (n i : Nat) (after : Seq) :
    j.microLeft (writeFrom n i after) = if i < n then 49 + j.leftAfter i .wb else j.microLeft after := by
  rw [writeFrom, apply_ite j.microLeft]; rfl

theorem Job.microLeft_readFrom (j : Job) (n i : Nat) :
    j.microLeft (readFrom n i) = if i < n then 41 + j.leftAfter i .rb else 0 := by
  rw [readFrom, apply_ite j.microLeft]; rfl

/-- From its start an operation has all its micro-operations left (R119). -/
theorem Job.microLeft_start (j : Job) : j.microLeft j.start = j.microCount := by
  rcases j with ⟨op, r, w, x⟩
  cases op
  case flush | writeByte | readByte => rfl
  all_goals
    simp only [Job.start, Job.microLeft_writeFrom, Job.microLeft_readFrom, Job.leftAfter, Job.microCount,
      Job.microLeft_idle]
    split_ifs <;> omega

theorem Job.microLeft_afterWrite (j : Job) (i : Nat) : j.microLeft (j.afterWrite i) = j.leftAfter i .wb := by
  rcases j with ⟨op, r, w, x⟩
  cases op
  case read | flush | writeByte | readByte | transferInPlace => rfl
  all_goals
    simp only [Job.afterWrite, Job.microLeft_writeFrom, Job.microLeft_readFrom, Job.leftAfter, Job.microLeft_idle]
    split_ifs <;> omega

theorem Job.microLeft_afterRead (j : Job) (i : Nat) : j.microLeft (j.afterRead i) = j.leftAfter i .rb := by
  rcases j with ⟨op, r, w, x⟩
  cases op
  case write | flush | writeByte | readByte => rfl
  all_goals
    simp only [Job.afterRead, Job.microLeft_writeFrom, Job.microLeft_readFrom, Job.leftAfter, Job.microLeft_idle]
    split_ifs <;> omega

/-- The bit position after one that is not the last. -/
theorem val_sub_one_add_one {k : Fin 8} (hk : k ≠ 0) : (k - 1).val + 1 = k.val := by
  rw [Fin.val_sub_one_of_ne_zero hk]
  exact Nat.sub_add_cancel (Fin.pos_iff_ne_zero.2 hk)

/-- Each phase leaves one micro-operation fewer (R97, R101, R118). -/
theorem Job.microLeft_nextSeq (j : Job) (p : Pos) : j.microLeft (j.nextSeq p) + 1 = j.microLeft (.pos p) := by
  rcases p with ⟨i, k, ph⟩
  cases ph
  case wbHoldHi =>
    rw [Job.nextSeq_wbHoldHi]
    split
    · next hk =>
      subst hk
      rw [Job.microLeft_afterWrite, Nat.add_comm]; rfl
    · next hk =>
      have hpred := val_sub_one_add_one hk
      simp only [Job.microLeft, Pos.primLeft, Phase.prim]
      omega
  case rbSample =>
    rw [Job.nextSeq_rbSample]
    split
    · next hk =>
      subst hk
      rw [Job.microLeft_afterRead, Nat.add_comm]; rfl
    · next hk =>
      have hpred := val_sub_one_add_one hk
      simp only [Job.microLeft, Pos.primLeft, Phase.prim]
      omega
  all_goals simp only [Job.nextSeq, Job.microLeft, Pos.primLeft, Phase.prim]; omega

end Left

/-! ## An operation in progress goes on to its end -/

/-- An operation is in progress without a fault, at a position that it can take, with DATA as that position finds it (R97,
R101, R133). -/
structure State.OnTrack (s : State) : Prop where
  live : s.live = true
  fault : s.fault = none
  active : s.active = true
  dir : ∀ p d, s.seq = .pos p → p.phase.dirBefore = some d → s.ddir = d
  has : ∀ p, s.seq = .pos p → s.job.has p.i p.phase.prim = true

section Progress

variable {s t u : State} {i : Instr} {j : Job} {p : Pos}

/-- A pin micro-operation in the mode that it needs has its effect, unless the driver panics (R81, R91). -/
theorem exec_pin_effect_or_panic (hp : i.format = .pin) (hl : s.live = true) (hf : s.fault = none)
    (hm : ∀ d, modeNeeded i = some d → s.ddir = d) :
    exec i s = .next (s.panicDrawn.raise (.driverPanic (encode i))) ∨
      exec i s = .next (pinEffect i (s.readyFor i)) := by
  by_cases hd : i = .delay
  · subst hd; exact .inr (exec_delay hl hf)
  · by_cases hpanic : s.cfg.driverMayPanic = true ∧ s.panicNow = true
    · exact .inl (exec_pin_panic hp hd hl hf hpanic.1 hpanic.2)
    · exact .inr (exec_pin_act hp ⟨hl, hf, fun hc => Bool.eq_false_iff.2 fun hn => hpanic ⟨hc, hn⟩⟩ hm)

/-- The effect of a micro-operation is no fault. -/
theorem pinEffect_readyFor_fault (s : State) (i : Instr) : (pinEffect i (s.readyFor i)).fault = s.fault := by
  rw [State.readyFor_eq, pinEffect_eq]

/-- The direction that a phase's micro-operation needs is the one that the phase finds (R91, R133). -/
theorem dirBefore_of_modeNeeded {d : Dir} (h : modeNeeded (phaseInstr p s) = some d) : p.phase.dirBefore = some d := by
  rcases p with ⟨i, k, ph⟩
  cases ph
  case wbDrive =>
    unfold phaseInstr at h
    cases hv : byteBit s.tx k <;> simp only [hv] at h <;> cases h <;> rfl
  case rbSample => cases h; rfl
  all_goals cases h

/-- Only the first phase of a primitive turns DATA (R106). -/
theorem phaseInstr_of_dirBefore {d : Dir} (h : p.phase.dirBefore = some d) :
    phaseInstr p s ≠ .dataSetAsOutput ∧ phaseInstr p s ≠ .dataSetAsInput := by
  rcases p with ⟨i, k, ph⟩
  cases ph <;> cases h
  case wbDrive => unfold phaseInstr; cases byteBit s.tx k <;> simp
  all_goals simp [phaseInstr]

/-- After a phase's micro-operation DATA has the direction of the phase's primitive (R82, R83, R97, R101). -/
theorem pinEffect_phase_ddir (h : ∀ d, p.phase.dirBefore = some d → s.ddir = d) :
    (pinEffect (phaseInstr p u) s).ddir = p.phase.prim.dir := by
  cases hd : p.phase.dirBefore with
  | some d =>
    obtain ⟨ho, hi⟩ := phaseInstr_of_dirBefore (s := u) hd
    rw [pinEffect_ddir ho hi, h d hd, Phase.dirBefore_eq hd]
  | none =>
    rcases p with ⟨i, k, ph⟩
    cases ph <;> cases hd <;> rfl

/-- The register transfer before a phase answers where the operation has the phase's primitive (R47, R97). -/
theorem prepared_of_has (h : s.job.has p.i p.phase.prim = true) : ∃ u, s.prepared p = some u := by
  rcases p with ⟨i, k, ph⟩
  cases ph
  case wbDir =>
    obtain ⟨b, hb⟩ := Option.isSome_iff_exists.1 h
    exact ⟨_, Option.map_eq_some_iff.2 ⟨b, hb, rfl⟩⟩
  all_goals exact ⟨_, rfl⟩

/-- What follows a phase's micro-operation answers where the operation has the phase's primitive (R47, R51). -/
theorem finishPhase_of_has (h : s.job.has p.i p.phase.prim = true) : ∃ t, finishPhase p s = .next t := by
  rcases p with ⟨i, k, ph⟩
  cases ph
  case rbSample =>
    by_cases hk : k = 0
    · obtain ⟨j, hj⟩ := Option.isSome_iff_exists.1 (Job.store_isSome h (orLevel s.rx k s.ret))
      exact ⟨_, finishSample_byte hk hj⟩
    · exact ⟨_, finishSample_bit hk⟩
  all_goals exact ⟨_, rfl⟩

/-- The micro-operation of a phase that finds DATA as it needs it leaves DATA as its primitive has it, without a fault, unless
the driver panics (R133). -/
theorem exec_phaseInstr (hl : u.live = true) (hf : u.fault = none)
    (hdir : ∀ d, p.phase.dirBefore = some d → u.ddir = d) : ∃ v, exec (phaseInstr p u) u = .next v ∧
      ((∃ w, v.fault = some (.driverPanic w)) ∨ (v.fault = none ∧ v.job = u.job ∧ v.ddir = p.phase.prim.dir)) := by
  obtain hv | hv := exec_pin_effect_or_panic (phaseInstr_pin p u) hl hf fun d hd => hdir d (dirBefore_of_modeNeeded hd)
  · exact ⟨_, hv, .inl ⟨_, rfl⟩⟩
  · refine ⟨_, hv, .inr ⟨(pinEffect_readyFor_fault u _).trans hf, (exec_pin_frame (phaseInstr_pin p u) hv).job,
      pinEffect_phase_ddir ?_⟩⟩
    rw [State.readyFor_eq]
    exact hdir

/-- A phase of an operation on its track neither refuses nor finds the wrong mode: the driver panics, or the phase ends without
a fault and with DATA as its primitive has it (R118, R133). -/
theorem State.OnTrack.runPhase (h : s.OnTrack) (hq : s.seq = .pos p) : ∃ t, runPhase p s = .next t ∧
    ((∃ w, t.fault = some (.driverPanic w)) ∨ (t.fault = none ∧ t.ddir = p.phase.prim.dir)) := by
  obtain ⟨u, hu⟩ := prepared_of_has (h.has p hq)
  have heq : Machine.runPhase p s = andThen (exec (phaseInstr p u) u) (finishPhase p) := by rw [runPhase_eq, hu]
  obtain ⟨tx, k, rfl, -⟩ := prepared_next hu
  obtain ⟨v, hv, ⟨w, hw⟩ | ⟨hvf, hjob, hddir⟩⟩ :=
    exec_phaseInstr (u := { s with tx := tx, k := k }) h.live h.fault fun d => h.dir p d hq
  · exact ⟨v, heq.trans (by simp [hv, andThen, hw]), .inl ⟨w, hw⟩⟩
  · obtain ⟨t, ht⟩ := finishPhase_of_has (hjob.symm ▸ h.has p hq)
    refine ⟨t, heq.trans ((andThen_act hv hvf).trans ht), .inr ?_⟩
    obtain ⟨rx, j, rfl, -⟩ := finishPhase_next ht
    exact ⟨hvf, hddir⟩

/-- A step of an operation on its track leaves it there with one event more and one micro-operation fewer to come, unless it
ends the operation with no event: completed, or with a panic of the driver (R118, R133). -/
theorem State.OnTrack.tick (h : s.OnTrack) : ∃ t, tick s = .next t ∧
    (((t.active = false ∨ ∃ w, t.fault = some (.driverPanic w)) ∧ t.trace = s.trace) ∨
      (t.OnTrack ∧ t.trace.length = s.trace.length + 1 ∧ s.job.microLeft s.seq = t.job.microLeft t.seq + 1)) := by
  cases hq : s.seq with
  | idle => exact ⟨s.complete, by simp [Machine.tick, hq], .inl ⟨.inl s.active_complete, rfl⟩⟩
  | pos p =>
    obtain ⟨t, ht, hend⟩ := h.runPhase hq
    have frame := runPhase_frame ht
    refine ⟨t, (tick_pos hq).trans ht, ?_⟩
    obtain ⟨hf, hseq, -, _, _, -, htr, -⟩ | ⟨hf, htr, -⟩ := frame.outcome
    · obtain ⟨w, hw⟩ | ⟨-, hddir⟩ := hend
      · rw [hf] at hw; cases hw
      have hhas : t.job.has p.i p.phase.prim = true := (Job.has_congr frame.held _ _).trans (h.has p hq)
      have hactive : t.active = true := by rw [State.active, frame.busy, frame.held.op]; exact h.active
      have htakes := fun q hq' => Job.nextSeq_takes (q := q) hhas (hseq.symm.trans hq')
      refine .inr ⟨⟨frame.live.trans h.live, hf, hactive, fun q d hq' hd => ?_, fun q hq' => (htakes q hq').1⟩, ?_, ?_⟩
      · rw [hddir, (htakes q hq').2 d hd]
      · rw [htr, List.length_append, List.length_singleton]
      · rw [hseq, Job.microLeft_nextSeq, Job.microLeft_congr frame.held]
    · obtain hw | ⟨hn, -⟩ := hend
      · exact .inl ⟨.inr hw, htr⟩
      · rw [hn] at hf; cases hf

/-- An operation on its track runs to its completion or to a panic of the driver (R118). -/
theorem State.OnTrack.runJob {n : Nat} (h : s.OnTrack) (hn : s.job.microLeft s.seq < n) :
    ∃ t, runJob n s = .next t ∧ (t.active = false ∨ ∃ w, t.fault = some (.driverPanic w)) ∧
      t.trace.length ≤ s.trace.length + s.job.microLeft s.seq := by
  induction n generalizing s with
  | zero => omega
  | succ n ih =>
    obtain ⟨t, ht, ⟨hend, htr⟩ | ⟨htrack, htr, hleft⟩⟩ := h.tick
    · have hstop : (t.active && t.fault.isNone) = false := by
        obtain ha | ⟨w, hw⟩ := hend
        · simp [ha]
        · simp [hw]
      exact ⟨t, runJob_succ_of_end ht hstop n, hend, by rw [htr]; omega⟩
    · obtain ⟨u, hu, hend, hutr⟩ := ih htrack (by omega)
      exact ⟨u, (runJob_succ_of_go ht (by simp [htrack.active, htrack.fault]) n).trans hu, hend, by omega⟩

/-- The issue of an operation puts it on its track (R117). -/
theorem State.OnTrack.of_issue (hl : s.live = true) (hf : s.fault = none) (hj : jobOf i = some j) :
    (s.issue j).OnTrack := by
  have hwrite : j.op = .writeByte → j.has 0 .wb = true := by
    cases i <;> cases hj
    case writeByte b => exact fun _ => rfl
    all_goals nofun
  have henters := Job.enters_start hwrite
  exact ⟨hl, hf, s.active_issue j, fun p d hp hd => (by rw [(henters p hp).1] at hd; cases hd), fun p hp =>
    (henters p hp).2⟩

/-- An operation issued on an idle engine ends within its micro-operations (R118). -/
theorem runOp_ends (hl : s.live = true) (hf : s.fault = none) (ha : s.active = false) (hj : jobOf i = some j) :
    ∃ t, runOp j s = .next t ∧ (t.active = false ∨ ∃ w, t.fault = some (.driverPanic w)) ∧
      t.trace.length ≤ s.trace.length + j.microCount := by
  have hleft : (s.issue j).job.microLeft (s.issue j).seq = j.microCount := j.microLeft_start
  have ends := (State.OnTrack.of_issue hl hf hj).runJob (Nat.lt_succ_of_le hleft.le)
  rwa [hleft, ← runOp_idle hl hf ha] at ends

end Progress

/-- Settles O34: the port refuses the operation's length, or the operation runs to its end. -/
theorem operationsEnd : Obligations.OperationsEnd := by
  intro i j s hj hl hf ha
  cases hb : busInstr i
  case false =>
    rw [exec_primitive hb hj]
    exact runOp_ends hl hf ha hj
  case true =>
    rw [exec_bus hb hj, runCommand, whenRunning_run hl hf, ha, if_neg (by simp)]
    split
    · exact runOp_ends hl hf ha hj
    · exact ⟨_, rfl, .inl ha, Nat.le_add_right ..⟩

end Sys2Proof.Machine
end

section
/-! The discipline of an engine whose consumer presents no micro-program (spec 41 R97, R101; 60 R133; 70 R152): every phase
leaves the lines as the next one needs them, so no step raises a mode violation, and with commands only none stops. -/

namespace Sys2Proof.Machine

/-! ## The lines from one phase to the next -/

/-- The level of CLK that the sequencer finds: high at IDLE, and at a position what its phase needs (R97, R101, R152). -/
def Seq.clkBefore : Seq → Level
  | .idle => true
  | .pos p => p.phase.clkBefore

section Lines

variable {j : Job} {p q : Pos} {s t : State} {l : Lines} {lv : Option Level} {a : Seq}

/-- Only the first phase of a primitive takes either direction of DATA; it finds CLK high, no bit driven (R97, R101). -/
theorem Phase.of_dirBefore_eq_none {ph : Phase} (h : ph.dirBefore = none) : ph.clkBefore = true ∧ ph.driven = false := by
  cases ph <;> cases h <;> exact ⟨rfl, rfl⟩

/-- CLK is high between two primitives, and before and after an operation (R152). -/
theorem Job.Enters.clkBefore (h : j.Enters a) : a.clkBefore = true := by
  cases a with
  | idle => rfl
  | pos q => exact (Phase.of_dirBefore_eq_none (h q rfl).1).1

/-- No bit is driven yet where a primitive begins (R97). -/
theorem Job.Enters.not_driven (h : j.Enters a) (hq : a = .pos q) : q.phase.driven = false :=
  (Phase.of_dirBefore_eq_none (h q hq).1).2

/-- A phase's micro-operation leaves CLK as the next phase finds it (R97, R101, R152). -/
theorem lines_after_phase_clk (hhas : j.has p.i p.phase.prim = true) (hclk : l.clk = p.phase.clkBefore) :
    (l.after ⟨encode (phaseInstr p s), lv⟩).clk = (j.nextSeq p).clkBefore := by
  rcases p with ⟨i, k, ph⟩
  cases ph
  case wbDrive =>
    unfold phaseInstr
    cases byteBit s.tx k <;> exact hclk
  case wbHoldHi =>
    rw [Job.nextSeq_wbHoldHi]
    split
    · rw [(Job.enters_afterWrite hhas).clkBefore]; exact hclk
    · exact hclk
  case rbSample =>
    rw [Job.nextSeq_rbSample]
    split
    · rw [(j.enters_afterRead i).clkBefore]; exact hclk
    · exact hclk
  case wbClkLo | wbClkHi | rbClkLo | rbClkHi => rfl
  case wbDir | wbSettle | wbHoldLo | rbDir | rbHoldLo | rbHoldHi => exact hclk

/-- Only DRIVE and the phases of the same bit after it lead to a phase that finds its bit driven (R97). -/
theorem Job.driven_of_nextSeq (hhas : j.has p.i p.phase.prim = true) (hq : j.nextSeq p = .pos q)
    (hd : q.phase.driven = true) : q.k = p.k ∧ (p.phase = .wbDrive ∨ p.phase.driven = true) := by
  rcases p with ⟨i, k, ph⟩
  cases ph
  case wbHoldHi =>
    rw [Job.nextSeq_wbHoldHi] at hq
    split at hq
    · rw [(Job.enters_afterWrite hhas).not_driven hq] at hd; cases hd
    · cases hq; cases hd
  case rbSample =>
    rw [Job.nextSeq_rbSample] at hq
    split at hq
    · rw [(j.enters_afterRead i).not_driven hq] at hd; cases hd
    · cases hq; cases hd
  case wbDrive => cases hq; exact ⟨rfl, .inl rfl⟩
  case wbSettle | wbClkLo | wbHoldLo | wbClkHi => cases hq; exact ⟨rfl, .inr rfl⟩
  case wbDir | rbDir | rbClkLo | rbHoldLo | rbClkHi | rbHoldHi => cases hq; cases hd

/-- After DRIVE, and after every phase that finds the bit driven, the latch holds the bit (R97, R104). -/
theorem lines_after_phase_dout (hp : p.phase = .wbDrive ∨ p.phase.driven = true)
    (hdout : p.phase.driven = true → l.dout = Latch.ofLevel (byteBit s.tx p.k)) :
    (l.after ⟨encode (phaseInstr p s), lv⟩).dout = Latch.ofLevel (byteBit s.tx p.k) := by
  rcases p with ⟨i, k, ph⟩
  cases ph
  case wbDrive =>
    unfold phaseInstr
    cases byteBit s.tx k <;> rfl
  case wbSettle | wbClkLo | wbHoldLo | wbClkHi | wbHoldHi => exact hdout rfl
  case wbDir | rbDir | rbClkLo | rbHoldLo | rbClkHi | rbHoldHi | rbSample => obtain h | h := hp <;> cases h

/-- A phase that raises no fault shows the lines after its micro-operation's event (R31, R34). -/
theorem runPhase_lines (h : runPhase p s = .next t) (hf : t.fault = none) :
    ∃ lv, t.lines = s.lines.after ⟨encode (phaseInstr p s), lv⟩ := by
  obtain ⟨-, -, -, i, lv, -, htr, hln⟩ | ⟨hn, -⟩ := (runPhase_frame h).outcome
  · have hev := List.append_cancel_left (htr.symm.trans (runPhase_trace h hf))
    exact ⟨_, hln.trans (congrArg s.lines.after (List.singleton_inj.1 hev))⟩
  · rw [hf] at hn; cases hn

/-- The fault and the byte being written are those that a phase's micro-operation leaves (R31). -/
theorem runPhase_exec (h : runPhase p s = .next t) :
    ∃ u v, s.prepared p = some u ∧ exec (phaseInstr p u) u = .next v ∧ t.fault = v.fault ∧ t.tx = v.tx := by
  obtain ⟨u, v, hu, hv, ⟨-, rfl⟩ | ⟨-, h⟩⟩ := runPhase_next h
  · exact ⟨u, t, hu, hv, rfl, rfl⟩
  · obtain ⟨rx, j, rfl, -⟩ := finishPhase_next h
    exact ⟨u, v, hu, hv, rfl, rfl⟩

/-- Only the first phase of a WRITE_BYTE takes a byte to be written (R97). -/
theorem runPhase_tx (h : runPhase p s = .next t) (hp : p.phase ≠ .wbDir) : t.tx = s.tx := by
  obtain ⟨u, v, hu, hv, -, htx⟩ := runPhase_exec h
  rw [htx, (exec_pin_frame (phaseInstr_pin p u) hv).tx]
  rcases p with ⟨i, k, ph⟩
  cases ph
  case wbDir => exact absurd rfl hp
  all_goals cases hu; rfl

/-- A phase runs on an engine that exists (R153). -/
theorem runPhase_live (h : runPhase p s = .next t) : s.live = true := by
  obtain ⟨u, v, hu, hv, -⟩ := runPhase_exec h
  obtain ⟨hl, -⟩ := exec_pin_next (phaseInstr_pin p u) hv
  obtain ⟨tx, k, rfl, -⟩ := prepared_next hu
  exact hl

end Lines

/-! ## Every step keeps the discipline -/

section Discipline

variable {s t : State} {p : Pos} {j : Job}

/-- The only fault that a phase of an operation on its track raises is an admitted panic (R133, R134). -/
theorem State.OnTrack.runPhase_fault {r : FaultReason} (h : s.OnTrack) (hq : s.seq = .pos p)
    (ht : Machine.runPhase p s = .next t) (hr : t.fault = some r) :
    s.cfg.driverMayPanic = true ∧ ∃ w, r = .driverPanic w := by
  obtain ⟨u, v, hu, hv, hfv, -⟩ := runPhase_exec ht
  obtain ⟨tx, k, rfl, -⟩ := prepared_next hu
  rw [hfv] at hr
  obtain ⟨-, hf, ⟨-, hc, rfl⟩ | ⟨d, hm, hd, -⟩ | ⟨-, rfl⟩⟩ := exec_pin_next (phaseInstr_pin p _) hv
  · exact ⟨hc, _, (Option.some.inj hr).symm⟩
  · exact absurd (h.dir p d hq (dirBefore_of_modeNeeded hm)) hd
  · rw [pinEffect_readyFor_fault, hf] at hr; cases hr

/-- A phase neither ends the operation in progress nor makes a primitive of a command (R117; log 5). -/
theorem PhaseFrame.active (frame : PhaseFrame p s t) : t.active = s.active := by
  rw [State.active, frame.busy, frame.held.op, State.active]

/-- A phase of an operation on its track that raises no fault leaves the operation on its track (R118, R133). -/
theorem State.OnTrack.phase (h : s.OnTrack) (hq : s.seq = .pos p) (ht : Machine.runPhase p s = .next t)
    (hf : t.fault = none) : t.OnTrack := by
  have ha : t.active = true := (runPhase_frame ht).active.trans h.active
  obtain ⟨t', ht', hend⟩ := h.tick
  obtain rfl : t = t' := Host.Outcome.next.inj (ht.symm.trans ((tick_pos hq).symm.trans ht'))
  obtain ⟨hn | ⟨w, hw⟩, -⟩ | ⟨htrack, -⟩ := hend
  · rw [ha] at hn; cases hn
  · rw [hf] at hw; cases hw
  · exact htrack

/-- An operation on its track with CLK and the latch as its position needs them is disciplined (R97, R101). -/
theorem State.OnTrack.disciplined (h : s.OnTrack) (hbusy : s.busy = true → s.job.op.internal = false)
    (hclk : s.clk = s.seq.clkBefore)
    (hdout : ∀ p, s.seq = .pos p → p.phase.driven = true → s.dout = Latch.ofLevel (byteBit s.tx p.k))
    (hprog : ∀ q ∈ s.program, q.byConsumer = true) : s.Disciplined where
  onlyPanics r hr := by rw [h.fault] at hr; cases hr
  busyCommand := hbusy
  idle ha := by rw [h.active] at ha; cases ha
  clkHigh _ _ hq := by rw [hclk, hq]; rfl
  atPos p hq := ⟨by rw [hclk, hq]; rfl, fun d => h.dir p d hq, h.has p hq, hdout p hq⟩
  consumer := hprog

/-- A disciplined operation in progress is on its track (R133). -/
theorem State.Disciplined.onTrack (h : s.Disciplined) (hl : s.live = true) (hf : s.fault = none)
    (ha : s.active = true) : s.OnTrack where
  live := hl
  fault := hf
  active := ha
  dir p d hq := by
    obtain ⟨-, hdir, -⟩ := h.atPos p hq
    exact hdir d
  has p hq := by
    obtain ⟨-, -, hhas, -⟩ := h.atPos p hq
    exact hhas

/-- A position needs of the state only the lines, the job, and the byte being written once its bit is driven. -/
theorem State.AtPos.congr (h : s.AtPos p) (hln : t.lines = s.lines) (hj : t.job = s.job)
    (htx : p.phase.driven = true → t.tx = s.tx) : t.AtPos p := by
  obtain ⟨hclk, hdir, hhas, hdout⟩ := h
  obtain ⟨hc, hd, ho⟩ := Lines.mk.inj hln
  exact ⟨hc.trans hclk, fun d hpd => hd.trans (hdir d hpd), hj ▸ hhas, fun hp => by rw [ho, htx hp, hdout hp]⟩

/-- A phase of a disciplined operation without a fault leaves CLK, DATA and the latch as the next position needs them (R97,
R101). -/
theorem State.Disciplined.phase_of_no_fault (h : s.Disciplined) (htrack : s.OnTrack) (hq : s.seq = .pos p)
    (ht : runPhase p s = .next t) (hf : t.fault = none) (hseq : t.seq = t.job.nextSeq p) : t.Disciplined := by
  have frame := runPhase_frame ht
  obtain ⟨hclk, -, hhas, hdout⟩ := h.atPos p hq
  obtain ⟨lv, hln⟩ := runPhase_lines ht hf
  have hhas' : t.job.has p.i p.phase.prim = true := (Job.has_congr frame.held _ _).trans hhas
  refine (htrack.phase hq ht hf).disciplined ?_ ?_ (fun q hq' hd => ?_) (frame.program ▸ h.consumer)
  · rw [frame.busy, frame.held.op]
    exact h.busyCommand
  · rw [hseq]
    exact (congrArg Lines.clk hln).trans (lines_after_phase_clk hhas' hclk)
  · obtain ⟨hk, hp⟩ := Job.driven_of_nextSeq hhas' (hseq.symm.trans hq') hd
    have hne : p.phase ≠ .wbDir := by intro hw; rw [hw] at hp; obtain hp | hp := hp <;> cases hp
    rw [runPhase_tx ht hne, hk]
    exact (congrArg Lines.dout hln).trans (lines_after_phase_dout hp hdout)

/-- A phase of a disciplined operation that raises a fault raises an admitted panic and stays at its position with the lines
as they were (R132, R134). -/
theorem State.Disciplined.phase_of_fault (h : s.Disciplined) (htrack : s.OnTrack) (hq : s.seq = .pos p)
    (ht : runPhase p s = .next t) (hf : t.fault.isSome = true) (hln : t.lines = s.lines) (hseq : t.seq = s.seq)
    (hj : t.job = s.job) : t.Disciplined where
  onlyPanics r hr := (runPhase_frame ht).cfg ▸ htrack.runPhase_fault hq ht hr
  busyCommand := by rw [(runPhase_frame ht).busy, hj]; exact h.busyCommand
  idle ha := hseq.trans (h.idle ((runPhase_frame ht).active.symm.trans ha))
  clkHigh _ hn := by rw [hn] at hf; cases hf
  atPos p' hq' := by
    obtain rfl : p = p' := Seq.pos.inj (hq.symm.trans (hseq.symm.trans hq'))
    refine (h.atPos p hq).congr hln hj fun hd => runPhase_tx ht ?_
    intro hw; rw [hw] at hd; cases hd
  consumer := (runPhase_frame ht).program ▸ h.consumer

/-- A phase keeps the discipline, with a fault and without one (R132, R133). -/
theorem State.Disciplined.phase (h : s.Disciplined) (hf : s.fault = none) (ha : s.active = true) (hq : s.seq = .pos p)
    (ht : runPhase p s = .next t) : t.Disciplined := by
  have htrack := h.onTrack (runPhase_live ht) hf ha
  obtain ⟨hnone, hseq, -⟩ | ⟨hsome, -, hln, hseq, hj⟩ := (runPhase_frame ht).outcome
  · exact h.phase_of_no_fault htrack hq ht hnone hseq
  · exact h.phase_of_fault htrack hq ht hsome hln hseq hj

/-- The completion of an operation finds CLK high (R117, R152). -/
theorem State.Disciplined.complete (h : s.Disciplined) (hq : s.seq = .idle) : s.complete.Disciplined where
  onlyPanics := h.onlyPanics
  busyCommand := nofun
  idle _ := rfl
  clkHigh hl hf _ := h.clkHigh hl hf hq
  atPos _ hp := nomatch hp
  consumer := h.consumer

/-- The discipline asks of the consumer's plan only that it holds no micro-program. -/
theorem State.Disciplined.withProgram {rest : List Request} (h : s.Disciplined)
    (hrest : ∀ q ∈ rest, q.byConsumer = true) : State.Disciplined { s with program := rest } :=
  ⟨h.onlyPanics, h.busyCommand, h.idle, h.clkHigh, h.atPos, hrest⟩

/-- The issue of a command on a disciplined idle engine finds CLK high (R117, R152). -/
theorem State.Disciplined.issue {i : Instr} (h : s.Disciplined) (hl : s.live = true) (hf : s.fault = none)
    (ha : s.active = false) (hj : jobOf i = some j) (hint : j.op.internal = false) : (s.issue j).Disciplined := by
  have henters : j.Enters j.start := Job.enters_start fun hop => by rw [hop] at hint; cases hint
  refine (State.OnTrack.of_issue hl hf hj).disciplined (fun _ => hint) ?_ (fun p hq hd => ?_) h.consumer
  · exact (h.clkHigh hl hf (h.idle ha)).trans henters.clkBefore.symm
  · rw [henters.not_driven hq] at hd; cases hd

/-- Construction ends with CLK high on an idle engine, or with an admitted panic (R150, R152). -/
theorem construct_disciplined (hprog : ∀ q ∈ s.program, q.byConsumer = true)
    (h : exec .clkSetHigh s.blank = .next t) : t.Disciplined := by
  obtain ⟨-, -, ⟨-, hc, rfl⟩ | ⟨d, hm, -⟩ | ⟨-, rfl⟩⟩ := exec_pin_next rfl h
  · exact ⟨fun r hr => ⟨hc, _, (Option.some.inj hr).symm⟩, nofun, fun _ => rfl, nofun, nofun, hprog⟩
  · cases hm
  · exact ⟨nofun, nofun, fun _ => rfl, fun _ _ _ => rfl, nofun, hprog⟩

/-- A move of the consumer keeps an idle engine disciplined (R117, R150, R153). -/
theorem Served.disciplined {q : Request} (hs : Served s q t) (hq : q.byConsumer = true) (h : s.Disciplined)
    (ha : s.active = false) : t.Disciplined := by
  cases hs with
  | construct _ he => exact construct_disciplined h.consumer he
  | drop => exact ⟨h.onlyPanics, h.busyCommand, h.idle, nofun, h.atPos, h.consumer⟩
  | refuse => exact ⟨h.onlyPanics, h.busyCommand, h.idle, h.clkHigh, h.atPos, h.consumer⟩
  | issue hl hf hj hcmd =>
    obtain ⟨w, o, rfl, -, hint, -⟩ | ⟨b, rfl, -⟩ | ⟨rfl, -⟩ := hcmd
    · exact h.issue hl hf ha hj hint
    all_goals cases hq
  | micro => cases hq

end Discipline

/-- Settles O50: a phase leaves the lines as the next one needs them, a completion finds CLK high, and so does an issue. -/
theorem stepKeepsDiscipline : Obligations.StepKeepsDiscipline := by
  intro s t hs h
  obtain ⟨hf, ⟨ha, h⟩ | ⟨ha, ⟨-, rfl⟩ | ⟨q, rest, hp, h⟩⟩⟩ := step_next h
  · obtain ⟨hq, rfl⟩ | ⟨p, hq, h⟩ := tick_next h
    · exact hs.complete hq
    · exact hs.phase hf ha hq h
  · exact hs
  · obtain ⟨hq, hrest⟩ := List.forall_mem_cons.1 (hp ▸ hs.consumer)
    exact (serveRequest_next h).disciplined hq (hs.withProgram hrest) ha

/-! ## With commands only no step stops -/

section Commands

variable {s t : State}

/-- A disciplined engine whose driver may not panic has no fault (R133, R134). -/
theorem State.Disciplined.fault_eq_none (h : s.Disciplined) (hc : s.cfg.driverMayPanic = false) : s.fault = none := by
  cases hf : s.fault with
  | none => rfl
  | some r =>
    obtain ⟨hpanic, -⟩ := h.onlyPanics r hf
    rw [hc] at hpanic; cases hpanic

/-- A step of an operation in progress neither drops nor constructs an engine (R117). -/
theorem tick_live (h : tick s = .next t) : t.live = s.live := by
  obtain ⟨-, rfl⟩ | ⟨p, -, h⟩ := tick_next h
  · rfl
  · exact (runPhase_frame h).live

/-- The command port answers every word, and the engine and the consumer's plan stay (R71, R117). -/
theorem issueCommand_answers (w : Byte) (o : Operands) (s : State) :
    ∃ t, issueCommand w o s = .next t ∧ t.live = s.live ∧ t.program = s.program := by
  unfold issueCommand
  split
  · exact ⟨_, rfl, rfl, rfl⟩
  · split
    · exact ⟨_, rfl, rfl, rfl⟩
    · split <;> exact ⟨_, rfl, rfl, rfl⟩

/-- An idle engine with nothing presented waits (R151). -/
theorem step_of_nothing_presented (hf : s.fault = none) (ha : s.active = false) (hp : s.program = []) :
    step s = .next s := by
  simp [step, stepOnce, serve, hf, ha, hp]

/-- A disciplined engine with commands only takes a step, which leaves it in existence with commands only (R117, R118). -/
theorem State.Disciplined.exists_step (h : s.Disciplined) (hl : s.live = true) (hf : s.fault = none)
    (hcmd : ∀ q ∈ s.program, ∃ w o, q = .command w o) :
    ∃ t, step s = .next t ∧ t.live = true ∧ ∀ q ∈ t.program, ∃ w o, q = .command w o := by
  cases ha : s.active with
  | true =>
    obtain ⟨t, ht, -⟩ := (h.onTrack hl hf ha).tick
    exact ⟨t, (step_tick hf ha).trans ht, (tick_live ht).trans hl, tick_program ht ▸ hcmd⟩
  | false =>
    cases hp : s.program with
    | nil => exact ⟨s, step_of_nothing_presented hf ha hp, hl, hcmd⟩
    | cons q rest =>
      obtain ⟨⟨w, o, rfl⟩, hrest⟩ := List.forall_mem_cons.1 (hp ▸ hcmd)
      obtain ⟨t, ht, hlive, hprog⟩ := issueCommand_answers w o { s with program := rest }
      exact ⟨t, (step_command hl hf ha hp).trans ht, hlive.trans hl, hprog ▸ hrest⟩

end Commands

/-- Settles O52: a disciplined engine has a step, which keeps the discipline and so leaves no fault where panics are not
admitted. -/
theorem commandsNeverStop : Obligations.CommandsNeverStop := by
  intro s h hl hc hf hcmd
  obtain ⟨t, ht, hlive, hprog⟩ := h.exists_step hl hf hcmd
  have hcfg : t.cfg.driverMayPanic = false := by rw [stepKeepsConfig s t ht, hc]
  have hd : t.Disciplined := stepKeepsDiscipline s t h ht
  exact ⟨t, ht, hd.fault_eq_none hcfg, hlive, hcfg, hd, hprog⟩

end Sys2Proof.Machine
end

section
/-! The timing view (spec 70 R164-R166): the least time of a run of events in parts and as a count of delays and pin
micro-operations, what a timed trace says of the times of its events, and the intervals within a byte, bit by bit. -/

namespace Sys2Proof.Machine

variable {cfg : Config} {d : Durations} {start : ℚ} {ts : List ℚ}

/-! ## The least time of a run of events -/

section Least

theorem Durations.least_evDelay (cfg : Config) (d : Durations) : d.least cfg evDelay = d.tDelay cfg := rfl

theorem Durations.least_of_pin {e : PinEvent} (h : e.w ≠ encode .delay) : d.least cfg e = d.tPin := if_neg h

@[simp] theorem Durations.total_nil (cfg : Config) (d : Durations) : d.total cfg [] = 0 := rfl

@[simp] theorem Durations.total_cons (cfg : Config) (d : Durations) (e : PinEvent) (tr : List PinEvent) :
    d.total cfg (e :: tr) = d.least cfg e + d.total cfg tr := by
  simp [Durations.total]

theorem Durations.total_append (cfg : Config) (d : Durations) (tr tr' : List PinEvent) :
    d.total cfg (tr ++ tr') = d.total cfg tr + d.total cfg tr' := by
  simp [Durations.total]

/-- The least time of a run of events is t_D for each DELAY and T_PIN for every other event (R166). -/
theorem Durations.total_eq (cfg : Config) (d : Durations) (tr : List PinEvent) :
    d.total cfg tr = countDelays tr * d.tDelay cfg + (tr.length - countDelays tr : ℚ) * d.tPin := by
  induction tr with
  | nil => simp [countDelays]
  | cons e tr ih =>
    rw [total_cons, ih, List.length_cons]
    by_cases he : e.w = encode .delay
    · have hcount : countDelays (e :: tr) = countDelays tr + 1 := List.countP_cons_of_pos (by simp [he])
      rw [hcount, least, if_pos he]
      push_cast
      ring
    · have hcount : countDelays (e :: tr) = countDelays tr := List.countP_cons_of_neg (by simp [he])
      rw [hcount, least_of_pin he]
      push_cast
      ring

/-- The least time of a trace follows from its counts (R107, R166). -/
theorem Tally.total_eq {l : Lines} {tr : List PinEvent} {events pulses delays directions : Nat}
    (h : Tally l tr events pulses delays directions) :
    d.total cfg tr = delays * d.tDelay cfg + (events - delays : ℚ) * d.tPin := by
  obtain ⟨-, hevents, -, -, hdelays, -⟩ := h
  rw [Durations.total_eq, hevents, hdelays]

end Least

/-! ## The times of a timed trace -/

section Times

variable {tr : List PinEvent}

/-- A timed trace with a first event has a first time, at least that event's least duration after the start (R164). -/
theorem TimedFrom.cons_inv {e : PinEvent} (h : TimedFrom cfg d start (e :: tr) ts) :
    ∃ t ts', ts = t :: ts' ∧ start + d.least cfg e ≤ t ∧ TimedFrom cfg d t tr ts' := by
  cases ts with
  | nil => exact h.elim
  | cons t ts' =>
    obtain ⟨-, hle, htail⟩ := h
    exact ⟨t, ts', rfl, hle, htail⟩

theorem TimedFrom.nil_inv (h : TimedFrom cfg d start [] ts) : ts = [] := by
  cases ts with
  | nil => rfl
  | cons t ts' => exact h.elim

theorem TimedFrom.length_eq (h : TimedFrom cfg d start tr ts) : ts.length = tr.length := by
  induction tr generalizing start ts with
  | nil => rw [h.nil_inv]; rfl
  | cons e tr ih =>
    obtain ⟨t, ts', rfl, -, htail⟩ := h.cons_inv
    rw [List.length_cons, List.length_cons, ih htail]

/-- Times never go back, since no event takes less than no time (R10, R164). -/
theorem TimedFrom.pairwise_le (h : TimedFrom cfg d start tr ts) : (start :: ts).Pairwise (· ≤ ·) := by
  rw [← List.isChain_iff_pairwise]
  induction tr generalizing start ts with
  | nil => rw [h.nil_inv]; exact .singleton _
  | cons e tr ih =>
    obtain ⟨t, ts', rfl, hle, htail⟩ := h.cons_inv
    exact .cons_cons ((le_add_of_nonneg_right (d.least_nonneg cfg e)).trans hle) (ih htail)

/-- A run of events ends at least its least time after it starts, an empty one where it starts (R166). -/
theorem TimedFrom.total_le_getLastD (h : TimedFrom cfg d start tr ts) :
    start + d.total cfg tr ≤ ts.getLastD start := by
  induction tr generalizing start ts with
  | nil => rw [h.nil_inv]; simp
  | cons e tr ih =>
    obtain ⟨t, ts', rfl, hle, htail⟩ := h.cons_inv
    rw [Durations.total_cons, ← add_assoc, List.getLastD_cons]
    exact (add_le_add_left hle _).trans (ih htail)

theorem TimedFrom.total_le_last {last : ℚ} (h : TimedFrom cfg d start tr ts) (hlast : ts.getLast? = some last) :
    start + d.total cfg tr ≤ last := by
  have hle := h.total_le_getLastD
  rwa [List.getLastD_eq_getLast?, hlast] at hle

/-- An event ends at least its least duration after the time before it, the start's or that of the event before (R164). -/
theorem TimedFrom.getD_add_least_le {e : PinEvent} {i : Nat} (h : TimedFrom cfg d start tr ts) (he : tr[i]? = some e) :
    (start :: ts).getD i 0 + d.least cfg e ≤ ts.getD i 0 := by
  induction tr generalizing start ts i with
  | nil => simp at he
  | cons e' tr ih =>
    obtain ⟨t, ts', rfl, hle, htail⟩ := h.cons_inv
    cases i with
    | zero => cases he; exact hle
    | succ i => exact (ih htail he :)

/-- A pin micro-operation ends at least T_PIN after the event before it (R164). -/
theorem TimedFrom.pin_le {e : PinEvent} {i : Nat} (h : TimedFrom cfg d start tr ts) (he : tr[i + 1]? = some e)
    (hp : e.w ≠ encode .delay) : ts.getD i 0 + d.tPin ≤ ts.getD (i + 1) 0 := by
  rw [← Durations.least_of_pin (cfg := cfg) hp]
  exact h.getD_add_least_le he

/-- A pin micro-operation behind a DELAY ends at least t_D + T_PIN after the event before the two (R164). -/
theorem TimedFrom.delay_pin_le {e : PinEvent} {i : Nat} (h : TimedFrom cfg d start tr ts)
    (hd : tr[i + 1]? = some evDelay) (he : tr[i + 2]? = some e) (hp : e.w ≠ encode .delay) :
    ts.getD i 0 + (d.tDelay cfg + d.tPin) ≤ ts.getD (i + 2) 0 := by
  have hdelay : ts.getD i 0 + d.tDelay cfg ≤ ts.getD (i + 1) 0 :=
    d.least_evDelay cfg ▸ h.getD_add_least_le hd
  have hpin : ts.getD (i + 1) 0 + d.tPin ≤ ts.getD (i + 2) 0 := h.pin_le he hp
  linarith

end Times

/-! ## The intervals within a byte -/

section Intervals

/-- Within a list of blocks of `n` elements, the r-th element of the j-th block stands at `n * j + r`. -/
theorem getElem?_flatMap_block {α β : Type} {f : α → List β} {n r : Nat} (hf : ∀ x, (f x).length = n) (hr : r < n)
    {xs : List α} {j : Nat} (hj : j < xs.length) : (xs.flatMap f)[n * j + r]? = (f xs[j])[r]? := by
  induction xs generalizing j with
  | nil => simp at hj
  | cons x xs ih =>
    rw [List.flatMap_cons]
    cases j with
    | zero => rw [Nat.mul_zero, Nat.zero_add, List.getElem?_append_left (by rwa [hf])]; rfl
    | succ j =>
      have hlen : n * (j + 1) + r = (f x).length + (n * j + r) := by rw [hf]; ring
      rw [hlen, List.getElem?_append_right (Nat.le_add_right _ _), Nat.add_sub_cancel_left]
      exact ih (Nat.lt_of_succ_lt_succ hj)

theorem evSet_ne_delay (v : Level) : (evSet v).w ≠ encode .delay := by cases v <;> decide

theorem evSample_ne_delay (lv : Level) : (evSample lv).w ≠ encode .delay := by cases lv <;> decide

/-- The events of WRITE_BYTE behind its direction micro-operation are those of its bits (R97). -/
theorem writeEvents_getElem? (b : Byte) {j : Nat} (hj : j < 8) :
    ∃ v, ∀ r < 6, (writeEvents b)[6 * j + r + 1]? = (writeBitEvents v)[r]? := by
  rw [writeEvents_eq]
  exact ⟨_, fun _ hr => getElem?_flatMap_block (f := writeBitEvents) (fun _ => rfl) hr (xs := levelsOfByte b) hj⟩

/-- The events of READ_BYTE behind its direction micro-operation are those of its samples (R101). -/
theorem readEvents_getElem? {lvs : List Level} {j : Nat} (hj : j < lvs.length) :
    ∃ lv, ∀ r < 5, (readEvents lvs)[5 * j + r + 1]? = (readBitEvents lv)[r]? :=
  ⟨_, fun _ hr => getElem?_flatMap_block (f := readBitEvents) (fun _ => rfl) hr hj⟩

variable {b : Byte} {lvs : List Level} {j : Nat}

/-- Within a written bit: from the level to the falling edge, and from there to the rising edge (R165). -/
theorem TimedFrom.writeBit_le (h : TimedFrom cfg d start (writeEvents b) ts) (hj : j < 8) :
    ts.getD (6 * j + 1) 0 + (d.tDelay cfg + d.tPin) ≤ ts.getD (6 * j + 3) 0 ∧
      ts.getD (6 * j + 3) 0 + (d.tDelay cfg + d.tPin) ≤ ts.getD (6 * j + 5) 0 := by
  obtain ⟨v, hbit⟩ := writeEvents_getElem? b hj
  exact ⟨h.delay_pin_le (hbit 1 (by decide)) (hbit 2 (by decide)) (by decide),
    h.delay_pin_le (hbit 3 (by decide)) (hbit 4 (by decide)) (by decide)⟩

/-- From the rising edge of a written bit to the level of the next one (R165). -/
theorem TimedFrom.writeNextBit_le (h : TimedFrom cfg d start (writeEvents b) ts) (hj : j < 7) :
    ts.getD (6 * j + 5) 0 + (d.tDelay cfg + d.tPin) ≤ ts.getD (6 * j + 7) 0 := by
  obtain ⟨v, hbit⟩ := writeEvents_getElem? b (j := j) (by omega)
  obtain ⟨v', hnext⟩ := writeEvents_getElem? b (j := j + 1) (by omega)
  exact h.delay_pin_le (hbit 5 (by decide)) (hnext 0 (by decide)) (evSet_ne_delay v')

/-- Within a read bit: from the falling edge to the rising edge, and from there to the sample (R165). -/
theorem TimedFrom.readBit_le (h : TimedFrom cfg d start (readEvents lvs) ts) (hj : j < lvs.length) :
    ts.getD (5 * j + 1) 0 + (d.tDelay cfg + d.tPin) ≤ ts.getD (5 * j + 3) 0 ∧
      ts.getD (5 * j + 3) 0 + (d.tDelay cfg + d.tPin) ≤ ts.getD (5 * j + 5) 0 := by
  obtain ⟨lv, hbit⟩ := readEvents_getElem? hj
  exact ⟨h.delay_pin_le (hbit 1 (by decide)) (hbit 2 (by decide)) (by decide),
    h.delay_pin_le (hbit 3 (by decide)) (hbit 4 (by decide)) (evSample_ne_delay lv)⟩

/-- From the sample of a read bit to the falling edge of the next one (R165). -/
theorem TimedFrom.readNextBit_le (h : TimedFrom cfg d start (readEvents lvs) ts) (hj : j + 1 < lvs.length) :
    ts.getD (5 * j + 5) 0 + d.tPin ≤ ts.getD (5 * j + 6) 0 := by
  obtain ⟨lv, hnext⟩ := readEvents_getElem? hj
  exact h.pin_le (hnext 0 (by decide)) (by decide)

end Intervals

/-- Settles O58: the intervals of R165's table are sums of those from one edge, level or sample to the next. -/
theorem edgeTimingBounds : Obligations.EdgeTimingBounds := by
  intro cfg d start ts
  refine ⟨fun b h => ⟨fun j hj => ?_, fun j hj => ?_⟩, fun lvs hlen h => ⟨fun j hj => ?_, fun j hj => ?_⟩⟩
  · obtain ⟨hfall, hrise⟩ := h.writeBit_le hj
    exact ⟨hrise, hfall, by linarith⟩
  · have hlevel := h.writeNextBit_le hj
    obtain ⟨hfall, hrise⟩ := h.writeBit_le (j := j + 1) (by omega)
    rw [Nat.mul_add_one] at hfall hrise
    exact ⟨by linarith, hlevel, by linarith⟩
  · exact h.readBit_le (by omega)
  · obtain ⟨-, hsample⟩ := h.readBit_le (j := j) (by omega)
    have hfall := h.readNextBit_le (j := j) (by omega)
    obtain ⟨hrise, -⟩ := h.readBit_le (j := j + 1) (by omega)
    rw [Nat.mul_add_one] at hrise
    exact ⟨by linarith, hfall, by linarith⟩

/-- WRITE_BYTE's least time (R107, R166). -/
theorem total_writeEvents (cfg : Config) (d : Durations) (b : Byte) :
    d.total cfg (writeEvents b) = 24 * d.tDelay cfg + 25 * d.tPin := by
  obtain ⟨counts, -⟩ := tally_writeEvents b (Lines.before true) rfl
  rw [counts.total_eq]
  norm_num

/-- READ_BYTE's least time (R107, R166). -/
theorem total_readEvents (cfg : Config) (d : Durations) {lvs : List Level} (hlen : lvs.length = 8) :
    d.total cfg (readEvents lvs) = 16 * d.tDelay cfg + 25 * d.tPin := by
  obtain ⟨counts, -⟩ := tally_readEvents hlen (Lines.before true) rfl
  rw [counts.total_eq]
  norm_num

/-- Settles O59: a primitive is a run of events, which lasts the sum of its least durations at least. -/
theorem primitiveDurations : Obligations.PrimitiveDurations := by
  intro cfg d start ts last
  refine ⟨fun b h hlast => ?_, fun lvs hlen h hlast => ?_, d.total_append cfg, fun ev h hlast => h.total_le_last hlast,
    fun ev h => ⟨h.length_eq, h.pairwise_le⟩⟩
  · exact total_writeEvents cfg d b ▸ h.total_le_last hlast
  · exact total_readEvents cfg d hlen ▸ h.total_le_last hlast

end Sys2Proof.Machine
end

section
/-! The life of an engine (spec 70 R150, R151, R153): it is constructed by one micro-operation, waits when nothing is
presented, and is dropped by none. -/

namespace Sys2Proof.Machine

variable {s : State} {rest : List Request}

/-- Settles O44: the step of an idle engine looks at the consumer, who presents nothing. -/
theorem idleEngineWaits : Obligations.IdleEngineWaits := fun _ hf ha hp => step_of_nothing_presented hf ha hp

/-! ## Construction -/

/-- Where no engine exists, construction is CLK.SET_HIGH of the blank engine (R150). -/
theorem step_construct (hl : s.live = false) (hf : s.fault = none) (ha : s.active = false)
    (hp : s.program = .construct :: rest) : step s = exec .clkSetHigh { s with program := rest }.blank := by
  rw [step_serve hf ha hp]
  exact if_neg (by simp [hl])

/-- Settles O46: CLK.SET_HIGH of the blank engine drives CLK in every mode, or the driver's panic leaves the blank engine. -/
theorem constructionEstablishesIdle : Obligations.ConstructionEstablishesIdle := by
  intro s rest hl hf ha hp
  have hstep := step_construct hl hf ha hp
  refine ⟨fun hcalm => ?_, fun hc hpanic => ?_⟩
  · have hact : { s with program := rest }.blank.CanAct := ⟨rfl, rfl, hcalm⟩
    exact ⟨_, hstep.trans (exec_pin_anyMode rfl (by decide) rfl hact),
      rfl, rfl, rfl, rfl, rfl, rfl, rfl, rfl, rfl, rfl, rfl, rfl, rfl⟩
  · exact ⟨_, hstep.trans (exec_pin_panic rfl (by decide) rfl rfl hc hpanic),
      rfl, rfl, rfl, rfl, rfl, rfl, rfl, rfl, rfl, rfl, rfl, rfl⟩

/-! ## Drop -/

/-- An idle engine is dropped in one step (R153). -/
theorem step_drop (hl : s.live = true) (hf : s.fault = none) (ha : s.active = false) (hp : s.program = .drop :: rest) :
    step s = .next { s with program := rest }.dropped := by
  rw [step_serve hf ha hp, serveRequest, whenRunning_run (s := { s with program := rest }) hl hf]

/-- Where no engine exists no instruction runs: each looks at that behind the fault state (R153; log 18). -/
theorem exec_dropped (hl : s.live = false) (hf : s.fault = none) (i : Instr) : exec i s = .fault .noEngine := by
  cases s
  cases hl
  cases hf
  cases i <;> rfl

/-- Settles O47: the drop writes only the mark that the engine exists. -/
theorem dropLeavesPins : Obligations.DropLeavesPins :=
  fun _ _ hl hf ha hp => ⟨_, step_drop hl hf ha hp, rfl, rfl, rfl, rfl, rfl, exec_dropped rfl hf⟩

end Sys2Proof.Machine
end
